-- ==== Sys2Proof/Word.lean ====
section
/-! DEFINITION. The word types of the ARM2/ARM3 CORE (spec/10_state.md R20, spec/20_memory.md R60). -/

namespace Sys2Proof

/-- The addressable unit (R60). -/
abbrev Byte := BitVec 8

/-- A register, a data word, an instruction word (R5, R20). -/
abbrev Word := BitVec 32

end Sys2Proof
end

