-- ==== Sys2Proof/Config.lean ====
section
/-! DEFINITION. The fixed constants and the parameters of the block (spec/00_scope.md R4). -/

namespace Sys2Proof.Config

/-- ADDR_MASK: the 26-bit mask applied to every address (R4, R61). -/
def addrMask : Word := 0x03FFFFFF#32

/-- PC_MASK: what every write to R15 keeps (R4, R24). -/
def pcMask : Word := 0x03FFFFFC#32

/-- SENTINEL: what a word read that decodes to no region returns (R4, R68). -/
def sentinel : Word := 0xFFFFFFFF#32

/-- ROM_SIZE, 2 MiB (R4). -/
def romSize : Nat := 0x00200000

/-- LOW_MIRROR is `[0, lowMirrorEnd)` (R4, R63). -/
def lowMirrorEnd : Nat := 0x00200000

/-- ALT_MIRROR is `[altMirrorBase, altMirrorEnd)` (R4, R64). -/
def altMirrorBase : Nat := 0x02000000

def altMirrorEnd : Nat := 0x02200000

/-- The IOC is `[iocBase, vidcBase)` (R4, R66). -/
def iocBase : Nat := 0x03200000

/-- The VIDC port is `[vidcBase, ioEnd)` (R4, R66). -/
def vidcBase : Nat := 0x03400000

/-- The end of the I/O region (R4, R66). -/
def ioEnd : Nat := 0x03600000

/-- IOC_SIZE and VIDC_SIZE (R4). -/
def deviceSize : Nat := 0x00200000

/-- The number of registers of the VIDC port (R292). -/
def vidcCount : Nat := 278

/-- The parameters a model takes as arguments (R4). They are launch data: `power_on` sets them and nothing changes
them. DESIGN CHOICE (log 2): they stand in the state, so a statement about every state is a statement about every
parameter. -/
structure Params where
  /-- RAM_SIZE in bytes, 4 MiB to 16 MiB. -/
  ramSize : Nat
  /-- ROM_BASE, a byte address. -/
  romBase : Nat
  /-- MEMC_BOOT_LATCH_ADDR, a byte address; OPEN in the spec (R72). -/
  bootLatch : Nat
deriving DecidableEq, Repr

/-- The ranges R4, R62 and R72 give the parameters. -/
abbrev Params.wf (p : Params) : Prop :=
  0x00400000 ≤ p.ramSize ∧ p.ramSize ≤ 0x01000000 ∧ p.ramSize % 4 = 0 ∧
  p.romBase % 4 = 0 ∧
  p.bootLatch % 4 = 0 ∧ p.bootLatch < 0x04000000

/-- MEMC_BOOT_LATCH_ADDR divided by 4. DESIGN CHOICE (log 3): the spec leaves the address open (R72), so it has no
body here and nothing can be proved of its value. -/
opaque memcBootLatchWord : BitVec 24

/-- The parameters of `State.reset`: the spec's defaults of RAM_SIZE and ROM_BASE (R4) and the open latch address. -/
def defaultParams : Params where
  ramSize := 0x00400000
  romBase := 0x03800000
  bootLatch := 4 * memcBootLatchWord.toNat

/-- CYCLES_PER_FRAME, a default of the reference environment (R4, R336). -/
def cyclesPerFrame : Nat := 160000

/-- STEP_BUDGET, a default of the reference environment (R4, R336). -/
def stepBudget : Nat := 160000

end Sys2Proof.Config
end

