-- ==== Sys2Proof/Machine/Memory.lean ====
section
/-! DEFINITION. Sparse stores in one canonical form: a list of (key, value) pairs, keys strictly rising, no entry equal to
what an unlisted key reads as. That value is zero: it is the spec's for the tail of the ROM image (spec/00_scope.md R4) and
for the VIDC registers (spec/10_state.md R37), and a DESIGN CHOICE (log 5) for RAM that nothing has written. -/

namespace Sys2Proof.Machine

/-- A store of `w`-bit values by key. -/
abbrev Store (w : Nat) := List (Nat × BitVec w)

/-- The bytes of a memory by byte address or byte index. -/
abbrev Memory := List Host.Cell

/-- What the store holds at a key; zero where nothing is listed. -/
def Store.read {w : Nat} : Store w → Nat → BitVec w
  | [], _ => 0
  | (k, v) :: rest, a => if k = a then v else Store.read rest a

/-- The store with the value at one key replaced. A zero removes the entry, so that equal contents are equal lists. -/
def Store.write {w : Nat} : Store w → Nat → BitVec w → Store w
  | [], a, v => if v = 0 then [] else [(a, v)]
  | (k, x) :: rest, a, v =>
    if a < k then (if v = 0 then (k, x) :: rest else (a, v) :: (k, x) :: rest)
    else if a = k then (if v = 0 then rest else (a, v) :: rest)
    else (k, x) :: Store.write rest a v

/-- The canonical form: keys strictly rising, no zero value. -/
def Store.wf {w : Nat} : Store w → Bool
  | [] => true
  | (k, v) :: rest => v != 0 && rest.all (fun c => decide (k < c.1)) && Store.wf rest

/-- Every key lies below a bound. -/
def Store.below {w : Nat} (bound : Nat) (m : Store w) : Bool := m.all (fun c => decide (c.1 < bound))

/-- One byte of a memory. -/
def Memory.read (m : Memory) (a : Nat) : Byte := Store.read m a

/-- A memory with one byte replaced. -/
def Memory.write (m : Memory) (a : Nat) (b : Byte) : Memory := Store.write m a b

/-- The canonical form of a memory. -/
def Memory.wf (m : Memory) : Bool := Store.wf m

/-- The little-endian word at a byte address (spec/20_memory.md R69, R70). -/
def Memory.readWord (m : Memory) (a : Nat) : Word :=
  m.read (a + 3) ++ m.read (a + 2) ++ m.read (a + 1) ++ m.read a

/-- A memory with the four bytes of a word replaced, little-endian (R69, R71). -/
def Memory.writeWord (m : Memory) (a : Nat) (v : Word) : Memory :=
  (((m.write a (v.extractLsb' 0 8)).write (a + 1) (v.extractLsb' 8 8)).write (a + 2) (v.extractLsb' 16 8)).write
    (a + 3) (v.extractLsb' 24 8)

end Sys2Proof.Machine
end

