-- ==== Sys2Proof/Machine/State.lean ====
section
/-! DEFINITION. The machine's state as plain data: everything spec/10_state.md gives the machine, the parameters of
spec/00_scope.md R4, and the diagnostic events of the last step (R9). -/

namespace Sys2Proof.Machine

/-- The four processor modes (R28). -/
inductive Mode where
  | usr | fiq | irq | svc
deriving DecidableEq, Repr

/-- The 27 physical registers (R21). -/
inductive PhysReg where
  | r0 | r1 | r2 | r3 | r4 | r5 | r6 | r7
  | r8usr | r9usr | r10usr | r11usr | r12usr
  | r8fiq | r9fiq | r10fiq | r11fiq | r12fiq
  | r13usr | r14usr | r13fiq | r14fiq | r13irq | r14irq | r13svc | r14svc
  | r15
deriving DecidableEq, Repr

/-- The register file: one word per physical register (R21). `r15` is the stored program counter (R23). -/
structure RegFile where
  r0 : Word
  r1 : Word
  r2 : Word
  r3 : Word
  r4 : Word
  r5 : Word
  r6 : Word
  r7 : Word
  r8usr : Word
  r9usr : Word
  r10usr : Word
  r11usr : Word
  r12usr : Word
  r8fiq : Word
  r9fiq : Word
  r10fiq : Word
  r11fiq : Word
  r12fiq : Word
  r13usr : Word
  r14usr : Word
  r13fiq : Word
  r14fiq : Word
  r13irq : Word
  r14irq : Word
  r13svc : Word
  r14svc : Word
  r15 : Word
deriving DecidableEq, Repr

/-- The seven fields of a program status register (R27, R29). -/
structure Psr where
  n : Bool
  z : Bool
  c : Bool
  v : Bool
  i : Bool
  f : Bool
  mode : Mode
deriving DecidableEq, Repr

/-- One timer of the IOC (R33, R278). -/
structure Timer where
  latch : BitVec 16
  counter : BitVec 16
  latchedRead : BitVec 16
deriving DecidableEq, Repr

/-- One interrupt bank of the IOC; its status is a function, not a field (R33, R271, R272). -/
structure Bank where
  request : BitVec 8
  mask : BitVec 8
deriving DecidableEq, Repr

/-- The IOC (R33, R270). -/
structure Ioc where
  control : BitVec 8
  t0 : Timer
  t1 : Timer
  irqA : Bank
  irqB : Bank
  fiq : Bank
deriving DecidableEq, Repr

/-- The diagnostic events (R9). Addresses are the masked addresses of R70, R71, R74, R75. -/
inductive Diag where
  /-- A write to ROM or to a mirror of it was dropped. -/
  | romWrite (addr value : Word)
  /-- A read found no readable location and returned all-ones. -/
  | invalidRead (addr : Word)
  /-- A write found no writable location and was dropped. -/
  | invalidWrite (addr value : Word)
  /-- An Unimplemented encoding was skipped (R242). -/
  | unimplemented (pc instr : Word)
deriving DecidableEq, Repr

/-- The state of the machine. -/
structure State where
  /-- R20 to R26. -/
  regs : RegFile
  /-- R27. -/
  cpsr : Psr
  /-- R29. -/
  spsrFiq : Psr
  /-- R29. -/
  spsrIrq : Psr
  /-- R29. -/
  spsrSvc : Psr
  /-- R32, R72. -/
  isBootMode : Bool
  /-- The RAM bytes by byte address (R32, R65). -/
  ram : Memory
  /-- The ROM bytes by offset in ROM_IMAGE; no access changes them (R32, R79). -/
  rom : Memory
  /-- R33. -/
  ioc : Ioc
  /-- The registers of the VIDC port by word offset (R34, R292). -/
  vidc : Store 32
  /-- The parameters; not architectural state (R4, R36, log 2). -/
  params : Config.Params
  /-- The diagnostic events of the last step, the second part of its outcome `Next`; not architectural state
  (R9; DESIGN CHOICE, log 7). -/
  diags : List Diag
deriving DecidableEq, Repr

/-- Why the machine stops. -/
inductive Fault where
  /-- Raised by `step` when the fetched word is 0xFFFFFFFF: the outcome `Fatal(InvalidPC(addr))` of R9 and R101, with the
  address fetched from. The spec stops there too, so it is no departure: safe. -/
  | invalidPC (addr : Word)
deriving DecidableEq, Repr

/-- Why the model gives no meaning. -/
inductive Refusal where
  /-- An instruction the model gives no meaning yet, by its mnemonic in the opcode table. No arm of `exec` raises it.
  A refusal proves nothing false: safe. -/
  | notModelled (mnemonic : String)
deriving DecidableEq, Repr

/-- Every general register zero (R37, R321). -/
def RegFile.zero : RegFile where
  r0 := 0
  r1 := 0
  r2 := 0
  r3 := 0
  r4 := 0
  r5 := 0
  r6 := 0
  r7 := 0
  r8usr := 0
  r9usr := 0
  r10usr := 0
  r11usr := 0
  r12usr := 0
  r8fiq := 0
  r9fiq := 0
  r10fiq := 0
  r11fiq := 0
  r12fiq := 0
  r13usr := 0
  r14usr := 0
  r13fiq := 0
  r14fiq := 0
  r13irq := 0
  r14irq := 0
  r13svc := 0
  r14svc := 0
  r15 := 0

/-- CPSR after reset: `I|F|SVC`, the flags clear (R37, R321). -/
def Psr.reset : Psr where
  n := false
  z := false
  c := false
  v := false
  i := true
  f := true
  mode := .svc

/-- DESIGN CHOICE (log 6): what each SPSR holds after a reset. The spec gives no value (R37, R321). -/
def Psr.savedAtReset : Psr := Psr.reset

def Timer.reset : Timer where
  latch := 0
  counter := 0
  latchedRead := 0

def Bank.reset : Bank where
  request := 0
  mask := 0

/-- The IOC at `power_on` (R288). -/
def Ioc.reset : Ioc where
  control := 0
  t0 := Timer.reset
  t1 := Timer.reset
  irqA := Bank.reset
  irqB := Bank.reset
  fiq := Bank.reset

/-- The event `power_on` with its inputs, the parameters and the ROM image (R320). -/
def powerOn (params : Config.Params) (romImage : Memory) : State where
  regs := RegFile.zero
  cpsr := Psr.reset
  spsrFiq := Psr.savedAtReset
  spsrIrq := Psr.savedAtReset
  spsrSvc := Psr.savedAtReset
  isBootMode := true
  ram := []
  rom := romImage
  ioc := Ioc.reset
  vidc := []
  params := params
  diags := []

/-- The machine after `power_on` with the spec's default parameters and, by DESIGN CHOICE, an empty ROM image (log 2,
log 4). -/
def State.reset : State := powerOn Config.defaultParams []

end Sys2Proof.Machine
end

