-- ==== Sys2Proof/Machine/Devices.lean ====
section
/-! DEFINITION. The IOC (interrupt aggregator and timer pair, spec/60_exceptions.md R270 to R288) and the register store of
the VIDC port (R292, R293; DEDUCED, log 10). A read or write of an offset that has no such direction answers `none`: the router then treats
it as an invalid data access (R276, R287). -/

namespace Sys2Proof.Machine

/-! ### The interrupt banks -/

/-- `status(bank) = request & mask` (R272). -/
def Bank.status (b : Bank) : BitVec 8 := b.request &&& b.mask

/-- The request register is write-1-to-clear (R274). -/
def Bank.clear (b : Bank) (v : BitVec 8) : Bank := { b with request := b.request &&& ~~~v }

/-- A mask write replaces (R275). -/
def Bank.setMask (b : Bank) (v : BitVec 8) : Bank := { b with mask := v }

/-- A source sets request bits (R281, R285, R286). -/
def Bank.request1 (b : Bank) (bits : BitVec 8) : Bank := { b with request := b.request ||| bits }

/-- `irq_line` (R273). -/
def Ioc.irqLine (d : Ioc) : Bool := d.irqA.status != 0 || d.irqB.status != 0

/-- `fiq_line` (R273). -/
def Ioc.fiqLine (d : Ioc) : Bool := d.fiq.status != 0

/-! ### The timers -/

/-- A write of the low byte of the latch (R279). -/
def Timer.setLatchLow (t : Timer) (v : BitVec 8) : Timer := { t with latch := t.latch.extractLsb' 8 8 ++ v }

/-- A write of the high byte of the latch (R279). -/
def Timer.setLatchHigh (t : Timer) (v : BitVec 8) : Timer := { t with latch := v ++ t.latch.extractLsb' 0 8 }

/-- The command write: latch-for-read, then go (R282). -/
def Timer.command (t : Timer) : Timer := { t with latchedRead := t.counter, counter := t.latch }

/-- A tick of `n` cycles reaches or crosses zero (R281). -/
def Timer.fires (t : Timer) (n : Nat) : Bool := decide (0 < n) && decide (t.counter.toNat ≤ n)

/-- One timer's part of a tick (R281). -/
def Timer.tick (t : Timer) (n : Nat) : Timer :=
  if t.fires n then { t with counter := t.latch } else { t with counter := BitVec.ofNat 16 (t.counter.toNat - n) }

/-- The IRQ-A bits: vertical flyback 3, timer 0 5, timer 1 6 (R271). -/
def flybackBit : BitVec 8 := 0x08

def timer0Bit : BitVec 8 := 0x20

def timer1Bit : BitVec 8 := 0x40

/-- The event `ioc_tick(n)`: timer 0 first, then timer 1 (R281). -/
def Ioc.tick (d : Ioc) (n : Nat) : Ioc :=
  let a0 := if d.t0.fires n then d.irqA.request1 timer0Bit else d.irqA
  let a1 := if d.t1.fires n then a0.request1 timer1Bit else a0
  { d with t0 := d.t0.tick n, t1 := d.t1.tick n, irqA := a1 }

/-! ### The IOC registers -/

/-- What offset `k` of the IOC reads as (R270, R276, R280, R287). -/
def Ioc.read (d : Ioc) (k : Nat) : Option (BitVec 8) :=
  match k with
  | 0 => some d.control
  | 1 => some (d.t0.latchedRead.extractLsb' 0 8)
  | 2 => some (d.t0.latchedRead.extractLsb' 8 8)
  | 3 => some (d.t1.latchedRead.extractLsb' 0 8)
  | 4 => some (d.t1.latchedRead.extractLsb' 8 8)
  | 5 => none
  | 6 => none
  | 7 => some d.irqA.status
  | 8 => some d.irqA.request
  | 9 => some d.irqA.mask
  | 10 => some d.irqB.status
  | 11 => some d.irqB.request
  | 12 => some d.irqB.mask
  | 13 => some d.fiq.status
  | 14 => some d.fiq.request
  | 15 => some d.fiq.mask
  | _ => none

/-- What a write of the byte `v` to offset `k` does (R270, R274 to R279, R282, R287). -/
def Ioc.write (d : Ioc) (k : Nat) (v : BitVec 8) : Option Ioc :=
  match k with
  | 0 => some { d with control := v }
  | 1 => some { d with t0 := d.t0.setLatchLow v }
  | 2 => some { d with t0 := d.t0.setLatchHigh v }
  | 3 => some { d with t1 := d.t1.setLatchLow v }
  | 4 => some { d with t1 := d.t1.setLatchHigh v }
  | 5 => some { d with t0 := d.t0.command }
  | 6 => some { d with t1 := d.t1.command }
  | 7 => none
  | 8 => some { d with irqA := d.irqA.clear v }
  | 9 => some { d with irqA := d.irqA.setMask v }
  | 10 => none
  | 11 => some { d with irqB := d.irqB.clear v }
  | 12 => some { d with irqB := d.irqB.setMask v }
  | 13 => none
  | 14 => some { d with fiq := d.fiq.clear v }
  | 15 => some { d with fiq := d.fiq.setMask v }
  | _ => none

/-! ### The VIDC port -/

/-- The bits a VIDC register stores: 13 for the palette and the colours, 32 for the others (R292, R293). -/
def vidcMask (k : Nat) : Word := if k < 260 then 0x1FFF else 0xFFFFFFFF

/-- What offset `k` of the VIDC port reads as (R292). -/
def vidcRead (r : Store 32) (k : Nat) : Option Word := if k < Config.vidcCount then some (r.read k) else none

/-- What a write to offset `k` of the VIDC port does (R292, R293). -/
def vidcWrite (r : Store 32) (k : Nat) (v : Word) : Option (Store 32) :=
  if k < Config.vidcCount then some (r.write k (v &&& vidcMask k)) else none

end Sys2Proof.Machine
end

