-- ==== Sys2Proof/Syntax.lean ====
section
/-! DEFINITION. The instructions: one constructor of `Instr` per row of spec/opcode_table.json. Fields a class does not
use are kept, because they may hold any value (spec/30_encoding.md R114) and encoding loses no bit of them. -/

namespace Sys2Proof

/-- The sixteen register numbers of an instruction (R20). -/
inductive Reg where
  | r0 | r1 | r2 | r3 | r4 | r5 | r6 | r7 | r8 | r9 | r10 | r11 | r12 | r13 | r14 | r15
deriving DecidableEq, Repr

/-- The sixteen conditions (R104). -/
inductive Cond where
  | eq | ne | cs | cc | mi | pl | vs | vc | hi | ls | ge | lt | gt | le | al | nv
deriving DecidableEq, Repr

/-- The four shift types (R106). -/
inductive ShiftType where
  | lsl | lsr | asr | ror
deriving DecidableEq, Repr

/-- Operand2 of a data-processing instruction (R106). -/
inductive Operand2 where
  /-- `I = 1`: an 8-bit immediate rotated right by `2 * rot4` (R131). -/
  | imm (rot4 : BitVec 4) (imm8 : BitVec 8)
  /-- `I = 0`, bit 4 = 0: Rm shifted by the amount field (R132). -/
  | shiftImm (shamt5 : BitVec 5) (type : ShiftType) (rm : Reg)
  /-- `I = 0`, bit 4 = 1: Rm shifted by the low byte of Rs (R133). Bit 7 is not examined. -/
  | shiftReg (rs : Reg) (bit7 : Bool) (type : ShiftType) (rm : Reg)
deriving DecidableEq, Repr

/-- The offset of a single data transfer (R108, R191). -/
inductive Offset where
  | imm (imm12 : BitVec 12)
  | reg (shamt5 : BitVec 5) (type : ShiftType) (rm : Reg)
deriving DecidableEq, Repr

/-- One constructor per row of the opcode table. `cond` is bits 31:28 of every word. -/
inductive Instr where
  /-- R181. `rn` (bits 15:12) is ignored. -/
  | mul (cond : Cond) (s : Bool) (rd rn rs rm : Reg)
  /-- R182. -/
  | mla (cond : Cond) (s : Bool) (rd rn rs rm : Reg)
  /-- R142. -/
  | and (cond : Cond) (s : Bool) (rn rd : Reg) (op2 : Operand2)
  /-- R143. -/
  | eor (cond : Cond) (s : Bool) (rn rd : Reg) (op2 : Operand2)
  /-- R144. -/
  | sub (cond : Cond) (s : Bool) (rn rd : Reg) (op2 : Operand2)
  /-- R145. -/
  | rsb (cond : Cond) (s : Bool) (rn rd : Reg) (op2 : Operand2)
  /-- R146. -/
  | add (cond : Cond) (s : Bool) (rn rd : Reg) (op2 : Operand2)
  /-- R147. -/
  | adc (cond : Cond) (s : Bool) (rn rd : Reg) (op2 : Operand2)
  /-- R148. -/
  | sbc (cond : Cond) (s : Bool) (rn rd : Reg) (op2 : Operand2)
  /-- R149. -/
  | rsc (cond : Cond) (s : Bool) (rn rd : Reg) (op2 : Operand2)
  /-- R150. `rd` is not written; it matters only when it is 15 (R140). -/
  | tst (cond : Cond) (s : Bool) (rn rd : Reg) (op2 : Operand2)
  /-- R151. -/
  | teq (cond : Cond) (s : Bool) (rn rd : Reg) (op2 : Operand2)
  /-- R152. -/
  | cmp (cond : Cond) (s : Bool) (rn rd : Reg) (op2 : Operand2)
  /-- R153. -/
  | cmn (cond : Cond) (s : Bool) (rn rd : Reg) (op2 : Operand2)
  /-- R154. -/
  | orr (cond : Cond) (s : Bool) (rn rd : Reg) (op2 : Operand2)
  /-- R155. The value of `rn` is not used. -/
  | mov (cond : Cond) (s : Bool) (rn rd : Reg) (op2 : Operand2)
  /-- R156. -/
  | bic (cond : Cond) (s : Bool) (rn rd : Reg) (op2 : Operand2)
  /-- R157. The value of `rn` is not used. -/
  | mvn (cond : Cond) (s : Bool) (rn rd : Reg) (op2 : Operand2)
  /-- R243, dispatch row 3a. `hi` is bits 24:5 and `lo` bits 3:0, which nothing examines. -/
  | unimplSdtRegshift (cond : Cond) (hi : BitVec 20) (lo : BitVec 4)
  /-- R192. `p`, `u`, `w` are the bits P, U, W. -/
  | ldr (cond : Cond) (p u w : Bool) (rn rd : Reg) (off : Offset)
  /-- R193. -/
  | ldrb (cond : Cond) (p u w : Bool) (rn rd : Reg) (off : Offset)
  /-- R194. -/
  | str (cond : Cond) (p u w : Bool) (rn rd : Reg) (off : Offset)
  /-- R195. -/
  | strb (cond : Cond) (p u w : Bool) (rn rd : Reg) (off : Offset)
  /-- R212. `p`, `u`, `s`, `w` are the bits P, U, S, W; bit i of `list` stands for Ri. -/
  | ldm (cond : Cond) (p u s w : Bool) (rn : Reg) (list : BitVec 16)
  /-- R213. -/
  | stm (cond : Cond) (p u s w : Bool) (rn : Reg) (list : BitVec 16)
  /-- R231. -/
  | b (cond : Cond) (off24 : BitVec 24)
  /-- R232. -/
  | bl (cond : Cond) (off24 : BitVec 24)
  /-- R240. The comment field is ignored. -/
  | swi (cond : Cond) (comment : BitVec 24)
  /-- R243, bits 27:25 = 110. `rest` is bits 24:0, which nothing examines. -/
  | unimplCoprocTransfer (cond : Cond) (rest : BitVec 25)
  /-- R243, bits 27:24 = 1110. `rest` is bits 23:0, which nothing examines. -/
  | unimplCoprocOp (cond : Cond) (rest : BitVec 24)
deriving DecidableEq, Repr

/-- The condition of an instruction: bits 31:28 of its word (R103). -/
def Instr.cond : Instr → Cond
  | .mul c _ _ _ _ _ => c
  | .mla c _ _ _ _ _ => c
  | .and c _ _ _ _ => c
  | .eor c _ _ _ _ => c
  | .sub c _ _ _ _ => c
  | .rsb c _ _ _ _ => c
  | .add c _ _ _ _ => c
  | .adc c _ _ _ _ => c
  | .sbc c _ _ _ _ => c
  | .rsc c _ _ _ _ => c
  | .tst c _ _ _ _ => c
  | .teq c _ _ _ _ => c
  | .cmp c _ _ _ _ => c
  | .cmn c _ _ _ _ => c
  | .orr c _ _ _ _ => c
  | .mov c _ _ _ _ => c
  | .bic c _ _ _ _ => c
  | .mvn c _ _ _ _ => c
  | .unimplSdtRegshift c _ _ => c
  | .ldr c _ _ _ _ _ _ => c
  | .ldrb c _ _ _ _ _ _ => c
  | .str c _ _ _ _ _ _ => c
  | .strb c _ _ _ _ _ _ => c
  | .ldm c _ _ _ _ _ _ => c
  | .stm c _ _ _ _ _ _ => c
  | .b c _ => c
  | .bl c _ => c
  | .swi c _ => c
  | .unimplCoprocTransfer c _ => c
  | .unimplCoprocOp c _ => c

end Sys2Proof
end

