-- ==== Sys2Proof/WellFormed.lean ====
section
/-! DEFINITION. Which terms of `Instr` some word encodes. The types of the fields hold every bound but one: the words
that AND and EOR with a register-specified shift would share with the multiply row belong to the multiply row
(spec/30_encoding.md R105 row 1; spec/40_data_processing.md R142, R143). -/

namespace Sys2Proof

/-- Bits 7:4 of the Operand2 field are 1001, the pattern of the multiply row. -/
def Operand2.hasMultiplyPattern : Operand2 → Bool
  | .imm _ _ => false
  | .shiftImm _ _ _ => false
  | .shiftReg _ bit7 type _ => bit7 && type == .lsl

/-- Some word encodes the term: AND and EOR may not hold the multiply row's pattern. -/
def Instr.wellFormed : Instr → Bool
  | .and _ _ _ _ op2 => !op2.hasMultiplyPattern
  | .eor _ _ _ _ op2 => !op2.hasMultiplyPattern
  | .mul _ _ _ _ _ _ => true
  | .mla _ _ _ _ _ _ => true
  | .sub _ _ _ _ _ => true
  | .rsb _ _ _ _ _ => true
  | .add _ _ _ _ _ => true
  | .adc _ _ _ _ _ => true
  | .sbc _ _ _ _ _ => true
  | .rsc _ _ _ _ _ => true
  | .tst _ _ _ _ _ => true
  | .teq _ _ _ _ _ => true
  | .cmp _ _ _ _ _ => true
  | .cmn _ _ _ _ _ => true
  | .orr _ _ _ _ _ => true
  | .mov _ _ _ _ _ => true
  | .bic _ _ _ _ _ => true
  | .mvn _ _ _ _ _ => true
  | .unimplSdtRegshift _ _ _ => true
  | .ldr _ _ _ _ _ _ _ => true
  | .ldrb _ _ _ _ _ _ _ => true
  | .str _ _ _ _ _ _ _ => true
  | .strb _ _ _ _ _ _ _ => true
  | .ldm _ _ _ _ _ _ _ => true
  | .stm _ _ _ _ _ _ _ => true
  | .b _ _ => true
  | .bl _ _ => true
  | .swi _ _ => true
  | .unimplCoprocTransfer _ _ => true
  | .unimplCoprocOp _ _ => true

end Sys2Proof
end

