-- ==== Sys2Proof/Decode.lean ====
section
/-! DEFINITION. The decoder of instruction words (spec/30_encoding.md R105 to R113), the encoder of the same formats,
and the decoder of byte sequences (little-endian, R101). Every word decodes (R114). -/

namespace Sys2Proof

/-- Bits `lo + len - 1` down to `lo` of a word (R5). -/
def field (w : Word) (lo len : Nat) : BitVec len := w.extractLsb' lo len

/-- Bit `i` of a word (R5). -/
def bit (w : Word) (i : Nat) : Bool := w.getLsbD i

/-- The number of a register (R20). -/
def Reg.num : Reg → BitVec 4
  | .r0 => 0 | .r1 => 1 | .r2 => 2 | .r3 => 3 | .r4 => 4 | .r5 => 5 | .r6 => 6 | .r7 => 7
  | .r8 => 8 | .r9 => 9 | .r10 => 10 | .r11 => 11 | .r12 => 12 | .r13 => 13 | .r14 => 14 | .r15 => 15

/-- The register of a 4-bit field (R20). -/
def Reg.ofNum (b : BitVec 4) : Reg :=
  match b.toNat with
  | 0 => .r0 | 1 => .r1 | 2 => .r2 | 3 => .r3 | 4 => .r4 | 5 => .r5 | 6 => .r6 | 7 => .r7
  | 8 => .r8 | 9 => .r9 | 10 => .r10 | 11 => .r11 | 12 => .r12 | 13 => .r13 | 14 => .r14 | _ => .r15

/-- The condition field of a condition (R104). -/
def Cond.bits : Cond → BitVec 4
  | .eq => 0 | .ne => 1 | .cs => 2 | .cc => 3 | .mi => 4 | .pl => 5 | .vs => 6 | .vc => 7
  | .hi => 8 | .ls => 9 | .ge => 10 | .lt => 11 | .gt => 12 | .le => 13 | .al => 14 | .nv => 15

/-- The condition of a condition field (R104). -/
def Cond.ofBits (b : BitVec 4) : Cond :=
  match b.toNat with
  | 0 => .eq | 1 => .ne | 2 => .cs | 3 => .cc | 4 => .mi | 5 => .pl | 6 => .vs | 7 => .vc
  | 8 => .hi | 9 => .ls | 10 => .ge | 11 => .lt | 12 => .gt | 13 => .le | 14 => .al | _ => .nv

/-- The type field of a shift (R106). -/
def ShiftType.bits : ShiftType → BitVec 2
  | .lsl => 0 | .lsr => 1 | .asr => 2 | .ror => 3

/-- The shift of a type field (R106). -/
def ShiftType.ofBits (b : BitVec 2) : ShiftType :=
  match b.toNat with
  | 0 => .lsl | 1 => .lsr | 2 => .asr | _ => .ror

/-- Row 1 of the dispatch, in the format of R107. -/
def decodeMultiply (c : Cond) (w : Word) : Instr :=
  let s := bit w 20
  let rd := Reg.ofNum (field w 16 4)
  let rn := Reg.ofNum (field w 12 4)
  let rs := Reg.ofNum (field w 8 4)
  let rm := Reg.ofNum (field w 0 4)
  if bit w 21 then .mla c s rd rn rs rm else .mul c s rd rn rs rm

/-- Operand2 of the data-processing format (R106). -/
def decodeOperand2 (w : Word) : Operand2 :=
  if bit w 25 then .imm (field w 8 4) (field w 0 8)
  else if bit w 4 then
    .shiftReg (Reg.ofNum (field w 8 4)) (bit w 7) (ShiftType.ofBits (field w 5 2)) (Reg.ofNum (field w 0 4))
  else .shiftImm (field w 7 5) (ShiftType.ofBits (field w 5 2)) (Reg.ofNum (field w 0 4))

/-- Row 2 of the dispatch: the opcode table of R130. -/
def decodeDataProcessing (c : Cond) (w : Word) : Instr :=
  let s := bit w 20
  let rn := Reg.ofNum (field w 16 4)
  let rd := Reg.ofNum (field w 12 4)
  let op2 := decodeOperand2 w
  match (field w 21 4).toNat with
  | 0 => .and c s rn rd op2
  | 1 => .eor c s rn rd op2
  | 2 => .sub c s rn rd op2
  | 3 => .rsb c s rn rd op2
  | 4 => .add c s rn rd op2
  | 5 => .adc c s rn rd op2
  | 6 => .sbc c s rn rd op2
  | 7 => .rsc c s rn rd op2
  | 8 => .tst c s rn rd op2
  | 9 => .teq c s rn rd op2
  | 10 => .cmp c s rn rd op2
  | 11 => .cmn c s rn rd op2
  | 12 => .orr c s rn rd op2
  | 13 => .mov c s rn rd op2
  | 14 => .bic c s rn rd op2
  | _ => .mvn c s rn rd op2

/-- The offset of a single data transfer; bit 25 has the opposite sense to data-processing (R108). -/
def decodeOffset (w : Word) : Offset :=
  if bit w 25 then .reg (field w 7 5) (ShiftType.ofBits (field w 5 2)) (Reg.ofNum (field w 0 4))
  else .imm (field w 0 12)

/-- Row 3b of the dispatch, in the format of R108. -/
def decodeSingleTransfer (c : Cond) (w : Word) : Instr :=
  let p := bit w 24
  let u := bit w 23
  let wb := bit w 21
  let rn := Reg.ofNum (field w 16 4)
  let rd := Reg.ofNum (field w 12 4)
  let off := decodeOffset w
  match bit w 20, bit w 22 with
  | true, false => .ldr c p u wb rn rd off
  | true, true => .ldrb c p u wb rn rd off
  | false, false => .str c p u wb rn rd off
  | false, true => .strb c p u wb rn rd off

/-- Row 4 of the dispatch, in the format of R109. -/
def decodeBlockTransfer (c : Cond) (w : Word) : Instr :=
  let rn := Reg.ofNum (field w 16 4)
  if bit w 20 then .ldm c (bit w 24) (bit w 23) (bit w 22) (bit w 21) rn (field w 0 16)
  else .stm c (bit w 24) (bit w 23) (bit w 22) (bit w 21) rn (field w 0 16)

/-- Row 5 of the dispatch, in the format of R110. -/
def decodeBranch (c : Cond) (w : Word) : Instr :=
  if bit w 24 then .bl c (field w 0 24) else .b c (field w 0 24)

/-- The class dispatch: the rows of R105 in their order, the first that holds. Every word falls in a row (R114). -/
def decodeWord (w : Word) : Instr :=
  let c := Cond.ofBits (field w 28 4)
  if field w 22 6 = 0b000000#6 ∧ field w 4 4 = 0b1001#4 then decodeMultiply c w
  else if field w 26 2 = 0b00#2 then decodeDataProcessing c w
  else if field w 26 2 = 0b01#2 ∧ bit w 25 = true ∧ bit w 4 = true then
    .unimplSdtRegshift c (field w 5 20) (field w 0 4)
  else if field w 26 2 = 0b01#2 then decodeSingleTransfer c w
  else if field w 25 3 = 0b100#3 then decodeBlockTransfer c w
  else if field w 25 3 = 0b101#3 then decodeBranch c w
  else if field w 24 4 = 0b1111#4 then .swi c (field w 0 24)
  else if field w 25 3 = 0b110#3 then .unimplCoprocTransfer c (field w 0 25)
  else .unimplCoprocOp c (field w 0 24)

/-- The little-endian word of four bytes, the first at the lowest address (R69). -/
def wordOfBytes (b0 b1 b2 b3 : Byte) : Word := b3 ++ b2 ++ b1 ++ b0

/-- The bytes of a word, the one at the lowest address first (R69). -/
def bytesOfWord (w : Word) : List Byte := [field w 0 8, field w 8 8, field w 16 8, field w 24 8]

/-- Why a byte sequence holds no instruction. Every four bytes hold one (R114), so this is the only reason. -/
inductive DecodeError where
  /-- Fewer than four bytes are left: an instruction is one 32-bit word (R115). -/
  | truncated
deriving DecidableEq, Repr

/-- The instruction at the front of a byte sequence and the bytes after it. -/
def decode : List Byte → Except DecodeError (Instr × List Byte)
  | b0 :: b1 :: b2 :: b3 :: rest => .ok (decodeWord (wordOfBytes b0 b1 b2 b3), rest)
  | _ => .error .truncated

/-- The bits of `b` placed in a word from bit `lo` upwards. -/
def place {n : Nat} (lo : Nat) (b : BitVec n) : Word := b.setWidth 32 <<< lo

/-- One bit placed at bit `i` of a word. -/
def placeBit (i : Nat) (b : Bool) : Word := place i (BitVec.ofBool b)

/-- Bit 25 and bits 11:0 of a data-processing word (R106). -/
def Operand2.bits : Operand2 → Word
  | .imm rot4 imm8 => placeBit 25 true ||| place 8 rot4 ||| place 0 imm8
  | .shiftImm shamt5 type rm => place 7 shamt5 ||| place 5 type.bits ||| place 0 rm.num
  | .shiftReg rs bit7 type rm =>
    place 8 rs.num ||| placeBit 7 bit7 ||| place 5 type.bits ||| placeBit 4 true ||| place 0 rm.num

/-- Bit 25 and bits 11:0 of a single data transfer word (R108). -/
def Offset.bits : Offset → Word
  | .imm imm12 => place 0 imm12
  | .reg shamt5 type rm => placeBit 25 true ||| place 7 shamt5 ||| place 5 type.bits ||| place 0 rm.num

/-- The data-processing format (R106). -/
def encodeDataProcessing (c : Cond) (opc : BitVec 4) (s : Bool) (rn rd : Reg) (op2 : Operand2) : Word :=
  place 28 c.bits ||| place 21 opc ||| placeBit 20 s ||| place 16 rn.num ||| place 12 rd.num ||| op2.bits

/-- The multiply format (R107). -/
def encodeMultiply (c : Cond) (a s : Bool) (rd rn rs rm : Reg) : Word :=
  place 28 c.bits ||| placeBit 21 a ||| placeBit 20 s ||| place 16 rd.num ||| place 12 rn.num |||
    place 8 rs.num ||| place 4 0b1001#4 ||| place 0 rm.num

/-- The single data transfer format (R108). -/
def encodeSingleTransfer (c : Cond) (byte load p u w : Bool) (rn rd : Reg) (off : Offset) : Word :=
  place 28 c.bits ||| place 26 0b01#2 ||| placeBit 24 p ||| placeBit 23 u ||| placeBit 22 byte |||
    placeBit 21 w ||| placeBit 20 load ||| place 16 rn.num ||| place 12 rd.num ||| off.bits

/-- The block data transfer format (R109). -/
def encodeBlockTransfer (c : Cond) (load p u s w : Bool) (rn : Reg) (list : BitVec 16) : Word :=
  place 28 c.bits ||| place 25 0b100#3 ||| placeBit 24 p ||| placeBit 23 u ||| placeBit 22 s |||
    placeBit 21 w ||| placeBit 20 load ||| place 16 rn.num ||| place 0 list

/-- The word of an instruction (R106 to R112). -/
def encode : Instr → Word
  | .mul c s rd rn rs rm => encodeMultiply c false s rd rn rs rm
  | .mla c s rd rn rs rm => encodeMultiply c true s rd rn rs rm
  | .and c s rn rd op2 => encodeDataProcessing c 0 s rn rd op2
  | .eor c s rn rd op2 => encodeDataProcessing c 1 s rn rd op2
  | .sub c s rn rd op2 => encodeDataProcessing c 2 s rn rd op2
  | .rsb c s rn rd op2 => encodeDataProcessing c 3 s rn rd op2
  | .add c s rn rd op2 => encodeDataProcessing c 4 s rn rd op2
  | .adc c s rn rd op2 => encodeDataProcessing c 5 s rn rd op2
  | .sbc c s rn rd op2 => encodeDataProcessing c 6 s rn rd op2
  | .rsc c s rn rd op2 => encodeDataProcessing c 7 s rn rd op2
  | .tst c s rn rd op2 => encodeDataProcessing c 8 s rn rd op2
  | .teq c s rn rd op2 => encodeDataProcessing c 9 s rn rd op2
  | .cmp c s rn rd op2 => encodeDataProcessing c 10 s rn rd op2
  | .cmn c s rn rd op2 => encodeDataProcessing c 11 s rn rd op2
  | .orr c s rn rd op2 => encodeDataProcessing c 12 s rn rd op2
  | .mov c s rn rd op2 => encodeDataProcessing c 13 s rn rd op2
  | .bic c s rn rd op2 => encodeDataProcessing c 14 s rn rd op2
  | .mvn c s rn rd op2 => encodeDataProcessing c 15 s rn rd op2
  | .unimplSdtRegshift c hi lo => place 28 c.bits ||| place 25 0b011#3 ||| place 5 hi ||| placeBit 4 true ||| place 0 lo
  | .ldr c p u w rn rd off => encodeSingleTransfer c false true p u w rn rd off
  | .ldrb c p u w rn rd off => encodeSingleTransfer c true true p u w rn rd off
  | .str c p u w rn rd off => encodeSingleTransfer c false false p u w rn rd off
  | .strb c p u w rn rd off => encodeSingleTransfer c true false p u w rn rd off
  | .ldm c p u s w rn list => encodeBlockTransfer c true p u s w rn list
  | .stm c p u s w rn list => encodeBlockTransfer c false p u s w rn list
  | .b c off24 => place 28 c.bits ||| place 24 0b1010#4 ||| place 0 off24
  | .bl c off24 => place 28 c.bits ||| place 24 0b1011#4 ||| place 0 off24
  | .swi c comment => place 28 c.bits ||| place 24 0b1111#4 ||| place 0 comment
  | .unimplCoprocTransfer c rest => place 28 c.bits ||| place 25 0b110#3 ||| place 0 rest
  | .unimplCoprocOp c rest => place 28 c.bits ||| place 24 0b1110#4 ||| place 0 rest

/-- The instruction the decoder reads from an opcode-table word of `nbits` bits: the bits above are zero, the bytes are
laid out as the hardware stores them and given to `decode`. -/
def decodeTableWord (nbits w : Nat) : Option Instr :=
  match decode (bytesOfWord (BitVec.ofNat 32 (w % 2 ^ nbits))) with
  | .ok (i, _) => some i
  | .error _ => none

end Sys2Proof
end

