-- ==== Sys2Proof/Machine/Flags.lean ====
section
/-! DEFINITION. The adder and every flag computation (spec/40_data_processing.md R130, R137 to R139; spec/41_multiply.md
R180). -/

namespace Sys2Proof.Machine

/-- `AddWithCarry(a, b, c)`: the sum, the carry out of bit 31 and the signed overflow (R137). -/
def addWithCarry (a b : Word) (c : Bool) : Word × Bool × Bool :=
  let usum : Nat := a.toNat + b.toNat + c.toNat
  let ssum : Int := a.toInt + b.toInt + Int.ofNat c.toNat
  (BitVec.ofNat 32 usum, decide (4294967296 ≤ usum), decide (ssum < -2147483648) || decide (2147483647 < ssum))

/-- What the arithmetic unit hands on: the result and, for the arithmetic kind, C and V (R130). -/
inductive AluOut where
  /-- The logical kind: C comes from the shifter, V stays (R138). -/
  | logical (result : Word)
  /-- The arithmetic kind: C and V come from the adder (R139). -/
  | arithmetic (result : Word) (carry overflow : Bool)
deriving DecidableEq, Repr

def AluOut.result : AluOut → Word
  | .logical r => r
  | .arithmetic r _ _ => r

/-- The arithmetic kind from the adder's answer (R137, R139). -/
def AluOut.ofAdder (r : Word × Bool × Bool) : AluOut := .arithmetic r.1 r.2.1 r.2.2

/-- N and Z from a result; the rest unchanged (R138, R139, R180). -/
def Psr.setNZ (p : Psr) (r : Word) : Psr := { p with n := r.msb, z := r == 0 }

/-- The flags a data-processing instruction sets; `sc` is the shifter carry-out (R130, R138, R139). -/
def Psr.setFlags (p : Psr) (out : AluOut) (sc : Bool) : Psr :=
  match out with
  | .logical r => { p.setNZ r with c := sc }
  | .arithmetic r carry overflow => { p.setNZ r with c := carry, v := overflow }

/-- The result column of R130 for each opcode: `op1`, `op2` and the carry-in. -/
def aluAnd (op1 op2 : Word) (_cin : Bool) : AluOut := .logical (op1 &&& op2)

def aluEor (op1 op2 : Word) (_cin : Bool) : AluOut := .logical (op1 ^^^ op2)

def aluSub (op1 op2 : Word) (_cin : Bool) : AluOut := .ofAdder (addWithCarry op1 (~~~op2) true)

def aluRsb (op1 op2 : Word) (_cin : Bool) : AluOut := .ofAdder (addWithCarry op2 (~~~op1) true)

def aluAdd (op1 op2 : Word) (_cin : Bool) : AluOut := .ofAdder (addWithCarry op1 op2 false)

def aluAdc (op1 op2 : Word) (cin : Bool) : AluOut := .ofAdder (addWithCarry op1 op2 cin)

def aluSbc (op1 op2 : Word) (cin : Bool) : AluOut := .ofAdder (addWithCarry op1 (~~~op2) cin)

def aluRsc (op1 op2 : Word) (cin : Bool) : AluOut := .ofAdder (addWithCarry op2 (~~~op1) cin)

def aluOrr (op1 op2 : Word) (_cin : Bool) : AluOut := .logical (op1 ||| op2)

def aluMov (_op1 op2 : Word) (_cin : Bool) : AluOut := .logical op2

def aluBic (op1 op2 : Word) (_cin : Bool) : AluOut := .logical (op1 &&& ~~~op2)

def aluMvn (_op1 op2 : Word) (_cin : Bool) : AluOut := .logical (~~~op2)

/-- `CondPassed(c)` on the flags (R104). -/
def condPassed (c : Cond) (p : Psr) : Bool :=
  match c with
  | .eq => p.z
  | .ne => !p.z
  | .cs => p.c
  | .cc => !p.c
  | .mi => p.n
  | .pl => !p.n
  | .vs => p.v
  | .vc => !p.v
  | .hi => p.c && !p.z
  | .ls => !p.c || p.z
  | .ge => p.n == p.v
  | .lt => p.n != p.v
  | .gt => !p.z && p.n == p.v
  | .le => p.z || p.n != p.v
  | .al => true
  | .nv => false

/-- The 5-bit number of a mode in the 32-bit view, which only the environment sees (R27, R28). -/
def Mode.number : Mode → BitVec 5
  | .usr => 0b10000
  | .fiq => 0b10001
  | .irq => 0b10010
  | .svc => 0b10011

/-- The 32-bit view of a status register: NZCV in bits 31:28, I and F in bits 7:6, the mode in bits 4:0 (R27). No
instruction moves it anywhere. -/
def Psr.view (p : Psr) : Word :=
  BitVec.ofBool p.n ++ BitVec.ofBool p.z ++ BitVec.ofBool p.c ++ BitVec.ofBool p.v ++ 0#20 ++ BitVec.ofBool p.i ++
    BitVec.ofBool p.f ++ 0#1 ++ p.mode.number

end Sys2Proof.Machine
end

