-- ==== Sys2Proof/Machine/Ops.lean ====
section
/-! DEFINITION. The named operations over registers and status registers: register selection, R15, conditional execution,
taking an exception and returning from one (spec/10_state.md, spec/30_encoding.md R100 to R104, spec/60_exceptions.md). -/

namespace Sys2Proof.Machine

/-! ### Registers -/

/-- The physical register that a register number selects in a mode: `Phys(m, i)` of R22. -/
def phys (m : Mode) (i : Reg) : PhysReg :=
  match i, m with
  | .r0, _ => .r0
  | .r1, _ => .r1
  | .r2, _ => .r2
  | .r3, _ => .r3
  | .r4, _ => .r4
  | .r5, _ => .r5
  | .r6, _ => .r6
  | .r7, _ => .r7
  | .r8, .fiq => .r8fiq
  | .r8, _ => .r8usr
  | .r9, .fiq => .r9fiq
  | .r9, _ => .r9usr
  | .r10, .fiq => .r10fiq
  | .r10, _ => .r10usr
  | .r11, .fiq => .r11fiq
  | .r11, _ => .r11usr
  | .r12, .fiq => .r12fiq
  | .r12, _ => .r12usr
  | .r13, .usr => .r13usr
  | .r13, .fiq => .r13fiq
  | .r13, .irq => .r13irq
  | .r13, .svc => .r13svc
  | .r14, .usr => .r14usr
  | .r14, .fiq => .r14fiq
  | .r14, .irq => .r14irq
  | .r14, .svc => .r14svc
  | .r15, _ => .r15

/-- What a physical register stores. -/
def RegFile.get (r : RegFile) : PhysReg → Word
  | .r0 => r.r0
  | .r1 => r.r1
  | .r2 => r.r2
  | .r3 => r.r3
  | .r4 => r.r4
  | .r5 => r.r5
  | .r6 => r.r6
  | .r7 => r.r7
  | .r8usr => r.r8usr
  | .r9usr => r.r9usr
  | .r10usr => r.r10usr
  | .r11usr => r.r11usr
  | .r12usr => r.r12usr
  | .r8fiq => r.r8fiq
  | .r9fiq => r.r9fiq
  | .r10fiq => r.r10fiq
  | .r11fiq => r.r11fiq
  | .r12fiq => r.r12fiq
  | .r13usr => r.r13usr
  | .r14usr => r.r14usr
  | .r13fiq => r.r13fiq
  | .r14fiq => r.r14fiq
  | .r13irq => r.r13irq
  | .r14irq => r.r14irq
  | .r13svc => r.r13svc
  | .r14svc => r.r14svc
  | .r15 => r.r15

/-- The register file with one physical register replaced. Every write to R15, by any rule, keeps only the bits of
PC_MASK (R24). -/
def RegFile.set (r : RegFile) (p : PhysReg) (v : Word) : RegFile :=
  match p with
  | .r0 => { r with r0 := v }
  | .r1 => { r with r1 := v }
  | .r2 => { r with r2 := v }
  | .r3 => { r with r3 := v }
  | .r4 => { r with r4 := v }
  | .r5 => { r with r5 := v }
  | .r6 => { r with r6 := v }
  | .r7 => { r with r7 := v }
  | .r8usr => { r with r8usr := v }
  | .r9usr => { r with r9usr := v }
  | .r10usr => { r with r10usr := v }
  | .r11usr => { r with r11usr := v }
  | .r12usr => { r with r12usr := v }
  | .r8fiq => { r with r8fiq := v }
  | .r9fiq => { r with r9fiq := v }
  | .r10fiq => { r with r10fiq := v }
  | .r11fiq => { r with r11fiq := v }
  | .r12fiq => { r with r12fiq := v }
  | .r13usr => { r with r13usr := v }
  | .r14usr => { r with r14usr := v }
  | .r13fiq => { r with r13fiq := v }
  | .r14fiq => { r with r14fiq := v }
  | .r13irq => { r with r13irq := v }
  | .r14irq => { r with r14irq := v }
  | .r13svc => { r with r13svc := v }
  | .r14svc => { r with r14svc := v }
  | .r15 => { r with r15 := v &&& Config.pcMask }

/-- A write of a physical register. -/
def State.setPhys (s : State) (p : PhysReg) (v : Word) : State := { s with regs := s.regs.set p v }

/-- `pc`: the stored R15 (R6, R23). -/
def State.pc (s : State) : Word := s.regs.r15

/-- `pc <- t` (R6, R24). -/
def State.setPc (s : State) (t : Word) : State := s.setPhys .r15 t

/-- `fetch_pc` during the execution of an instruction. The stored R15 is then `fetch_pc + 4` masked (R26), so the address
fetched from is recovered from it (DEDUCED, log 8). -/
def State.fetchPc (s : State) : Word := (s.pc - 4#32) &&& Config.pcMask

/-- The value of R15 as an operand, in every operand position: `fetch_pc + 8` masked (R25). -/
def State.operandPc (s : State) : Word := (s.fetchPc + 8#32) &&& Config.pcMask

/-- The address of the next instruction, `fetch_pc + 4` masked (R102, R232, R240). -/
def State.nextPc (s : State) : Word := (s.fetchPc + 4#32) &&& Config.pcMask

/-- The value that register number `i` gives in the bank of mode `m`. -/
def State.readIn (s : State) (m : Mode) (i : Reg) : Word :=
  if i = .r15 then s.operandPc else s.regs.get (phys m i)

/-- `x[i]` (R6, R22). -/
def State.readReg (s : State) (i : Reg) : Word := s.readIn s.cpsr.mode i

/-- `x[i] <- v` (R6, R22). -/
def State.writeReg (s : State) (i : Reg) (v : Word) : State := s.setPhys (phys s.cpsr.mode i) v

/-- `xu[i]`: register `i` of the User bank (R6, R22). -/
def State.readUser (s : State) (i : Reg) : Word := s.readIn .usr i

/-- `xu[i] <- v` (R6, R22). -/
def State.writeUser (s : State) (i : Reg) (v : Word) : State := s.setPhys (phys .usr i) v

/-- The advance of R15 before an instruction executes (R26, R102). -/
def State.advance (s : State) : State := s.setPc (s.pc + 4#32)

/-! ### Status registers -/

/-- `SPSR[m]`; User mode has none (R29). -/
def State.spsr (s : State) : Mode → Option Psr
  | .usr => none
  | .fiq => some s.spsrFiq
  | .irq => some s.spsrIrq
  | .svc => some s.spsrSvc

/-- `SPSR[m] <- p`; User mode has none (R29). -/
def State.setSpsr (s : State) (m : Mode) (p : Psr) : State :=
  match m with
  | .usr => s
  | .fiq => { s with spsrFiq := p }
  | .irq => { s with spsrIrq := p }
  | .svc => { s with spsrSvc := p }

/-- A write of the whole CPSR. A mode change moves no register data (R21). -/
def State.setCpsr (s : State) (p : Psr) : State := { s with cpsr := p }

/-- `RestoreCPSR()`: in User mode nothing, else all seven fields from the SPSR of the mode the instruction executes in
(R140). This is the return from an exception (R263, R264). -/
def State.restoreCpsr (s : State) : State :=
  match s.spsr s.cpsr.mode with
  | none => s
  | some p => s.setCpsr p

/-! ### Diagnostics and conditional execution -/

/-- Emission of diagnostic events; no other state changes (R6, R9). -/
def State.emit (s : State) (ds : List Diag) : State := { s with diags := s.diags ++ ds }

/-- An instruction's effect when its condition passes, nothing when it fails (R103). -/
def conditional (c : Cond) (s : State) (effect : State → State) : Host.Outcome State Fault Refusal :=
  .next (if condPassed c s.cpsr then effect s else s)

/-! ### Exceptions -/

/-- The exceptions of the vector table (R250). -/
inductive Exception where
  | reset | undefined | swi | prefetchAbort | dataAbort | irq | fiq
deriving DecidableEq, Repr

/-- The vector address of an exception (R250). Undefined, prefetch abort and data abort are never raised (R261). -/
def Exception.vector : Exception → Word
  | .reset => 0x00
  | .undefined => 0x04
  | .swi => 0x08
  | .prefetchAbort => 0x0C
  | .dataAbort => 0x10
  | .irq => 0x18
  | .fiq => 0x1C

/-- CPSR after an entry into mode `m`: the flags stay, I is set, F is set only for FIQ (R256). -/
def Psr.entered (p : Psr) (m : Mode) (setF : Bool) : Psr := { p with mode := m, i := true, f := p.f || setF }

/-- Exception entry, the common sequence `raise(m, vec, ret, setF)` (R256). -/
def State.raise (s : State) (m : Mode) (vec ret : Word) (setF : Bool) : State :=
  (((s.setSpsr m s.cpsr).setCpsr (s.cpsr.entered m setF)).setPhys (phys m .r14) ret).setPc vec

/-- IRQ entry at the start of a step (R257). The return value is the unmasked 32-bit sum. -/
def State.takeIrq (s : State) : State := s.raise .irq Exception.irq.vector (s.pc + 4#32) false

/-- FIQ entry at the start of a step (R258). -/
def State.takeFiq (s : State) : State := s.raise .fiq Exception.fiq.vector (s.pc + 4#32) true

/-- SWI entry, during the execute phase (R240, R259). -/
def State.takeSwi (s : State) : State := s.raise .svc Exception.swi.vector s.nextPc false

/-- The CPU part of a reset: the event `cpu_reset` (R260, R321). It saves nothing. -/
def cpuReset (s : State) : State :=
  { s with
    regs := RegFile.zero
    cpsr := Psr.reset
    spsrFiq := Psr.savedAtReset
    spsrIrq := Psr.savedAtReset
    spsrSvc := Psr.savedAtReset }

end Sys2Proof.Machine
end

