-- ==== Sys2Proof/Machine/Bus.lean ====
section
/-! DEFINITION. The memory router: the region of an address and the four port operations (spec/20_memory.md R60 to R79),
and the instruction fetch (R73). Reads change no state, so each is a value and a list of diagnostic events (R78). -/

namespace Sys2Proof.Machine

/-- The regions of the decode order (R62). -/
inductive Region where
  | lowMirror | altMirror | ram | ioc | vidc | rom | unmapped
deriving DecidableEq, Repr

/-- Every address is first reduced to 26 bits (R61). -/
def busAddr (addr : Word) : Nat := (addr &&& Config.addrMask).toNat

/-- The aligned word that contains an address: `aw = a & ~3` (R70, R71). -/
def alignedAddr (addr : Word) : Nat := busAddr addr / 4 * 4

/-- The region of a masked address; the first matching range wins (R62). -/
def State.region (s : State) (a : Nat) : Region :=
  if s.isBootMode = true ∧ a < Config.lowMirrorEnd then .lowMirror
  else if Config.altMirrorBase ≤ a ∧ a < Config.altMirrorEnd then .altMirror
  else if a < s.params.ramSize then .ram
  else if Config.iocBase ≤ a ∧ a < Config.vidcBase then .ioc
  else if Config.vidcBase ≤ a ∧ a < Config.ioEnd then .vidc
  else if s.params.romBase ≤ a ∧ a < s.params.romBase + Config.romSize then .rom
  else .unmapped

/-- The word `ror32(v, n)` of R5. -/
def ror32 (v : Word) (n : Nat) : Word := v.rotateRight n

/-- The register offset `k = (a - BASE) >> 2` of a device address (R66, R76). BASE is a multiple of the device's size, so
the remainder is `a - BASE`; `deviceOffset_ioc` and `deviceOffset_vidc` of Laws/Bus.lean prove it. -/
def deviceOffset (a : Nat) : Nat := a % Config.deviceSize / 4

/-- The offset in ROM_IMAGE that an address of a ROM region shows (R63, R64, R67). The base of ALT_MIRROR is a multiple of
ROM_SIZE, so `(a - 0x02000000) mod ROM_SIZE` is `a mod ROM_SIZE`; `romOffset_altMirror` of Laws/Bus.lean proves it. -/
def State.romOffset (s : State) (r : Region) (a : Nat) : Nat :=
  match r with
  | .rom => a - s.params.romBase
  | _ => a % Config.romSize

/-- The register a device address reads as, zero-extended to 32 bits (R76). -/
def State.deviceRead (s : State) (r : Region) (a : Nat) : Option Word :=
  match r with
  | .ioc => (s.ioc.read (deviceOffset a)).map (BitVec.setWidth 32)
  | .vidc => vidcRead s.vidc (deviceOffset a)
  | _ => none

/-- The aligned word at a masked address; `none` is an invalid data access (R70). -/
def State.busWord (s : State) (aw : Nat) : Option Word :=
  match s.region aw with
  | .ram => some (s.ram.readWord aw)
  | .lowMirror => some (s.rom.readWord (s.romOffset .lowMirror aw))
  | .altMirror => some (s.rom.readWord (s.romOffset .altMirror aw))
  | .rom => some (s.rom.readWord (s.romOffset .rom aw))
  | .ioc => s.deviceRead .ioc aw
  | .vidc => s.deviceRead .vidc aw
  | .unmapped => none

/-- The byte at a masked address; `none` is an invalid data access (R74). -/
def State.busByte (s : State) (a : Nat) : Option Byte :=
  match s.region a with
  | .ram => some (s.ram.read a)
  | .lowMirror => some (s.rom.read (s.romOffset .lowMirror a))
  | .altMirror => some (s.rom.read (s.romOffset .altMirror a))
  | .rom => some (s.rom.read (s.romOffset .rom a))
  | .ioc => (s.deviceRead .ioc a).map (BitVec.setWidth 8)
  | .vidc => (s.deviceRead .vidc a).map (BitVec.setWidth 8)
  | .unmapped => none

/-- The value of `read_word(addr)`: the aligned word rotated so that the addressed byte is in bits 7:0 (R70). -/
def State.readWord (s : State) (addr : Word) : Word :=
  ror32 ((s.busWord (alignedAddr addr)).getD Config.sentinel) (8 * (busAddr addr % 4))

/-- The diagnostic events of `read_word(addr)` (R68, R70, R276, R287). -/
def State.readWordDiags (s : State) (addr : Word) : List Diag :=
  match s.busWord (alignedAddr addr) with
  | some _ => []
  | none => [.invalidRead (addr &&& Config.addrMask)]

/-- The value of `read_byte(addr)` (R74). -/
def State.readByte (s : State) (addr : Word) : Byte := (s.busByte (busAddr addr)).getD 0xFF

/-- The diagnostic events of `read_byte(addr)` (R68, R74). -/
def State.readByteDiags (s : State) (addr : Word) : List Diag :=
  match s.busByte (busAddr addr) with
  | some _ => []
  | none => [.invalidRead (addr &&& Config.addrMask)]

/-- `device_write(k, v)` and the diagnostic of a dropped one; `addr` is the address of the access (R71, R75, R76). -/
def State.deviceWrite (s : State) (r : Region) (a : Nat) (addr v : Word) : State :=
  match r with
  | .ioc =>
    match s.ioc.write (deviceOffset a) (v.setWidth 8) with
    | some d => { s with ioc := d }
    | none => s.emit [.invalidWrite (addr &&& Config.addrMask) v]
  | .vidc =>
    match vidcWrite s.vidc (deviceOffset a) v with
    | some d => { s with vidc := d }
    | none => s.emit [.invalidWrite (addr &&& Config.addrMask) v]
  | _ => s

/-- What `write_word(addr, v)` does at the region of the aligned address: bits 1:0 of the address are ignored (R71). -/
def State.storeWord (s : State) (addr v : Word) : State :=
  match s.region (alignedAddr addr) with
  | .ram => { s with ram := s.ram.writeWord (alignedAddr addr) v }
  | .ioc => s.deviceWrite .ioc (alignedAddr addr) addr v
  | .vidc => s.deviceWrite .vidc (alignedAddr addr) addr v
  | .lowMirror => s.emit [.romWrite (addr &&& Config.addrMask) v]
  | .altMirror => s.emit [.romWrite (addr &&& Config.addrMask) v]
  | .rom => s.emit [.romWrite (addr &&& Config.addrMask) v]
  | .unmapped => s.emit [.invalidWrite (addr &&& Config.addrMask) v]

/-- What `write_byte(addr, b)` does at the region of the address (R75). -/
def State.storeByte (s : State) (addr : Word) (b : Byte) : State :=
  match s.region (busAddr addr) with
  | .ram => { s with ram := s.ram.write (busAddr addr) b }
  | .ioc => s.deviceWrite .ioc (busAddr addr) addr (b.setWidth 32)
  | .vidc => s.deviceWrite .vidc (busAddr addr) addr (b.setWidth 32)
  | .lowMirror => s.emit [.romWrite (addr &&& Config.addrMask) (b.setWidth 32)]
  | .altMirror => s.emit [.romWrite (addr &&& Config.addrMask) (b.setWidth 32)]
  | .rom => s.emit [.romWrite (addr &&& Config.addrMask) (b.setWidth 32)]
  | .unmapped => s.emit [.invalidWrite (addr &&& Config.addrMask) (b.setWidth 32)]

/-- A store reaches RAM, the two devices and the diagnostic port, and nothing else of the machine (R62). -/
def State.storing (s stored : State) : State :=
  { s with ram := stored.ram, ioc := stored.ioc, vidc := stored.vidc, diags := stored.diags }

/-- A word write at MEMC_BOOT_LATCH_ADDR ends boot mode; nothing begins it again but `power_on` (R72). -/
def State.latchBoot (s : State) (aw : Nat) : State :=
  { s with isBootMode := s.isBootMode && !(aw == s.params.bootLatch) }

/-- `write_word(addr, v)`, decoded with `is_boot_mode` as it was before the write (R71). -/
def State.writeWord (s : State) (addr v : Word) : State :=
  (s.storing (s.storeWord addr v)).latchBoot (alignedAddr addr)

/-- `write_byte(addr, b)`: never ends boot mode (R72, R75). -/
def State.writeByte (s : State) (addr : Word) (b : Byte) : State := s.storing (s.storeByte addr b)

/-- The word an instruction fetch reads: `read_word(R15 & 0x03FFFFFC)` (R73, R101). -/
def State.fetchWord (s : State) : Word := s.readWord (s.pc &&& Config.pcMask)

/-- `irq_line` and `CPSR.I = 0` (R252). -/
def State.irqPending (s : State) : Bool := s.ioc.irqLine && !s.cpsr.i

/-- `fiq_line` and `CPSR.F = 0` (R253). -/
def State.fiqPending (s : State) : Bool := s.ioc.fiqLine && !s.cpsr.f

/-- The exception a step enters before it fetches: FIQ is tested first (R100, R254). -/
def State.takesException (s : State) : Option Exception :=
  if s.fiqPending then some .fiq else if s.irqPending then some .irq else none

/-- The state after the exception a step enters (R100, R257, R258). -/
def State.enterPending (s : State) : Option State :=
  match s.takesException with
  | some .fiq => some s.takeFiq
  | some .irq => some s.takeIrq
  | _ => none

/-- The state with a word put behind the fetch of address `a`: in RAM, or in the ROM image where the address shows ROM.
It stands for loading a program from outside; no event of the machine does it (log 1). -/
def State.placeCode (s : State) (a : Nat) (v : Word) : State :=
  match s.region a with
  | .ram => { s with ram := s.ram.writeWord a v }
  | .lowMirror => { s with rom := s.rom.writeWord (s.romOffset .lowMirror a) v }
  | .altMirror => { s with rom := s.rom.writeWord (s.romOffset .altMirror a) v }
  | .rom => { s with rom := s.rom.writeWord (s.romOffset .rom a) v }
  | .ioc => s
  | .vidc => s
  | .unmapped => s

/-- A fetch address that a program can be loaded behind: R15 itself where it lies in RAM or shows ROM, else 0. -/
def State.codeAddr (s : State) : Nat :=
  let a := busAddr (s.pc &&& Config.pcMask)
  match s.region a with
  | .ram => a
  | .lowMirror => a
  | .altMirror => a
  | .rom => a
  | .ioc => 0
  | .vidc => 0
  | .unmapped => 0

/-- The state with the interrupts that would be taken at the next step masked. -/
def State.maskPending (s : State) : State :=
  s.setCpsr { s.cpsr with i := s.cpsr.i || s.irqPending, f := s.cpsr.f || s.fiqPending }

end Sys2Proof.Machine
end

