-- ==== Sys2Proof/Machine/Operands.lean ====
section
/-! DEFINITION. Every operand form: the barrel shifter and Operand2 (spec/40_data_processing.md R131 to R136), transfer
offsets and effective addresses (spec/42_single_data_transfer.md R190, R191), block addresses (spec/43_block_data_transfer.md
R210, R211), branch targets (spec/44_branch.md R230). -/

namespace Sys2Proof.Machine

/-- A shift by `n` in 1..31 and the last bit shifted out (R134). -/
def shiftBy (type : ShiftType) (v : Word) (n : Nat) : Word × Bool :=
  match type with
  | .lsl => (v <<< n, v.getLsbD (32 - n))
  | .lsr => (v >>> n, v.getLsbD (n - 1))
  | .asr => (v.sshiftRight n, v.getLsbD (n - 1))
  | .ror => (ror32 v n, v.getLsbD (n - 1))

/-- The sign of a word in all its bits (R132, R135). -/
def signFill (v : Word) : Word := if v.msb then 0xFFFFFFFF#32 else 0#32

/-- RRX: rotate right by 1 through carry (R136). -/
def rrx (v : Word) (cin : Bool) : Word × Bool := (BitVec.ofBool cin ++ v.extractLsb' 1 31, v.getLsbD 0)

/-- A shift by the amount field of the instruction; the amount 0 has a meaning of its own per type (R132). -/
def shiftImmediate (type : ShiftType) (v : Word) (n : Nat) (cin : Bool) : Word × Bool :=
  if n = 0 then
    match type with
    | .lsl => (v, cin)
    | .lsr => (0, v.msb)
    | .asr => (signFill v, v.msb)
    | .ror => rrx v cin
  else shiftBy type v n

/-- A shift by 32 to 255, register form only (R135). -/
def shiftFar (type : ShiftType) (v : Word) (n : Nat) : Word × Bool :=
  match type with
  | .lsl => (0, if n = 32 then v.getLsbD 0 else false)
  | .lsr => (0, if n = 32 then v.msb else false)
  | .asr => (signFill v, v.msb)
  | .ror => if n % 32 = 0 then (v, v.msb) else shiftBy .ror v (n % 32)

/-- A shift by the low byte of a register; the amount 0 changes nothing whatever the type (R133). -/
def shiftRegister (type : ShiftType) (v : Word) (n : Nat) (cin : Bool) : Word × Bool :=
  if n = 0 then (v, cin) else if n ≤ 31 then shiftBy type v n else shiftFar type v n

/-- The rotated immediate and its carry-out (R131). -/
def rotatedImmediate (rot4 : BitVec 4) (imm8 : BitVec 8) (cin : Bool) : Word × Bool :=
  let op2 := ror32 (imm8.setWidth 32) (2 * rot4.toNat)
  (op2, if rot4 = 0 then cin else op2.msb)

/-- Operand2 and the shifter carry-out, with the carry-in `CPSR.C` (R130 to R136). -/
def State.operand2 (s : State) : Operand2 → Word × Bool
  | .imm rot4 imm8 => rotatedImmediate rot4 imm8 s.cpsr.c
  | .shiftImm shamt5 type rm => shiftImmediate type (s.readReg rm) shamt5.toNat s.cpsr.c
  | .shiftReg rs _ type rm =>
    shiftRegister type (s.readReg rm) ((s.readReg rs).extractLsb' 0 8).toNat s.cpsr.c

/-- The offset of a single data transfer; the shifter carry-out is discarded (R191). -/
def State.transferOffset (s : State) : Offset → Word
  | .imm imm12 => imm12.setWidth 32
  | .reg shamt5 type rm => (shiftImmediate type (s.readReg rm) shamt5.toNat s.cpsr.c).1

/-- `eff`: the base plus or minus the offset (R190). -/
def State.effective (s : State) (u : Bool) (rn : Reg) (off : Offset) : Word :=
  if u then s.readReg rn + s.transferOffset off else s.readReg rn - s.transferOffset off

/-- `addr`: the address handed to the router, `eff` when P = 1, the base when P = 0 (R190). -/
def State.transferAddr (s : State) (p u : Bool) (rn : Reg) (off : Offset) : Word :=
  if p then s.effective u rn off else s.readReg rn

/-- The registers of a list in ascending order of their numbers (R210). -/
def allRegs : List Reg :=
  [.r0, .r1, .r2, .r3, .r4, .r5, .r6, .r7, .r8, .r9, .r10, .r11, .r12, .r13, .r14, .r15]

/-- Bit i of the list field is set (R109). -/
def inList (list : BitVec 16) (i : Reg) : Bool := list.getLsbD i.num.toNat

def listedRegs (list : BitVec 16) : List Reg := allRegs.filter (inList list)

/-- `4 * n`, the bytes a block transfer moves (R210). -/
def blockBytes (list : BitVec 16) : Word := BitVec.ofNat 32 (4 * (listedRegs list).length)

/-- The address of the lowest word of the block (R211). -/
def blockStart (p u : Bool) (base : Word) (list : BitVec 16) : Word :=
  match p, u with
  | false, true => base
  | true, true => base + 4#32
  | false, false => base - blockBytes list + 4#32
  | true, false => base - blockBytes list

/-- `new_base` (R210, R211). -/
def blockNewBase (u : Bool) (base : Word) (list : BitVec 16) : Word :=
  if u then base + blockBytes list else base - blockBytes list

/-- The branch target before the mask of the R15 write (R230). -/
def State.branchTarget (s : State) (off24 : BitVec 24) : Word := s.fetchPc + 8#32 + (off24.signExtend 32 <<< 2)

end Sys2Proof.Machine
end

