-- ==== Sys2Proof/Machine/BlockTransfer.lean ====
section
/-! DEFINITION. The block data transfers (spec/43_block_data_transfer.md R210 to R215). -/

namespace Sys2Proof.Machine

/-- The loads of a block transfer: one word per register, ascending addresses, each in its bank (R210). -/
def loadBlock (userBank : Bool) : List Reg → Word → State → State
  | [], _, st => st
  | i :: rest, addr, st =>
    let loaded := st.emit (st.readWordDiags addr)
    let v := st.readWord addr
    loadBlock userBank rest (addr + 4#32) (if userBank then loaded.writeUser i v else loaded.writeReg i v)

/-- The stores of a block transfer (R210). -/
def storeBlock (userBank : Bool) : List Reg → Word → State → State
  | [], _, st => st
  | i :: rest, addr, st =>
    storeBlock userBank rest (addr + 4#32) (st.writeWord addr (if userBank then st.readUser i else st.readReg i))

/-- The write-back of a block transfer, after all transfers, in the current mode's bank (R210). -/
def State.blockWriteBack (st : State) (w : Bool) (rn : Reg) (newBase : Word) : State :=
  if w then st.writeReg rn newBase else st

/-- LDM: S = 1 restores CPSR last when R15 is in the list and loads the User bank otherwise (R210, R212, R214). -/
def blockLoad (p u s w : Bool) (rn : Reg) (list : BitVec 16) (st : State) : State :=
  let base := st.readReg rn
  let restores := s && inList list .r15
  let loaded := loadBlock (s && !inList list .r15) (listedRegs list) (blockStart p u base list) st
  let based := loaded.blockWriteBack w rn (blockNewBase u base list)
  if restores then based.restoreCpsr else based

/-- STM: S = 1 stores the User bank (R210, R213, R214). -/
def blockStore (p u s w : Bool) (rn : Reg) (list : BitVec 16) (st : State) : State :=
  let base := st.readReg rn
  (storeBlock s (listedRegs list) (blockStart p u base list) st).blockWriteBack w rn (blockNewBase u base list)

/-- R212. -/
def execLdm (c : Cond) (p u s w : Bool) (rn : Reg) (list : BitVec 16) (st : State) :
    Host.Outcome State Fault Refusal :=
  conditional c st (blockLoad p u s w rn list)

/-- R213. -/
def execStm (c : Cond) (p u s w : Bool) (rn : Reg) (list : BitVec 16) (st : State) :
    Host.Outcome State Fault Refusal :=
  conditional c st (blockStore p u s w rn list)

end Sys2Proof.Machine
end

