-- ==== Sys2Proof/Machine/Branch.lean ====
section
/-! DEFINITION. The branches (spec/44_branch.md R230 to R232). -/

namespace Sys2Proof.Machine

/-- R231. -/
def execB (c : Cond) (off24 : BitVec 24) (st : State) : Host.Outcome State Fault Refusal :=
  conditional c st fun t => t.setPc (t.branchTarget off24)

/-- R232: the link value is computed before R15 is written (R230). -/
def execBl (c : Cond) (off24 : BitVec 24) (st : State) : Host.Outcome State Fault Refusal :=
  conditional c st fun t => (t.writeReg .r14 t.nextPc).setPc (t.branchTarget off24)

end Sys2Proof.Machine
end

