-- ==== Sys2Proof/Machine/DataProcessing.lean ====
section
/-! DEFINITION. The sixteen data-processing instructions (spec/40_data_processing.md R130, R140, R142 to R157). -/

namespace Sys2Proof.Machine

/-- The common algorithm of R130: all operands are read first, then the flags are written, then Rd, then CPSR is restored
when the Rd field is 15 and S = 1 (R140). `testOnly` marks the opcodes 8 to 11, which always set flags and never write Rd. -/
def dataProcessing (alu : Word → Word → Bool → AluOut) (testOnly : Bool) (s : Bool) (rn rd : Reg) (op2 : Operand2)
    (st : State) : State :=
  let operand := st.operand2 op2
  let out := alu (st.readReg rn) operand.1 st.cpsr.c
  let flagged := if s || testOnly then st.setCpsr (st.cpsr.setFlags out operand.2) else st
  let written := if testOnly then flagged else flagged.writeReg rd out.result
  if rd = .r15 ∧ s = true then written.restoreCpsr else written

/-- R142. -/
def execAnd (c : Cond) (s : Bool) (rn rd : Reg) (op2 : Operand2) (st : State) : Host.Outcome State Fault Refusal :=
  conditional c st (dataProcessing aluAnd false s rn rd op2)

/-- R143. -/
def execEor (c : Cond) (s : Bool) (rn rd : Reg) (op2 : Operand2) (st : State) : Host.Outcome State Fault Refusal :=
  conditional c st (dataProcessing aluEor false s rn rd op2)

/-- R144. -/
def execSub (c : Cond) (s : Bool) (rn rd : Reg) (op2 : Operand2) (st : State) : Host.Outcome State Fault Refusal :=
  conditional c st (dataProcessing aluSub false s rn rd op2)

/-- R145. -/
def execRsb (c : Cond) (s : Bool) (rn rd : Reg) (op2 : Operand2) (st : State) : Host.Outcome State Fault Refusal :=
  conditional c st (dataProcessing aluRsb false s rn rd op2)

/-- R146. -/
def execAdd (c : Cond) (s : Bool) (rn rd : Reg) (op2 : Operand2) (st : State) : Host.Outcome State Fault Refusal :=
  conditional c st (dataProcessing aluAdd false s rn rd op2)

/-- R147. -/
def execAdc (c : Cond) (s : Bool) (rn rd : Reg) (op2 : Operand2) (st : State) : Host.Outcome State Fault Refusal :=
  conditional c st (dataProcessing aluAdc false s rn rd op2)

/-- R148. -/
def execSbc (c : Cond) (s : Bool) (rn rd : Reg) (op2 : Operand2) (st : State) : Host.Outcome State Fault Refusal :=
  conditional c st (dataProcessing aluSbc false s rn rd op2)

/-- R149. -/
def execRsc (c : Cond) (s : Bool) (rn rd : Reg) (op2 : Operand2) (st : State) : Host.Outcome State Fault Refusal :=
  conditional c st (dataProcessing aluRsc false s rn rd op2)

/-- R150. -/
def execTst (c : Cond) (s : Bool) (rn rd : Reg) (op2 : Operand2) (st : State) : Host.Outcome State Fault Refusal :=
  conditional c st (dataProcessing aluAnd true s rn rd op2)

/-- R151. -/
def execTeq (c : Cond) (s : Bool) (rn rd : Reg) (op2 : Operand2) (st : State) : Host.Outcome State Fault Refusal :=
  conditional c st (dataProcessing aluEor true s rn rd op2)

/-- R152. -/
def execCmp (c : Cond) (s : Bool) (rn rd : Reg) (op2 : Operand2) (st : State) : Host.Outcome State Fault Refusal :=
  conditional c st (dataProcessing aluSub true s rn rd op2)

/-- R153. -/
def execCmn (c : Cond) (s : Bool) (rn rd : Reg) (op2 : Operand2) (st : State) : Host.Outcome State Fault Refusal :=
  conditional c st (dataProcessing aluAdd true s rn rd op2)

/-- R154. -/
def execOrr (c : Cond) (s : Bool) (rn rd : Reg) (op2 : Operand2) (st : State) : Host.Outcome State Fault Refusal :=
  conditional c st (dataProcessing aluOrr false s rn rd op2)

/-- R155. -/
def execMov (c : Cond) (s : Bool) (rn rd : Reg) (op2 : Operand2) (st : State) : Host.Outcome State Fault Refusal :=
  conditional c st (dataProcessing aluMov false s rn rd op2)

/-- R156. -/
def execBic (c : Cond) (s : Bool) (rn rd : Reg) (op2 : Operand2) (st : State) : Host.Outcome State Fault Refusal :=
  conditional c st (dataProcessing aluBic false s rn rd op2)

/-- R157. -/
def execMvn (c : Cond) (s : Bool) (rn rd : Reg) (op2 : Operand2) (st : State) : Host.Outcome State Fault Refusal :=
  conditional c st (dataProcessing aluMvn false s rn rd op2)

end Sys2Proof.Machine
end

