-- ==== Sys2Proof/Machine/Multiply.lean ====
section
/-! DEFINITION. The multiply instructions (spec/41_multiply.md R180 to R182). -/

namespace Sys2Proof.Machine

/-- The multiply unit: the low 32 bits of the product plus the accumulator; N and Z only when S = 1; Rd = 15 restores
nothing (R180). -/
def multiply (acc : Word) (s : Bool) (rd rs rm : Reg) (st : State) : State :=
  let result := BitVec.ofNat 32 ((st.readReg rm).toNat * (st.readReg rs).toNat + acc.toNat)
  let flagged := if s then st.setCpsr (st.cpsr.setNZ result) else st
  flagged.writeReg rd result

/-- R181. The field Rn is not read. -/
def execMul (c : Cond) (s : Bool) (rd _rn rs rm : Reg) (st : State) : Host.Outcome State Fault Refusal :=
  conditional c st (multiply 0 s rd rs rm)

/-- R182. -/
def execMla (c : Cond) (s : Bool) (rd rn rs rm : Reg) (st : State) : Host.Outcome State Fault Refusal :=
  conditional c st (multiply (st.readReg rn) s rd rs rm)

end Sys2Proof.Machine
end

