-- ==== Sys2Proof/Machine/SingleTransfer.lean ====
section
/-! DEFINITION. The single data transfers (spec/42_single_data_transfer.md R190 to R196). -/

namespace Sys2Proof.Machine

/-- The base write-back, after the transfer: when P = 0 or W = 1 (R190). -/
def State.writeBack (st : State) (p w : Bool) (rn : Reg) (eff : Word) : State :=
  if p = false ∨ w = true then st.writeReg rn eff else st

/-- Address, transfer, write-back, in that order; the addresses are computed from the state before the transfer (R190). -/
def singleTransfer (transfer : Word → State → State) (p u w : Bool) (rn : Reg) (off : Offset) (st : State) : State :=
  (transfer (st.transferAddr p u rn off) st).writeBack p w rn (st.effective u rn off)

/-- `x[rd] <- MemRead(addr, 4)` (R192). -/
def loadWord (rd : Reg) (addr : Word) (st : State) : State :=
  (st.emit (st.readWordDiags addr)).writeReg rd (st.readWord addr)

/-- `x[rd] <- zext_8(MemRead(addr, 1))` (R193). -/
def loadByte (rd : Reg) (addr : Word) (st : State) : State :=
  (st.emit (st.readByteDiags addr)).writeReg rd ((st.readByte addr).setWidth 32)

/-- `MemWrite(addr, 4, x[rd])` (R194). -/
def storeRegWord (rd : Reg) (addr : Word) (st : State) : State := st.writeWord addr (st.readReg rd)

/-- `MemWrite(addr, 1, x[rd][7:0])` (R195). -/
def storeRegByte (rd : Reg) (addr : Word) (st : State) : State :=
  st.writeByte addr ((st.readReg rd).extractLsb' 0 8)

/-- R192. -/
def execLdr (c : Cond) (p u w : Bool) (rn rd : Reg) (off : Offset) (st : State) : Host.Outcome State Fault Refusal :=
  conditional c st (singleTransfer (loadWord rd) p u w rn off)

/-- R193. -/
def execLdrb (c : Cond) (p u w : Bool) (rn rd : Reg) (off : Offset) (st : State) : Host.Outcome State Fault Refusal :=
  conditional c st (singleTransfer (loadByte rd) p u w rn off)

/-- R194. -/
def execStr (c : Cond) (p u w : Bool) (rn rd : Reg) (off : Offset) (st : State) : Host.Outcome State Fault Refusal :=
  conditional c st (singleTransfer (storeRegWord rd) p u w rn off)

/-- R195. -/
def execStrb (c : Cond) (p u w : Bool) (rn rd : Reg) (off : Offset) (st : State) : Host.Outcome State Fault Refusal :=
  conditional c st (singleTransfer (storeRegByte rd) p u w rn off)

end Sys2Proof.Machine
end

