-- ==== Sys2Proof/Machine/System.lean ====
section
/-! DEFINITION. The software interrupt and the Unimplemented encodings (spec/45_swi_and_unimplemented.md R240 to R243). -/

namespace Sys2Proof.Machine

/-- R240. The comment field is ignored. -/
def execSwi (c : Cond) (_comment : BitVec 24) (st : State) : Host.Outcome State Fault Refusal :=
  conditional c st State.takeSwi

/-- An Unimplemented instruction emits a diagnostic with its address and its word and does nothing else (R242). -/
def unimplemented (i : Instr) (st : State) : State := st.emit [.unimplemented st.fetchPc (encode i)]

/-- R243, dispatch row 3a. -/
def execUnimplSdtRegshift (c : Cond) (hi : BitVec 20) (lo : BitVec 4) (st : State) :
    Host.Outcome State Fault Refusal :=
  conditional c st (unimplemented (.unimplSdtRegshift c hi lo))

/-- R243, bits 27:25 = 110. -/
def execUnimplCoprocTransfer (c : Cond) (rest : BitVec 25) (st : State) : Host.Outcome State Fault Refusal :=
  conditional c st (unimplemented (.unimplCoprocTransfer c rest))

/-- R243, bits 27:24 = 1110. -/
def execUnimplCoprocOp (c : Cond) (rest : BitVec 24) (st : State) : Host.Outcome State Fault Refusal :=
  conditional c st (unimplemented (.unimplCoprocOp c rest))

end Sys2Proof.Machine
end

