-- ==== Sys2Proof/Machine/Dispatch.lean ====
section
/-! DEFINITION. The meaning of every instruction, one arm per row of spec/opcode_table.json. -/

namespace Sys2Proof.Machine

def exec (i : Instr) (s : State) : Host.Outcome State Fault Refusal :=
  match i with
  | .mul c f rd rn rs rm => Sys2Proof.Machine.execMul c f rd rn rs rm s
  | .mla c f rd rn rs rm => Sys2Proof.Machine.execMla c f rd rn rs rm s
  | .and c f rn rd op2 => Sys2Proof.Machine.execAnd c f rn rd op2 s
  | .eor c f rn rd op2 => Sys2Proof.Machine.execEor c f rn rd op2 s
  | .sub c f rn rd op2 => Sys2Proof.Machine.execSub c f rn rd op2 s
  | .rsb c f rn rd op2 => Sys2Proof.Machine.execRsb c f rn rd op2 s
  | .add c f rn rd op2 => Sys2Proof.Machine.execAdd c f rn rd op2 s
  | .adc c f rn rd op2 => Sys2Proof.Machine.execAdc c f rn rd op2 s
  | .sbc c f rn rd op2 => Sys2Proof.Machine.execSbc c f rn rd op2 s
  | .rsc c f rn rd op2 => Sys2Proof.Machine.execRsc c f rn rd op2 s
  | .tst c f rn rd op2 => Sys2Proof.Machine.execTst c f rn rd op2 s
  | .teq c f rn rd op2 => Sys2Proof.Machine.execTeq c f rn rd op2 s
  | .cmp c f rn rd op2 => Sys2Proof.Machine.execCmp c f rn rd op2 s
  | .cmn c f rn rd op2 => Sys2Proof.Machine.execCmn c f rn rd op2 s
  | .orr c f rn rd op2 => Sys2Proof.Machine.execOrr c f rn rd op2 s
  | .mov c f rn rd op2 => Sys2Proof.Machine.execMov c f rn rd op2 s
  | .bic c f rn rd op2 => Sys2Proof.Machine.execBic c f rn rd op2 s
  | .mvn c f rn rd op2 => Sys2Proof.Machine.execMvn c f rn rd op2 s
  | .unimplSdtRegshift c hi lo => Sys2Proof.Machine.execUnimplSdtRegshift c hi lo s
  | .ldr c p u w rn rd off => Sys2Proof.Machine.execLdr c p u w rn rd off s
  | .ldrb c p u w rn rd off => Sys2Proof.Machine.execLdrb c p u w rn rd off s
  | .str c p u w rn rd off => Sys2Proof.Machine.execStr c p u w rn rd off s
  | .strb c p u w rn rd off => Sys2Proof.Machine.execStrb c p u w rn rd off s
  | .ldm c p u f w rn list => Sys2Proof.Machine.execLdm c p u f w rn list s
  | .stm c p u f w rn list => Sys2Proof.Machine.execStm c p u f w rn list s
  | .b c off24 => Sys2Proof.Machine.execB c off24 s
  | .bl c off24 => Sys2Proof.Machine.execBl c off24 s
  | .swi c comment => Sys2Proof.Machine.execSwi c comment s
  | .unimplCoprocTransfer c rest => Sys2Proof.Machine.execUnimplCoprocTransfer c rest s
  | .unimplCoprocOp c rest => Sys2Proof.Machine.execUnimplCoprocOp c rest s

end Sys2Proof.Machine
end

