-- ==== Sys2Proof/Machine/Step.lean ====
section
/-! DEFINITION. One CPU step (spec/30_encoding.md R100) and the placing of one instruction where it fetches. -/

namespace Sys2Proof.Machine

/-- One CPU step: the exception check, the fetch, the advance, then the instruction with its condition (R100 to R105).
The diagnostic events of the step before are dropped first, so `diags` afterwards is this step's list (R9, log 7). -/
def step (s : State) : Host.Outcome State Fault Refusal :=
  let start : State := { s with diags := [] }
  match start.enterPending with
  | some entered => .next entered
  | none =>
    if start.fetchWord = Config.sentinel then .fault (.invalidPC start.pc)
    else exec (decodeWord start.fetchWord) start.advance

/-- The state in which the next step fetches and runs the instruction whose bits are `w` (log 1): the word is put behind the
fetch of R15, or of address 0 where R15 shows neither RAM nor ROM, and an interrupt that would be taken first is masked.
At `State.reset` only the ROM image changes. The word 0xFFFFFFFF never runs (R101). -/
def State.withFetchWord (s : State) (nbits w : Nat) : State :=
  let masked := s.maskPending
  let placed := masked.placeCode masked.codeAddr (BitVec.ofNat 32 (w % 2 ^ nbits))
  placed.setPc (BitVec.ofNat 32 masked.codeAddr)

end Sys2Proof.Machine
end

