-- ==== Sys2Proof/Machine/Environment.lean ====
section
/-! DEFINITION. The input events of the block and the reference environment (spec/00_scope.md R7, R8;
spec/60_exceptions.md R281, R285, R286; spec/70_reset_and_hazards.md R320, R321, R336). Every event falls between two CPU
steps, in any order the environment chooses (log 1). -/

namespace Sys2Proof.Machine

/-- The event `ioc_tick(n)` (R281). -/
def iocTick (n : Nat) (s : State) : State := { s with ioc := s.ioc.tick n }

/-- The event `vflyback` (R285). -/
def vflyback (s : State) : State := { s with ioc := { s.ioc with irqA := s.ioc.irqA.request1 flybackBit } }

/-- The banks `ioc_assert` can name (R286). -/
inductive BankName where
  | bankA | bankB | bankFiq
deriving DecidableEq, Repr

/-- The event `ioc_assert(bank, bits)` (R286). -/
def iocAssert (bank : BankName) (bits : BitVec 8) (s : State) : State :=
  match bank with
  | .bankA => { s with ioc := { s.ioc with irqA := s.ioc.irqA.request1 bits } }
  | .bankB => { s with ioc := { s.ioc with irqB := s.ioc.irqB.request1 bits } }
  | .bankFiq => { s with ioc := { s.ioc with fiq := s.ioc.fiq.request1 bits } }

/-- The input events (R8). -/
inductive Event where
  /-- R320, with its inputs. -/
  | powerOn (params : Config.Params) (romImage : Memory)
  /-- R321. -/
  | cpuReset
  /-- R100. -/
  | step
  /-- R281. -/
  | iocTick (n : Nat)
  /-- R285. -/
  | vflyback
  /-- R286. -/
  | iocAssert (bank : BankName) (bits : BitVec 8)
deriving DecidableEq, Repr

/-- One event. Only a CPU step can end in another outcome than a next state (R9). -/
def applyEvent (e : Event) (s : State) : Host.Outcome State Fault Refusal :=
  match e with
  | .powerOn params romImage => .next (Sys2Proof.Machine.powerOn params romImage)
  | .cpuReset => .next (Sys2Proof.Machine.cpuReset s)
  | .step => Sys2Proof.Machine.step s
  | .iocTick n => .next (Sys2Proof.Machine.iocTick n s)
  | .vflyback => .next (Sys2Proof.Machine.vflyback s)
  | .iocAssert bank bits => .next (Sys2Proof.Machine.iocAssert bank bits s)

/-- A sequence of events, in the order the environment issues them, stopping at the first that stops (R7). -/
def runEvents : List Event → State → Host.Outcome State Fault Refusal
  | [], s => .next s
  | e :: rest, s =>
    match applyEvent e s with
    | .next t => runEvents rest t
    | .fault r => .fault r
    | .refused r => .refused r

/-- `n` CPU steps as events. -/
def stepEvents : Nat → List Event
  | 0 => []
  | n + 1 => .step :: stepEvents n

/-- One frame of the reference environment: the tick, the step budget, the vertical flyback (R336). Polling the host and
the scanout are outside the block (R3, log 11). -/
def runFrame (cycles budget : Nat) (s : State) : Host.Outcome State Fault Refusal :=
  runEvents (.iocTick cycles :: (stepEvents budget ++ [.vflyback])) s

/-- A frame with the defaults of the reference environment (R4, R336). -/
def referenceFrame (s : State) : Host.Outcome State Fault Refusal :=
  runFrame Config.cyclesPerFrame Config.stepBudget s

end Sys2Proof.Machine
end

