-- ==== Sys2Proof/Safety.lean ====
section
/-! DEFINITION. The invariant of the machine, what a safe run is, and the frame predicates that statements about the
machine are written in. -/

namespace Sys2Proof.Machine

/-! ### The invariant -/

/-- The VIDC store is canonical, holds only the registers that exist, each within its width (R292, R293). -/
def vidcWf (r : Store 32) : Bool :=
  r.wf && Store.below Config.vidcCount r && r.all (fun c => c.2 &&& vidcMask c.1 == c.2)

/-- What every event keeps. -/
structure State.Inv (s : State) : Prop where
  /-- R15 is a multiple of 4 below 2^26 (R23). -/
  pc : s.pc &&& Config.pcMask = s.pc
  /-- The RAM bytes are in canonical form. -/
  ramWf : s.ram.wf = true
  /-- RAM holds RAM_SIZE bytes (R32). -/
  ramBelow : Store.below s.params.ramSize s.ram = true
  /-- The ROM bytes are in canonical form. -/
  romWf : s.rom.wf = true
  /-- ROM holds ROM_SIZE bytes (R32). -/
  romBelow : Store.below Config.romSize s.rom = true
  /-- The VIDC registers (R292). -/
  vidc : vidcWf s.vidc = true
  /-- The parameters are in their ranges (R4). -/
  params : s.params.wf

/-! ### Safe runs -/

/-- No step of the next `n` ends in the outcome Fatal (R9) or in a refusal. -/
def State.runsSafely : Nat → State → Bool
  | 0, _ => true
  | n + 1, s =>
    match step s with
    | .next t => t.runsSafely n
    | .fault _ => false
    | .refused _ => false

/-! ### Frames -/

/-- Every physical register outside a list holds in `t` what it holds in `s`. R15 is one of the registers. -/
def State.RegsKeptBut (s t : State) (ps : List PhysReg) : Prop := ∀ p, p ∉ ps → t.regs.get p = s.regs.get p

/-- Every byte of RAM and ROM, and every byte an address reads as, is in `t` what it is in `s`. -/
def State.MemoryKept (s t : State) : Prop :=
  (∀ a, t.ram.read a = s.ram.read a) ∧ (∀ a, t.rom.read a = s.rom.read a) ∧ (∀ addr, t.readByte addr = s.readByte addr)

/-- The IOC, the VIDC registers, the boot flag and the parameters are in `t` what they are in `s`. -/
def State.DevicesKept (s t : State) : Prop :=
  t.ioc = s.ioc ∧ t.vidc = s.vidc ∧ t.isBootMode = s.isBootMode ∧ t.params = s.params

/-- The saved status registers are in `t` what they are in `s`. -/
def State.SpsrsKept (s t : State) : Prop := t.spsrFiq = s.spsrFiq ∧ t.spsrIrq = s.spsrIrq ∧ t.spsrSvc = s.spsrSvc

/-- Nothing differs in `t` from `s` but the listed physical registers and CPSR: the other registers, the saved status
registers, every byte of memory, the devices and the diagnostic list are what they were. -/
structure State.OnlyRegs (s t : State) (ps : List PhysReg) : Prop where
  regs : s.RegsKeptBut t ps
  spsrs : s.SpsrsKept t
  memory : s.MemoryKept t
  devices : s.DevicesKept t
  diags : t.diags = s.diags

/-- CPSR after a data-processing instruction that sets flags when `f` is set: `flagged` is CPSR with its new flags. With
Rd = 15 and S = 1 a mode that has an SPSR takes the whole of that instead (R140). -/
def State.cpsrAfter (s : State) (rd : Reg) (f : Bool) (flagged : Psr) : Psr :=
  if rd = .r15 ∧ f = true then (s.spsr s.cpsr.mode).getD flagged else if f then flagged else s.cpsr

/-- CPSR after TST, TEQ, CMP or CMN, which set flags whatever S is (R130, R140). -/
def State.cpsrAfterTest (s : State) (rd : Reg) (f : Bool) (flagged : Psr) : Psr :=
  if rd = .r15 ∧ f = true then (s.spsr s.cpsr.mode).getD flagged else flagged

/-- The place of register `i` among the registers of a list: how many registers below it are listed (R210). -/
def listRank (list : BitVec 16) (i : Reg) : Nat := (List.range i.num.toNat).countP fun j => list.getLsbD j

/-- What a physical register holds after `v` is written to it: R15 keeps only the bits of PC_MASK (R24). -/
def PhysReg.held (p : PhysReg) (v : Word) : Word := if p = .r15 then v &&& 0x03FFFFFC#32 else v

end Sys2Proof.Machine
end

