-- ==== Sys2Proof/Certificates/Slice0/Obligations.lean ====
section
/-! DEFINITION. The statements for the provers. In a statement about `exec`, `s` is the state after the advance of R15
(spec/30_encoding.md R102): `s.fetchPc` is the address the instruction was fetched from. -/

open Sys2Proof Sys2Proof.Machine

/-! ### Encoding -/

/-- R105, R106 to R112: every term that some word encodes is what its word decodes to, every operand at every value. -/
def Obligations.DecodeOfEncode : Prop :=
  ∀ i : Instr, i.wellFormed = true → decode (bytesOfWord (encode i)) = .ok (i, [])

/-- R105, R114: every 32-bit word decodes to a well-formed instruction that keeps all its bits. -/
def Obligations.EncodeOfDecode : Prop :=
  ∀ w : Word, (decodeWord w).wellFormed = true ∧ encode (decodeWord w) = w

/-- R243: the words of the three Unimplemented rows are exactly these. -/
def Obligations.UnimplementedWords : Prop :=
  ∀ w : Word,
    ((∃ c hi lo, decodeWord w = .unimplSdtRegshift c hi lo) ↔
      w.extractLsb' 26 2 = 0b01#2 ∧ w.getLsbD 25 = true ∧ w.getLsbD 4 = true) ∧
    ((∃ c rest, decodeWord w = .unimplCoprocTransfer c rest) ↔ w.extractLsb' 25 3 = 0b110#3) ∧
    ((∃ c rest, decodeWord w = .unimplCoprocOp c rest) ↔ w.extractLsb' 24 4 = 0b1110#4)

/-- R105 rows 1 and 2, R114: the multiply test comes before the data-processing test, so a word of AND or EOR never holds
the multiply pattern, and every other word with bits 27:26 = 00 is the data-processing instruction its bits spell. -/
def Obligations.MultiplyTestedFirst : Prop :=
  ∀ w : Word,
    ((∃ c s rd rn rs rm, decodeWord w = .mul c s rd rn rs rm) ↔
      w.extractLsb' 22 6 = 0#6 ∧ w.extractLsb' 4 4 = 0b1001#4 ∧ w.getLsbD 21 = false) ∧
    ((∃ c s rd rn rs rm, decodeWord w = .mla c s rd rn rs rm) ↔
      w.extractLsb' 22 6 = 0#6 ∧ w.extractLsb' 4 4 = 0b1001#4 ∧ w.getLsbD 21 = true) ∧
    ((∃ c s rn rd op2, decodeWord w = .and c s rn rd op2) ↔
      w.extractLsb' 26 2 = 0#2 ∧ w.extractLsb' 21 4 = 0#4 ∧
        ¬(w.getLsbD 25 = false ∧ w.extractLsb' 4 4 = 0b1001#4)) ∧
    ((∃ c s rn rd op2, decodeWord w = .eor c s rn rd op2) ↔
      w.extractLsb' 26 2 = 0#2 ∧ w.extractLsb' 21 4 = 1#4 ∧
        ¬(w.getLsbD 25 = false ∧ w.extractLsb' 4 4 = 0b1001#4))

/-- Words the spec writes out and the instructions it says they are (R142, R182, R192, R212, R231, R240, R243). -/
def Obligations.WrittenWordsDecode : Prop :=
  decodeWord 0xE0110222#32 = .and .al true .r1 .r0 (.shiftImm 4 .lsr .r2) ∧
  decodeWord 0xE0203291#32 = .mla .al false .r0 .r3 .r2 .r1 ∧
  decodeWord 0xE7110102#32 = .ldr .al true false false .r1 .r0 (.reg 2 .lsl .r2) ∧
  decodeWord 0xE8BD0043#32 = .ldm .al false true false true .r13 0x0043#16 ∧
  decodeWord 0xEA00001E#32 = .b .al 0x00001E#24 ∧
  decodeWord 0xEF000011#32 = .swi .al 0x000011#24 ∧
  decodeWord 0xE7910312#32 = .unimplSdtRegshift .al 0xC8818#20 0x2#4

/-! ### The step -/

/-- R100, R101, R102: with no interrupt taken and a fetched word other than 0xFFFFFFFF, the step is the meaning of the
decoded instruction in the state whose R15 has advanced by 4, with an empty diagnostic list. -/
def Obligations.StepRunsDecodedInstruction : Prop :=
  ∀ (s : State) (i : Instr),
    (s.ioc.fiqLine && !s.cpsr.f) = false → (s.ioc.irqLine && !s.cpsr.i) = false →
    s.readWord (s.pc &&& 0x03FFFFFC#32) ≠ 0xFFFFFFFF#32 →
    decode (bytesOfWord (s.readWord (s.pc &&& 0x03FFFFFC#32))) = .ok (i, []) →
    step s = exec i (({ s with diags := [] } : State).setPc (s.pc + 4#32))

/-- The same from the four bytes at R15, wherever R15 does not lie in a device (R69, R73). -/
def Obligations.StepRunsBytesAtPc : Prop :=
  ∀ (s : State) (i : Instr), s.Inv →
    (s.ioc.fiqLine && !s.cpsr.f) = false → (s.ioc.irqLine && !s.cpsr.i) = false →
    s.region s.pc.toNat ≠ .ioc → s.region s.pc.toNat ≠ .vidc → i ≠ .swi .nv 0xFFFFFF#24 →
    decode [s.readByte s.pc, s.readByte (s.pc + 1#32), s.readByte (s.pc + 2#32), s.readByte (s.pc + 3#32)] = .ok (i, []) →
    step s = exec i (({ s with diags := [] } : State).setPc (s.pc + 4#32))

/-- R9, R101: a step stops exactly when no interrupt is taken and the fetched word is 0xFFFFFFFF, it then reports R15, and
it never refuses. -/
def Obligations.StepStopsOnlyAtSentinel : Prop :=
  ∀ s : State,
    (∀ r, step s ≠ .refused r) ∧
    ∀ f, step s = .fault f ↔
      (s.ioc.fiqLine && !s.cpsr.f) = false ∧ (s.ioc.irqLine && !s.cpsr.i) = false ∧
        s.readWord (s.pc &&& 0x03FFFFFC#32) = 0xFFFFFFFF#32 ∧ f = .invalidPC s.pc

/-- R103: a step whose fetched word has a condition that fails only advances R15; nothing is reported. -/
def Obligations.FailedConditionOnlyAdvances : Prop :=
  ∀ (s : State) (w : Word),
    (s.ioc.fiqLine && !s.cpsr.f) = false → (s.ioc.irqLine && !s.cpsr.i) = false →
    s.readWord (s.pc &&& 0x03FFFFFC#32) = w → w ≠ 0xFFFFFFFF#32 →
    condPassed (Cond.ofBits (w.extractLsb' 28 4)) s.cpsr = false →
    ∃ t, step s = .next t ∧ t.pc = (s.pc + 4#32) &&& 0x03FFFFFC#32 ∧ s.RegsKeptBut t [.r15] ∧ t.cpsr = s.cpsr ∧
      s.SpsrsKept t ∧ s.MemoryKept t ∧ s.DevicesKept t ∧ t.diags = []

/-- R104: the sixteen conditions on the flags. -/
def Obligations.ConditionTable : Prop :=
  ∀ p : Psr,
    (condPassed .eq p = true ↔ p.z = true) ∧ (condPassed .ne p = true ↔ p.z = false) ∧
    (condPassed .cs p = true ↔ p.c = true) ∧ (condPassed .cc p = true ↔ p.c = false) ∧
    (condPassed .mi p = true ↔ p.n = true) ∧ (condPassed .pl p = true ↔ p.n = false) ∧
    (condPassed .vs p = true ↔ p.v = true) ∧ (condPassed .vc p = true ↔ p.v = false) ∧
    (condPassed .hi p = true ↔ p.c = true ∧ p.z = false) ∧ (condPassed .ls p = true ↔ p.c = false ∨ p.z = true) ∧
    (condPassed .ge p = true ↔ p.n = p.v) ∧ (condPassed .lt p = true ↔ p.n ≠ p.v) ∧
    (condPassed .gt p = true ↔ p.z = false ∧ p.n = p.v) ∧ (condPassed .le p = true ↔ p.z = true ∨ p.n ≠ p.v) ∧
    condPassed .al p = true ∧ condPassed .nv p = false

/-- R25, R26 (log 8): the fetch address is recovered from the advanced R15, so R15 as an operand is `fetch_pc + 8` and the
next instruction is at `fetch_pc + 4`, also where the counter wraps. -/
def Obligations.ProgramCounterReadsAhead : Prop :=
  ∀ s : State, s.pc &&& 0x03FFFFFC#32 = s.pc →
    (s.setPc (s.pc + 4#32)).fetchPc = s.pc ∧
    (s.setPc (s.pc + 4#32)).readReg .r15 = (s.pc + 8#32) &&& 0x03FFFFFC#32 ∧
    (s.setPc (s.pc + 4#32)).readUser .r15 = (s.pc + 8#32) &&& 0x03FFFFFC#32

/-- R21, R22: a register number 0 to 14 written in a mode is read back in every mode that shares its physical register and
in no other, and every other number keeps its value. -/
def Obligations.BankedRegisters : Prop :=
  ∀ (s : State) (i j : Reg) (m : Mode) (v : Word), i ≠ .r15 → j ≠ .r15 →
    (s.writeReg i v).readIn m j =
      if i = j ∧ (m = s.cpsr.mode ∨ i.num.toNat < 8 ∨ i.num.toNat < 13 ∧ m ≠ .fiq ∧ s.cpsr.mode ≠ .fiq) then v
      else s.readIn m j

/-! ### Operand2 -/

/-- R131: the rotated immediate and its carry-out. -/
def Obligations.RotatedImmediate : Prop :=
  ∀ (s : State) (rot4 : BitVec 4) (imm8 : BitVec 8),
    s.operand2 (.imm rot4 imm8) =
      if rot4 = 0 then (imm8.setWidth 32, s.cpsr.c)
      else
        let v := imm8.setWidth 32 >>> (2 * rot4.toNat) ||| imm8.setWidth 32 <<< (32 - 2 * rot4.toNat)
        (v, v.getLsbD 31)

/-- R132, R134, R136: the shift by an immediate amount, as arithmetic on the value and the amount. -/
def Obligations.ShiftByImmediate : Prop :=
  ∀ (s : State) (shamt5 : BitVec 5) (rm : Reg),
    let v := s.readReg rm
    let n := shamt5.toNat
    let lsl := s.operand2 (.shiftImm shamt5 .lsl rm)
    let lsr := s.operand2 (.shiftImm shamt5 .lsr rm)
    let asr := s.operand2 (.shiftImm shamt5 .asr rm)
    let ror := s.operand2 (.shiftImm shamt5 .ror rm)
    (n = 0 → lsl = (v, s.cpsr.c) ∧ lsr = (0#32, v.getLsbD 31) ∧
      asr = (if v.getLsbD 31 then 0xFFFFFFFF#32 else 0#32, v.getLsbD 31) ∧
      ror.1.toNat = 2 ^ 31 * s.cpsr.c.toNat + v.toNat / 2 ∧ ror.2 = v.getLsbD 0) ∧
    (n ≠ 0 →
      (lsl.1.toNat = v.toNat * 2 ^ n % 2 ^ 32 ∧ lsl.2 = v.getLsbD (32 - n)) ∧
      (lsr.1.toNat = v.toNat / 2 ^ n ∧ lsr.2 = v.getLsbD (n - 1)) ∧
      (asr.1.toInt = v.toInt / 2 ^ n ∧ asr.2 = v.getLsbD (n - 1)) ∧
      (ror.1.toNat = v.toNat / 2 ^ n + v.toNat % 2 ^ n * 2 ^ (32 - n) ∧ ror.2 = v.getLsbD (n - 1)))

/-- R133, R134, R135: the shift by the low byte of a register. Bit 7 of the instruction plays no part; an amount of 0
changes nothing whatever the type. -/
def Obligations.ShiftByRegister : Prop :=
  ∀ (s : State) (rs rm : Reg) (bit7 : Bool),
    let v := s.readReg rm
    let n := (s.readReg rs).toNat % 256
    let lsl := s.operand2 (.shiftReg rs bit7 .lsl rm)
    let lsr := s.operand2 (.shiftReg rs bit7 .lsr rm)
    let asr := s.operand2 (.shiftReg rs bit7 .asr rm)
    let ror := s.operand2 (.shiftReg rs bit7 .ror rm)
    (n = 0 → lsl = (v, s.cpsr.c) ∧ lsr = (v, s.cpsr.c) ∧ asr = (v, s.cpsr.c) ∧ ror = (v, s.cpsr.c)) ∧
    (0 < n → n < 32 →
      (lsl.1.toNat = v.toNat * 2 ^ n % 2 ^ 32 ∧ lsl.2 = v.getLsbD (32 - n)) ∧
      (lsr.1.toNat = v.toNat / 2 ^ n ∧ lsr.2 = v.getLsbD (n - 1)) ∧
      (asr.1.toInt = v.toInt / 2 ^ n ∧ asr.2 = v.getLsbD (n - 1)) ∧
      (ror.1.toNat = v.toNat / 2 ^ n + v.toNat % 2 ^ n * 2 ^ (32 - n) ∧ ror.2 = v.getLsbD (n - 1))) ∧
    (n = 32 → lsl = (0#32, v.getLsbD 0) ∧ lsr = (0#32, v.getLsbD 31) ∧ ror = (v, v.getLsbD 31)) ∧
    (32 < n → lsl = (0#32, false) ∧ lsr = (0#32, false)) ∧
    (32 ≤ n → asr = (if v.getLsbD 31 then 0xFFFFFFFF#32 else 0#32, v.getLsbD 31)) ∧
    (32 < n → n % 32 = 0 → ror = (v, v.getLsbD 31)) ∧
    (32 < n → n % 32 ≠ 0 →
      ror.1.toNat = v.toNat / 2 ^ (n % 32) + v.toNat % 2 ^ (n % 32) * 2 ^ (32 - n % 32) ∧
      ror.2 = v.getLsbD (n % 32 - 1))

/-! ### Data-processing -/

/-- R142, R143, R154, R155, R156, R157, R138, R140: the result, the flags and the frame of the logical instructions that
write a register. -/
def Obligations.LogicalInstructions : Prop :=
  ∀ (c : Cond) (f : Bool) (rn rd : Reg) (op2 : Operand2) (s : State), condPassed c s.cpsr = true →
    let a := s.readReg rn
    let b := (s.operand2 op2).1
    let pd := phys s.cpsr.mode rd
    let flags := fun r : Word => { s.cpsr with n := r.getLsbD 31, z := decide (r = 0), c := (s.operand2 op2).2 }
    ∀ i r, (i, r) ∈ [(Instr.and c f rn rd op2, a &&& b), (.eor c f rn rd op2, a ^^^ b), (.orr c f rn rd op2, a ||| b),
        (.mov c f rn rd op2, b), (.bic c f rn rd op2, a &&& ~~~b), (.mvn c f rn rd op2, ~~~b)] →
      ∃ t, exec i s = .next t ∧ s.OnlyRegs t [pd] ∧ t.regs.get pd = pd.held r ∧
        t.cpsr = s.cpsrAfter rd f (flags r)

/-- R150, R151, R138, R140: TST and TEQ set the flags whatever S is and write no register. -/
def Obligations.LogicalTests : Prop :=
  ∀ (c : Cond) (f : Bool) (rn rd : Reg) (op2 : Operand2) (s : State), condPassed c s.cpsr = true →
    let a := s.readReg rn
    let b := (s.operand2 op2).1
    let flags := fun r : Word => { s.cpsr with n := r.getLsbD 31, z := decide (r = 0), c := (s.operand2 op2).2 }
    (∃ t, exec (.tst c f rn rd op2) s = .next t ∧ s.OnlyRegs t [] ∧
      t.cpsr = s.cpsrAfterTest rd f (flags (a &&& b))) ∧
    (∃ t, exec (.teq c f rn rd op2) s = .next t ∧ s.OnlyRegs t [] ∧
      t.cpsr = s.cpsrAfterTest rd f (flags (a ^^^ b)))

/-- R146, R153, R137, R139, R140: ADD and CMN; C is the unsigned overflow, V the signed one. -/
def Obligations.AddAndCmn : Prop :=
  ∀ (c : Cond) (f : Bool) (rn rd : Reg) (op2 : Operand2) (s : State), condPassed c s.cpsr = true →
    let a := s.readReg rn
    let b := (s.operand2 op2).1
    let pd := phys s.cpsr.mode rd
    let flags := { s.cpsr with
      n := (a + b).getLsbD 31
      z := decide (a + b = 0)
      c := decide (2 ^ 32 ≤ a.toNat + b.toNat)
      v := decide ((a + b).toInt ≠ a.toInt + b.toInt) }
    (∃ t, exec (.add c f rn rd op2) s = .next t ∧ s.OnlyRegs t [pd] ∧ t.regs.get pd = pd.held (a + b) ∧
      t.cpsr = s.cpsrAfter rd f flags) ∧
    (∃ t, exec (.cmn c f rn rd op2) s = .next t ∧ s.OnlyRegs t [] ∧ t.cpsr = s.cpsrAfterTest rd f flags)

/-- R144, R145, R152, R137, R139, R140: SUB, CMP and RSB; C is "no borrow", V the signed overflow. -/
def Obligations.Subtractions : Prop :=
  ∀ (c : Cond) (f : Bool) (rn rd : Reg) (op2 : Operand2) (s : State), condPassed c s.cpsr = true →
    let a := s.readReg rn
    let b := (s.operand2 op2).1
    let pd := phys s.cpsr.mode rd
    let flags := fun x y : Word => { s.cpsr with
      n := (x - y).getLsbD 31
      z := decide (x = y)
      c := decide (y.toNat ≤ x.toNat)
      v := decide ((x - y).toInt ≠ x.toInt - y.toInt) }
    (∃ t, exec (.sub c f rn rd op2) s = .next t ∧ s.OnlyRegs t [pd] ∧ t.regs.get pd = pd.held (a - b) ∧
      t.cpsr = s.cpsrAfter rd f (flags a b)) ∧
    (∃ t, exec (.cmp c f rn rd op2) s = .next t ∧ s.OnlyRegs t [] ∧
      t.cpsr = s.cpsrAfterTest rd f (flags a b)) ∧
    (∃ t, exec (.rsb c f rn rd op2) s = .next t ∧ s.OnlyRegs t [pd] ∧ t.regs.get pd = pd.held (b - a) ∧
      t.cpsr = s.cpsrAfter rd f (flags b a))

/-- R147, R148, R149, R137, R139, R140: ADC, SBC and RSC with the carry-in `CPSR.C`. -/
def Obligations.CarryArithmetic : Prop :=
  ∀ (c : Cond) (f : Bool) (rn rd : Reg) (op2 : Operand2) (s : State), condPassed c s.cpsr = true →
    let a := s.readReg rn
    let b := (s.operand2 op2).1
    let carry := s.cpsr.c.toNat
    let borrow := 1 - s.cpsr.c.toNat
    let pd := phys s.cpsr.mode rd
    let flags := fun (r : Word) (cout : Bool) (exact : Int) =>
      { s.cpsr with n := r.getLsbD 31, z := decide (r = 0), c := cout, v := decide (r.toInt ≠ exact) }
    ∀ i r cout exact,
      (i, r, cout, exact) ∈
        [(Instr.adc c f rn rd op2, a + b + BitVec.ofNat 32 carry, decide (2 ^ 32 ≤ a.toNat + b.toNat + carry),
            a.toInt + b.toInt + (carry : Int)),
          (.sbc c f rn rd op2, a - b - BitVec.ofNat 32 borrow, decide (b.toNat + borrow ≤ a.toNat),
            a.toInt - b.toInt - (borrow : Int)),
          (.rsc c f rn rd op2, b - a - BitVec.ofNat 32 borrow, decide (a.toNat + borrow ≤ b.toNat),
            b.toInt - a.toInt - (borrow : Int))] →
      ∃ t, exec i s = .next t ∧ s.OnlyRegs t [pd] ∧ t.regs.get pd = pd.held r ∧
        t.cpsr = s.cpsrAfter rd f (flags r cout exact)

/-- R180, R181, R182: the low 32 bits of the product and of the product plus Rn; only N and Z, only with S = 1, and no
restore of CPSR when Rd is 15. -/
def Obligations.Multiplies : Prop :=
  ∀ (c : Cond) (f : Bool) (rd rn rs rm : Reg) (s : State), condPassed c s.cpsr = true →
    let x := s.readReg rm
    let y := s.readReg rs
    let pd := phys s.cpsr.mode rd
    let flags := fun r : Word => if f then { s.cpsr with n := r.getLsbD 31, z := decide (r = 0) } else s.cpsr
    (∃ t, exec (.mul c f rd rn rs rm) s = .next t ∧ s.OnlyRegs t [pd] ∧ t.regs.get pd = pd.held (x * y) ∧
      t.cpsr = flags (x * y)) ∧
    (∃ t, exec (.mla c f rd rn rs rm) s = .next t ∧ s.OnlyRegs t [pd] ∧
      t.regs.get pd = pd.held (x * y + s.readReg rn) ∧ t.cpsr = flags (x * y + s.readReg rn))

/-! ### Single data transfers -/

/-- R191: the offset of a single data transfer: twelve bits zero-extended, or Rm shifted by an immediate amount. Amount 0
leaves LSL alone, makes LSR and ASR shifts by 32, and rotates by one through `CPSR.C` for ROR (R132, R136). Register 15
as Rm reads as `fetch_pc + 8` (R25). -/
def Obligations.TransferOffsets : Prop :=
  (∀ (s : State) (imm12 : BitVec 12), (s.transferOffset (.imm imm12)).toNat = imm12.toNat) ∧
  ∀ (s : State) (shamt5 : BitVec 5) (rm : Reg),
    let v := if rm = .r15 then (s.fetchPc + 8#32) &&& 0x03FFFFFC#32 else s.regs.get (phys s.cpsr.mode rm)
    let n := shamt5.toNat
    let lsl := s.transferOffset (.reg shamt5 .lsl rm)
    let lsr := s.transferOffset (.reg shamt5 .lsr rm)
    let asr := s.transferOffset (.reg shamt5 .asr rm)
    let ror := s.transferOffset (.reg shamt5 .ror rm)
    (n = 0 → lsl = v ∧ lsr = 0#32 ∧ asr = (if v.getLsbD 31 then 0xFFFFFFFF#32 else 0#32) ∧
      ror.toNat = 2 ^ 31 * s.cpsr.c.toNat + v.toNat / 2) ∧
    (n ≠ 0 → lsl.toNat = v.toNat * 2 ^ n % 2 ^ 32 ∧ lsr.toNat = v.toNat / 2 ^ n ∧ asr.toInt = v.toInt / 2 ^ n ∧
      ror.toNat = v.toNat / 2 ^ n + v.toNat % 2 ^ n * 2 ^ (32 - n))

/-- R190, R191, R192, R196: LDR. With write-back the base ends with the effective address, also when it is the
destination. -/
def Obligations.LoadWordRegister : Prop :=
  ∀ (c : Cond) (p u w : Bool) (rn rd : Reg) (off : Offset) (s : State), condPassed c s.cpsr = true →
    let base := s.readReg rn
    let eff := if u then base + s.transferOffset off else base - s.transferOffset off
    let addr := if p then eff else base
    let pd := phys s.cpsr.mode rd
    let pn := phys s.cpsr.mode rn
    ∃ t, exec (.ldr c p u w rn rd off) s = .next t ∧
      (p = true ∧ w = false → s.RegsKeptBut t [pd] ∧ t.regs.get pd = pd.held (s.readWord addr)) ∧
      (p = false ∨ w = true → s.RegsKeptBut t [pd, pn] ∧ t.regs.get pn = pn.held eff ∧
        (rd ≠ rn → t.regs.get pd = pd.held (s.readWord addr))) ∧
      t.cpsr = s.cpsr ∧ s.SpsrsKept t ∧ s.MemoryKept t ∧ s.DevicesKept t ∧
      t.diags = s.diags ++ s.readWordDiags addr

/-- R190, R191, R193, R196: LDRB, zero-extended, at any address. -/
def Obligations.LoadByteRegister : Prop :=
  ∀ (c : Cond) (p u w : Bool) (rn rd : Reg) (off : Offset) (s : State), condPassed c s.cpsr = true →
    let base := s.readReg rn
    let eff := if u then base + s.transferOffset off else base - s.transferOffset off
    let addr := if p then eff else base
    let pd := phys s.cpsr.mode rd
    let pn := phys s.cpsr.mode rn
    ∃ t, exec (.ldrb c p u w rn rd off) s = .next t ∧
      (p = true ∧ w = false → s.RegsKeptBut t [pd] ∧ t.regs.get pd = pd.held (0#24 ++ s.readByte addr)) ∧
      (p = false ∨ w = true → s.RegsKeptBut t [pd, pn] ∧ t.regs.get pn = pn.held eff ∧
        (rd ≠ rn → t.regs.get pd = pd.held (0#24 ++ s.readByte addr))) ∧
      t.cpsr = s.cpsr ∧ s.SpsrsKept t ∧ s.MemoryKept t ∧ s.DevicesKept t ∧
      t.diags = s.diags ++ s.readByteDiags addr

/-- R190, R191, R194, R196: STR. The data is Rd as it was before the write-back. The stored bytes are the aligned word at
the address; where that word is RAM every byte outside it reads as before, and elsewhere the store is the router's. -/
def Obligations.StoreWordRegister : Prop :=
  ∀ (c : Cond) (p u w : Bool) (rn rd : Reg) (off : Offset) (s : State), condPassed c s.cpsr = true →
    let base := s.readReg rn
    let eff := if u then base + s.transferOffset off else base - s.transferOffset off
    let addr := if p then eff else base
    let v := s.readReg rd
    let pn := phys s.cpsr.mode rn
    let aw := addr.toNat % 2 ^ 26 / 4 * 4
    ∃ t, exec (.str c p u w rn rd off) s = .next t ∧
      (p = true ∧ w = false → s.RegsKeptBut t []) ∧
      (p = false ∨ w = true → s.RegsKeptBut t [pn] ∧ t.regs.get pn = pn.held eff) ∧
      t.cpsr = s.cpsr ∧ s.SpsrsKept t ∧ t.rom = s.rom ∧ t.params = s.params ∧
      t.isBootMode = (s.isBootMode && decide (aw ≠ s.params.bootLatch)) ∧
      t.ram = (s.writeWord addr v).ram ∧ t.ioc = (s.writeWord addr v).ioc ∧ t.vidc = (s.writeWord addr v).vidc ∧
      t.diags = (s.writeWord addr v).diags ∧
      (s.region aw = .ram → s.ram.wf = true →
        (∀ j, j < 4 → t.ram.read (aw + j) = v.extractLsb' (8 * j) 8) ∧
        (∀ k, k < aw ∨ aw + 4 ≤ k → t.ram.read k = s.ram.read k) ∧
        t.ioc = s.ioc ∧ t.vidc = s.vidc ∧ t.diags = s.diags ∧
        (aw ≠ s.params.bootLatch → ∀ x : Word, x.toNat % 2 ^ 26 < aw ∨ aw + 4 ≤ x.toNat % 2 ^ 26 →
          t.readByte x = s.readByte x)) ∧
      (s.region aw ≠ .ram → ∀ k, t.ram.read k = s.ram.read k)

/-- R190, R191, R195, R196: STRB. One byte is stored, boot mode stays, and where the address is RAM every other byte reads
as before. -/
def Obligations.StoreByteRegister : Prop :=
  ∀ (c : Cond) (p u w : Bool) (rn rd : Reg) (off : Offset) (s : State), condPassed c s.cpsr = true →
    let base := s.readReg rn
    let eff := if u then base + s.transferOffset off else base - s.transferOffset off
    let addr := if p then eff else base
    let b := (s.readReg rd).extractLsb' 0 8
    let pn := phys s.cpsr.mode rn
    let a := addr.toNat % 2 ^ 26
    ∃ t, exec (.strb c p u w rn rd off) s = .next t ∧
      (p = true ∧ w = false → s.RegsKeptBut t []) ∧
      (p = false ∨ w = true → s.RegsKeptBut t [pn] ∧ t.regs.get pn = pn.held eff) ∧
      t.cpsr = s.cpsr ∧ s.SpsrsKept t ∧ t.rom = s.rom ∧ t.params = s.params ∧ t.isBootMode = s.isBootMode ∧
      t.ram = (s.writeByte addr b).ram ∧ t.ioc = (s.writeByte addr b).ioc ∧ t.vidc = (s.writeByte addr b).vidc ∧
      t.diags = (s.writeByte addr b).diags ∧
      (s.region a = .ram → s.ram.wf = true →
        t.ram.read a = b ∧ (∀ k, k ≠ a → t.ram.read k = s.ram.read k) ∧
        t.ioc = s.ioc ∧ t.vidc = s.vidc ∧ t.diags = s.diags ∧
        (∀ x : Word, x.toNat % 2 ^ 26 ≠ a → t.readByte x = s.readByte x)) ∧
      (s.region a ≠ .ram → ∀ k, t.ram.read k = s.ram.read k)

/-! ### Block data transfers -/

/-- R210, R211, R212, R214: LDM. Each listed register takes the word at its place in the block, in the User bank when S = 1
and R15 is not listed; the write-back comes after the loads and the restore of CPSR last. -/
def Obligations.LoadMultiple : Prop :=
  ∀ (c : Cond) (p u f w : Bool) (rn : Reg) (list : BitVec 16) (s : State), condPassed c s.cpsr = true →
    let base := s.readReg rn
    let size : Word := BitVec.ofNat 32 (4 * (List.range 16).countP fun j => list.getLsbD j)
    let start := if u then (if p then base + 4#32 else base) else (if p then base - size else base - size + 4#32)
    let pn := phys s.cpsr.mode rn
    let pc := list.getLsbD 15
    let bank := if f = true ∧ pc = false then Mode.usr else s.cpsr.mode
    ∃ t, exec (.ldm c p u f w rn list) s = .next t ∧
      (∀ i : Reg, list.getLsbD i.num.toNat = true → ¬(w = true ∧ phys bank i = pn) →
        t.regs.get (phys bank i) = (phys bank i).held (s.readWord (start + BitVec.ofNat 32 (4 * listRank list i)))) ∧
      (w = true → t.regs.get pn = pn.held (if u then base + size else base - size)) ∧
      (∀ q, ¬(w = true ∧ q = pn) → (∀ i : Reg, list.getLsbD i.num.toNat = true → phys bank i ≠ q) →
        t.regs.get q = s.regs.get q) ∧
      t.cpsr = (if f = true ∧ pc = true then (s.spsr s.cpsr.mode).getD s.cpsr else s.cpsr) ∧
      s.SpsrsKept t ∧ s.MemoryKept t ∧ s.DevicesKept t ∧
      t.diags = s.diags ++ (listedRegs list).flatMap fun i =>
        s.readWordDiags (start + BitVec.ofNat 32 (4 * listRank list i))

/-- R210, R211, R213, R214, R215: STM is one word store for each listed register, in ascending order, each register as it
was at the start and in the User bank when S = 1; then the write-back. It never changes CPSR. -/
def Obligations.StoreMultiple : Prop :=
  ∀ (c : Cond) (p u f w : Bool) (rn : Reg) (list : BitVec 16) (s : State), condPassed c s.cpsr = true →
    let base := s.readReg rn
    let size : Word := BitVec.ofNat 32 (4 * (List.range 16).countP fun j => list.getLsbD j)
    let start := if u then (if p then base + 4#32 else base) else (if p then base - size else base - size + 4#32)
    let pn := phys s.cpsr.mode rn
    let bank := if f then Mode.usr else s.cpsr.mode
    let stored := (listedRegs list).foldl
      (fun st i => st.writeWord (start + BitVec.ofNat 32 (4 * listRank list i)) (s.readIn bank i)) s
    ∃ t, exec (.stm c p u f w rn list) s = .next t ∧
      (w = false → s.RegsKeptBut t []) ∧
      (w = true → s.RegsKeptBut t [pn] ∧ t.regs.get pn = pn.held (if u then base + size else base - size)) ∧
      t.cpsr = s.cpsr ∧ s.SpsrsKept t ∧ t.rom = s.rom ∧ t.params = s.params ∧
      t.ram = stored.ram ∧ t.ioc = stored.ioc ∧ t.vidc = stored.vidc ∧ t.isBootMode = stored.isBootMode ∧
      t.diags = stored.diags

/-- R210, R211, R213: where every word of the block is RAM and none is the boot latch, STM leaves each listed register at
its place in the block, and every byte outside the block reads as before. -/
def Obligations.StoreMultipleToRam : Prop :=
  ∀ (c : Cond) (p u f w : Bool) (rn : Reg) (list : BitVec 16) (s : State), condPassed c s.cpsr = true →
    let base := s.readReg rn
    let size : Word := BitVec.ofNat 32 (4 * (List.range 16).countP fun j => list.getLsbD j)
    let start := if u then (if p then base + 4#32 else base) else (if p then base - size else base - size + 4#32)
    let bank := if f then Mode.usr else s.cpsr.mode
    let place := fun i : Reg => (start + BitVec.ofNat 32 (4 * listRank list i)).toNat % 2 ^ 26 / 4 * 4
    s.ram.wf = true →
    (∀ i : Reg, list.getLsbD i.num.toNat = true → s.region (place i) = .ram ∧ place i ≠ s.params.bootLatch) →
    ∃ t, exec (.stm c p u f w rn list) s = .next t ∧
      (∀ i : Reg, list.getLsbD i.num.toNat = true → ∀ j, j < 4 →
        t.ram.read (place i + j) = (s.readIn bank i).extractLsb' (8 * j) 8) ∧
      (∀ k, (∀ i : Reg, list.getLsbD i.num.toNat = true → k < place i ∨ place i + 4 ≤ k) →
        t.ram.read k = s.ram.read k) ∧
      (∀ x : Word, (∀ i : Reg, list.getLsbD i.num.toNat = true →
          x.toNat % 2 ^ 26 < place i ∨ place i + 4 ≤ x.toNat % 2 ^ 26) → t.readByte x = s.readByte x) ∧
      s.DevicesKept t ∧ t.diags = s.diags

/-- R211, R212, R213: `STMFD sp!, list` and, as the next instruction, `LDMFD sp!, list` in RAM both complete and leave the
status and every register but R15 as they were; R15 has advanced by the one instruction between. -/
def Obligations.StackBalance : Prop :=
  ∀ (list : BitVec 16) (s : State), list.getLsbD 15 = false → list.getLsbD 13 = false →
    s.ram.wf = true →
    (∀ i : Reg, list.getLsbD i.num.toNat = true →
      let a := (s.readReg .r13 - BitVec.ofNat 32 (4 * (List.range 16).countP fun j => list.getLsbD j) +
        BitVec.ofNat 32 (4 * listRank list i)).toNat % 2 ^ 26 / 4 * 4
      s.region a = .ram ∧ a ≠ s.params.bootLatch) →
    (s.readReg .r13).toNat % 4 = 0 →
    ∃ t, exec (.stm .al true false false true .r13 list) s = .next t ∧
      ∃ u, exec (.ldm .al false true false true .r13 list) t.advance = .next u ∧
        s.RegsKeptBut u [.r15] ∧ u.pc = (s.pc + 4#32) &&& 0x03FFFFFC#32 ∧ u.cpsr = s.cpsr ∧ s.SpsrsKept u

/-! ### Branches -/

/-- R231: a step that fetches a word with bits 27:24 = 1010 whose condition passes goes to
`fetch_pc + 8 + (sext(off24) << 2)` within the 26-bit space and changes nothing else. -/
def Obligations.BranchStep : Prop :=
  ∀ (s : State) (w : Word), s.pc &&& 0x03FFFFFC#32 = s.pc →
    (s.ioc.fiqLine && !s.cpsr.f) = false → (s.ioc.irqLine && !s.cpsr.i) = false →
    s.readWord s.pc = w → w.extractLsb' 24 4 = 0b1010#4 →
    condPassed (Cond.ofBits (w.extractLsb' 28 4)) s.cpsr = true →
    ∃ t, step s = .next t ∧ (t.pc.toNat : Int) = (s.pc.toNat + 8 + 4 * (w.extractLsb' 0 24).toInt) % 2 ^ 26 ∧
      s.RegsKeptBut t [.r15] ∧ t.cpsr = s.cpsr ∧ s.SpsrsKept t ∧ s.MemoryKept t ∧ s.DevicesKept t ∧ t.diags = []

/-- R230, R231, R232: B and BL; the link is the address of the next instruction, in R14 of the current mode. -/
def Obligations.BranchAndLink : Prop :=
  ∀ (c : Cond) (off24 : BitVec 24) (s : State), condPassed c s.cpsr = true →
    let target := (s.fetchPc + 8#32 + 4#32 * off24.signExtend 32) &&& 0x03FFFFFC#32
    let link := phys s.cpsr.mode .r14
    (∃ t, exec (.b c off24) s = .next t ∧ s.OnlyRegs t [.r15] ∧ t.pc = target ∧ t.cpsr = s.cpsr) ∧
    (∃ t, exec (.bl c off24) s = .next t ∧ s.OnlyRegs t [.r15, link] ∧ t.pc = target ∧
      t.regs.get link = (s.fetchPc + 4#32) &&& 0x03FFFFFC#32 ∧ t.cpsr = s.cpsr)

/-! ### SWI and the Unimplemented encodings -/

/-- R240: every word with bits 27:24 = 1111 is SWI, and SWI enters SVC at 8 with the old CPSR in SPSR[SVC] and the next
address in R14_svc; when its condition fails it does nothing. No other instruction saves a status. -/
def Obligations.SoftwareInterrupt : Prop :=
  (∀ w : Word, w.extractLsb' 24 4 = 0b1111#4 →
    decodeWord w = .swi (Cond.ofBits (w.extractLsb' 28 4)) (w.extractLsb' 0 24)) ∧
  (∀ (c : Cond) (comment : BitVec 24) (s : State),
    (condPassed c s.cpsr = false → exec (.swi c comment) s = .next s) ∧
    (condPassed c s.cpsr = true → ∃ t, exec (.swi c comment) s = .next t ∧
      t.spsrSvc = s.cpsr ∧ t.cpsr = { s.cpsr with mode := .svc, i := true } ∧
      t.regs.get .r14svc = (s.fetchPc + 4#32) &&& 0x03FFFFFC#32 ∧ t.pc = 0x00000008#32 ∧
      s.RegsKeptBut t [.r14svc, .r15] ∧ t.spsrFiq = s.spsrFiq ∧ t.spsrIrq = s.spsrIrq ∧
      s.MemoryKept t ∧ s.DevicesKept t ∧ t.diags = s.diags)) ∧
  ∀ (i : Instr) (s t : State), (¬∃ c comment, i = .swi c comment) → exec i s = .next t → s.SpsrsKept t

/-- R242: an Unimplemented instruction whose condition passes adds one diagnostic with its address and its word and
changes nothing else; one whose condition fails does nothing at all. -/
def Obligations.UnimplementedOnlyReports : Prop :=
  ∀ (i : Instr) (s : State),
    ((∃ c hi lo, i = .unimplSdtRegshift c hi lo) ∨ (∃ c rest, i = .unimplCoprocTransfer c rest) ∨
      (∃ c rest, i = .unimplCoprocOp c rest)) →
    (condPassed i.cond s.cpsr = true →
      exec i s = .next { s with diags := s.diags ++ [.unimplemented s.fetchPc (encode i)] }) ∧
    (condPassed i.cond s.cpsr = false → exec i s = .next s)

/-! ### Exceptions -/

/-- R252, R256, R257: IRQ entry. R14_irq receives the unmasked `pc + 4`; no instruction executes. -/
def Obligations.IrqEntry : Prop :=
  ∀ s : State, (s.ioc.fiqLine && !s.cpsr.f) = false → s.ioc.irqLine = true → s.cpsr.i = false →
    ∃ t, step s = .next t ∧ t.spsrIrq = s.cpsr ∧ t.cpsr = { s.cpsr with mode := .irq, i := true } ∧
      t.regs.get .r14irq = s.pc + 4#32 ∧ t.pc = 0x00000018#32 ∧ s.RegsKeptBut t [.r14irq, .r15] ∧
      t.spsrFiq = s.spsrFiq ∧ t.spsrSvc = s.spsrSvc ∧ s.MemoryKept t ∧ s.DevicesKept t ∧ t.diags = []

/-- R253, R254, R256, R258: FIQ entry, also when IRQ is pending; it sets I and F. -/
def Obligations.FiqEntry : Prop :=
  ∀ s : State, s.ioc.fiqLine = true → s.cpsr.f = false →
    ∃ t, step s = .next t ∧ t.spsrFiq = s.cpsr ∧ t.cpsr = { s.cpsr with mode := .fiq, i := true, f := true } ∧
      t.regs.get .r14fiq = s.pc + 4#32 ∧ t.pc = 0x0000001C#32 ∧ s.RegsKeptBut t [.r14fiq, .r15] ∧
      t.spsrIrq = s.spsrIrq ∧ t.spsrSvc = s.spsrSvc ∧ s.MemoryKept t ∧ s.DevicesKept t ∧ t.diags = []

/-- R263, R140: `SUBS PC, R14, #4` in the handler returns to the interrupted instruction with the CPSR it had: `s` is the
interrupted state, `h` a state of the handler that still holds what the entry saved. -/
def Obligations.InterruptReturn : Prop :=
  ∀ s h : State, s.Inv →
    (h.cpsr.mode = .irq ∧ h.spsrIrq = s.cpsr ∧ h.regs.get .r14irq = s.pc + 4#32) ∨
      (h.cpsr.mode = .fiq ∧ h.spsrFiq = s.cpsr ∧ h.regs.get .r14fiq = s.pc + 4#32) →
    ∃ t, exec (.sub .al true .r14 .r15 (.imm 0 4)) h = .next t ∧ t.pc = s.pc ∧ t.cpsr = s.cpsr ∧
      h.RegsKeptBut t [.r15] ∧ h.SpsrsKept t ∧ h.MemoryKept t ∧ h.DevicesKept t

/-- R241, R140: an SWI followed by `MOVS PC, R14` is back at the instruction after the SWI with the CPSR it had. -/
def Obligations.SoftwareInterruptReturn : Prop :=
  ∀ (c : Cond) (comment : BitVec 24) (s t : State), condPassed c s.cpsr = true →
    exec (.swi c comment) s = .next t →
    ∃ u, exec (.mov .al true .r0 .r15 (.shiftImm 0 .lsl .r14)) t.advance = .next u ∧
      u.pc = (s.fetchPc + 4#32) &&& 0x03FFFFFC#32 ∧ u.cpsr = s.cpsr ∧ s.RegsKeptBut u [.r14svc, .r15]

/-- R29, R256: a step changes a saved status register only by entering its mode, and what it saves is the CPSR. -/
def Obligations.SpsrWrittenOnlyByEntry : Prop :=
  ∀ s t : State, step s = .next t →
    (t.spsrFiq = s.spsrFiq ∨ t.spsrFiq = s.cpsr ∧ t.cpsr.mode = .fiq ∧ t.pc = 0x1C#32) ∧
    (t.spsrIrq = s.spsrIrq ∨ t.spsrIrq = s.cpsr ∧ t.cpsr.mode = .irq ∧ t.pc = 0x18#32) ∧
    (t.spsrSvc = s.spsrSvc ∨ t.spsrSvc = s.cpsr ∧ t.cpsr.mode = .svc ∧ t.pc = 0x08#32)

/-- R244, R267: a step of User mode stays in User mode with I and F as they were, or enters an exception at its fixed
vector with the old CPSR saved; the banks and the saved status of the other modes change only by that entry. -/
def Obligations.UserModeIsConfined : Prop :=
  ∀ s t : State, s.cpsr.mode = .usr → step s = .next t →
    (t.cpsr.mode = .usr ∧ t.cpsr.i = s.cpsr.i ∧ t.cpsr.f = s.cpsr.f ∧ s.SpsrsKept t ∧
      ∀ q ∈ [PhysReg.r8fiq, .r9fiq, .r10fiq, .r11fiq, .r12fiq, .r13fiq, .r14fiq, .r13irq, .r14irq, .r13svc, .r14svc],
        t.regs.get q = s.regs.get q) ∨
    (∃ m vec, (m, vec) ∈ [(Mode.svc, 0x08#32), (.irq, 0x18#32), (.fiq, 0x1C#32)] ∧ t.cpsr.mode = m ∧ t.pc = vec ∧
      t.spsr m = some s.cpsr ∧ (∀ q, q ≠ m → t.spsr q = s.spsr q) ∧ s.RegsKeptBut t [phys m .r14, .r15])

/-- R21, R29, R267: what a step of User mode does to all that User mode can see does not depend on the banks and the saved
status of the other modes. -/
def Obligations.OtherBanksInvisibleToUser : Prop :=
  ∀ (s t : State) (x y z : Psr) (r : RegFile), s.cpsr.mode = .usr →
    (∀ q, q ∉ [PhysReg.r8fiq, .r9fiq, .r10fiq, .r11fiq, .r12fiq, .r13fiq, .r14fiq, .r13irq, .r14irq, .r13svc,
      .r14svc] → r.get q = s.regs.get q) →
    step s = .next t →
    ∃ t', step { s with regs := r, spsrFiq := x, spsrIrq := y, spsrSvc := z } = .next t' ∧
      (∀ q, q ∉ [PhysReg.r8fiq, .r9fiq, .r10fiq, .r11fiq, .r12fiq, .r13fiq, .r14fiq, .r13irq, .r14irq, .r13svc,
        .r14svc] → t'.regs.get q = t.regs.get q) ∧
      t'.cpsr = t.cpsr ∧ t'.ram = t.ram ∧ t'.rom = t.rom ∧ t'.ioc = t.ioc ∧ t'.vidc = t.vidc ∧
      t'.isBootMode = t.isBootMode ∧ t'.params = t.params ∧ t'.diags = t.diags

/-- R323 item 5: from a state in SVC mode with I and F set and SPSR[SVC] saying the same, no step leaves SVC mode or
clears I or F. -/
def Obligations.MaskedSupervisorStays : Prop :=
  ∀ s t : State, s.cpsr.mode = .svc ∧ s.cpsr.i = true ∧ s.cpsr.f = true →
    s.spsrSvc.mode = .svc ∧ s.spsrSvc.i = true ∧ s.spsrSvc.f = true → step s = .next t →
    (t.cpsr.mode = .svc ∧ t.cpsr.i = true ∧ t.cpsr.f = true) ∧
    (t.spsrSvc.mode = .svc ∧ t.spsrSvc.i = true ∧ t.spsrSvc.f = true)

/-! ### Invariants -/

/-- R23, R32, R292, R293: every CPU step keeps the invariant: R15 a multiple of 4 below 2^26, the memories and the VIDC
registers canonical and within their bounds. -/
def Obligations.StepKeepsInvariant : Prop :=
  ∀ s t : State, s.Inv → step s = .next t → t.Inv

/-- Every other input event keeps the invariant too, and `power_on` establishes it. -/
def Obligations.EventsKeepInvariant : Prop :=
  (∀ (e : Event) (s t : State), s.Inv → (∀ q m, e ≠ .powerOn q m) → applyEvent e s = .next t → t.Inv) ∧
  ∀ (q : Config.Params) (image : Memory), q.wf → image.wf = true → Store.below Config.romSize image = true →
    (powerOn q image).Inv

/-- The state after reset satisfies the invariant. -/
def Obligations.ResetSatisfiesInvariant : Prop := State.reset.Inv

/-- R79, R4, R72: no step changes ROM or a parameter, and boot mode never begins again. -/
def Obligations.RomAndBootMode : Prop :=
  ∀ s t : State, step s = .next t →
    t.rom = s.rom ∧ t.params = s.params ∧ (s.isBootMode = false → t.isBootMode = false)

/-! ### The router -/

/-- R62, R63, R64, R65, R67, R68, R74: where a byte is read from, in the order of the decode table, and what the read
reports, for every address that is not a device's: only an address of no row reports anything. -/
def Obligations.DecodeOrder : Prop :=
  ∀ (s : State) (addr : Word), s.params.wf →
    let a := addr.toNat % 2 ^ 26
    ¬(0x03200000 ≤ a ∧ a < 0x03600000) →
    (s.readByte addr, s.readByteDiags addr) =
      if s.isBootMode = true ∧ a < 0x00200000 then (s.rom.read a, [])
      else if 0x02000000 ≤ a ∧ a < 0x02200000 then (s.rom.read (a - 0x02000000), [])
      else if a < s.params.ramSize then (s.ram.read a, [])
      else if s.params.romBase ≤ a ∧ a < s.params.romBase + 0x00200000 then (s.rom.read (a - s.params.romBase), [])
      else (0xFF#8, [.invalidRead (addr &&& 0x03FFFFFF#32)])

/-- R69, R70: outside the devices a word is its four bytes, the lowest address least significant, and a misaligned word
read is the aligned word rotated right by 8 bits for each byte of misalignment. A word read reports what a byte read of
the same address reports (`DecodeOrder`): nothing, or the one invalid access. -/
def Obligations.WordsAreLittleEndian : Prop :=
  ∀ (s : State) (addr : Word), s.params.wf → addr.toNat % 4 = 0 →
    ¬(0x03200000 ≤ addr.toNat % 2 ^ 26 ∧ addr.toNat % 2 ^ 26 < 0x03600000) →
    let w := s.readByte (addr + 3#32) ++ s.readByte (addr + 2#32) ++ s.readByte (addr + 1#32) ++ s.readByte addr
    s.readWord addr = w ∧ s.readWord (addr + 1#32) = w.rotateRight 8 ∧ s.readWord (addr + 2#32) = w.rotateRight 16 ∧
      s.readWord (addr + 3#32) = w.rotateRight 24 ∧
      ∀ x ∈ [addr, addr + 1#32, addr + 2#32, addr + 3#32], s.readWordDiags x = s.readByteDiags x

/-- R79, R71: a word written to RAM reads back, rotated when the address is misaligned. -/
def Obligations.RamRoundTrip : Prop :=
  ∀ (s : State) (addr v : Word), s.ram.wf = true → s.region (addr.toNat % 2 ^ 26 / 4 * 4) = .ram →
    (s.writeWord addr v).region (addr.toNat % 2 ^ 26 / 4 * 4) = .ram ∧
    (s.writeWord addr v).readWord addr = v.rotateRight (8 * (addr.toNat % 4))

/-- R63, R64, R67, R70, R71, R74, R75: where the decode order finds the low mirror, the alternate mirror or the ROM's own
range, whose first address is `first`, bytes and words are read from ROM and nothing is reported, and a write is dropped
with a diagnostic: RAM, ROM and the devices stay. A word write there may still be at the boot latch (R72). -/
def Obligations.RomRange : Prop :=
  ∀ (s : State) (addr v : Word) (b : Byte) (first : Nat), s.params.wf →
    let a := addr.toNat % 2 ^ 26
    (s.isBootMode = true ∧ a < 0x00200000 ∧ first = 0) ∨
      (0x02000000 ≤ a ∧ a < 0x02200000 ∧ first = 0x02000000) ∨
      (¬(s.isBootMode = true ∧ a < 0x00200000) ∧ ¬(0x02000000 ≤ a ∧ a < 0x02200000) ∧ ¬a < s.params.ramSize ∧
        ¬(0x03200000 ≤ a ∧ a < 0x03600000) ∧ s.params.romBase ≤ a ∧ a < s.params.romBase + 0x00200000 ∧
        first = s.params.romBase) →
    s.readByte addr = s.rom.read (a - first) ∧ s.readByteDiags addr = [] ∧
    s.readWord addr =
      (s.rom.read (a / 4 * 4 + 3 - first) ++ s.rom.read (a / 4 * 4 + 2 - first) ++
        s.rom.read (a / 4 * 4 + 1 - first) ++ s.rom.read (a / 4 * 4 - first)).rotateRight (8 * (a % 4)) ∧
    s.readWordDiags addr = [] ∧
    s.writeByte addr b = { s with diags := s.diags ++ [.romWrite (addr &&& 0x03FFFFFF#32) (0#24 ++ b)] } ∧
    s.writeWord addr v =
      { s with
        diags := s.diags ++ [.romWrite (addr &&& 0x03FFFFFF#32) v]
        isBootMode := s.isBootMode && decide (a / 4 * 4 ≠ s.params.bootLatch) }

/-- R68: an address of no row of the decode order reads all-ones and drops writes, each with a diagnostic and nothing
else; a word write there may still be at the boot latch (R72). With the default parameters these are the addresses that
R68 lists. -/
def Obligations.UnmappedAddresses : Prop :=
  (∀ (s : State) (addr v : Word) (b : Byte), s.params.wf →
    let a := addr.toNat % 2 ^ 26
    ¬(s.isBootMode = true ∧ a < 0x00200000) → ¬(0x02000000 ≤ a ∧ a < 0x02200000) → ¬a < s.params.ramSize →
    ¬(0x03200000 ≤ a ∧ a < 0x03600000) → ¬(s.params.romBase ≤ a ∧ a < s.params.romBase + 0x00200000) →
    s.readWord addr = 0xFFFFFFFF#32 ∧ s.readWordDiags addr = [.invalidRead (addr &&& 0x03FFFFFF#32)] ∧
    s.readByte addr = 0xFF#8 ∧ s.readByteDiags addr = [.invalidRead (addr &&& 0x03FFFFFF#32)] ∧
    s.writeByte addr b = { s with diags := s.diags ++ [.invalidWrite (addr &&& 0x03FFFFFF#32) (0#24 ++ b)] } ∧
    s.writeWord addr v =
      { s with
        diags := s.diags ++ [.invalidWrite (addr &&& 0x03FFFFFF#32) v]
        isBootMode := s.isBootMode && decide (a / 4 * 4 ≠ s.params.bootLatch) }) ∧
  ∀ (s : State) (addr : Word), s.params.ramSize = 0x00400000 → s.params.romBase = 0x03800000 →
    let a := addr.toNat % 2 ^ 26
    (s.region a = .unmapped ↔
      0x00400000 ≤ a ∧ a < 0x02000000 ∨ 0x02200000 ≤ a ∧ a < 0x03200000 ∨ 0x03600000 ≤ a ∧ a < 0x03800000 ∨
        0x03A00000 ≤ a ∧ a < 0x04000000)

/-! ### The IOC and the VIDC port -/

/-- R272, R273: the status of a bank and the two lines are functions of request and mask. -/
def Obligations.StatusAndLines : Prop :=
  ∀ d : Ioc,
    d.read 7 = some (d.irqA.request &&& d.irqA.mask) ∧ d.read 10 = some (d.irqB.request &&& d.irqB.mask) ∧
    d.read 13 = some (d.fiq.request &&& d.fiq.mask) ∧
    (d.irqLine = true ↔ d.irqA.request &&& d.irqA.mask ≠ 0#8 ∨ d.irqB.request &&& d.irqB.mask ≠ 0#8) ∧
    (d.fiqLine = true ↔ d.fiq.request &&& d.fiq.mask ≠ 0#8)

/-- R66, R70, R74, R76, R270, R272, R276, R280, R287: what a word and a byte read see, and what they report, at every IOC
address. The register is the one of the word the address lies in; a misaligned word read rotates it; the command offsets
and every offset from 16 on are invalid. -/
def Obligations.IocReads : Prop :=
  ∀ (s : State) (addr : Word) (k low : Nat), s.params.wf → k < 0x80000 → low < 4 →
    addr.toNat % 2 ^ 26 = 0x03200000 + 4 * k + low →
    let register : Option Byte :=
      match k with
      | 0 => some s.ioc.control
      | 1 => some (s.ioc.t0.latchedRead.extractLsb' 0 8)
      | 2 => some (s.ioc.t0.latchedRead.extractLsb' 8 8)
      | 3 => some (s.ioc.t1.latchedRead.extractLsb' 0 8)
      | 4 => some (s.ioc.t1.latchedRead.extractLsb' 8 8)
      | 7 => some (s.ioc.irqA.request &&& s.ioc.irqA.mask)
      | 8 => some s.ioc.irqA.request
      | 9 => some s.ioc.irqA.mask
      | 10 => some (s.ioc.irqB.request &&& s.ioc.irqB.mask)
      | 11 => some s.ioc.irqB.request
      | 12 => some s.ioc.irqB.mask
      | 13 => some (s.ioc.fiq.request &&& s.ioc.fiq.mask)
      | 14 => some s.ioc.fiq.request
      | 15 => some s.ioc.fiq.mask
      | _ => none
    match register with
    | some x =>
      s.readWord addr = (0#24 ++ x).rotateRight (8 * low) ∧ s.readWordDiags addr = [] ∧
      s.readByte addr = x ∧ s.readByteDiags addr = []
    | none =>
      s.readWord addr = 0xFFFFFFFF#32 ∧ s.readWordDiags addr = [.invalidRead (addr &&& 0x03FFFFFF#32)] ∧
      s.readByte addr = 0xFF#8 ∧ s.readByteDiags addr = [.invalidRead (addr &&& 0x03FFFFFF#32)]

/-- R66, R71, R75, R76, R270, R274, R275, R276, R277, R279, R282, R287: what a word and a byte store do at every IOC
address: one register takes the low byte of the data, or the store is dropped with a diagnostic, and nothing else of the
machine changes. A word store there may still be at the boot latch (R72). -/
def Obligations.IocWrites : Prop :=
  ∀ (s : State) (addr v : Word) (b : Byte) (k low : Nat), s.params.wf → k < 0x80000 → low < 4 →
    addr.toNat % 2 ^ 26 = 0x03200000 + 4 * k + low →
    let d := s.ioc
    let stored : Byte → Option Ioc := fun x =>
      match k with
      | 0 => some { d with control := x }
      | 1 => some { d with t0 := { d.t0 with latch := d.t0.latch.extractLsb' 8 8 ++ x } }
      | 2 => some { d with t0 := { d.t0 with latch := x ++ d.t0.latch.extractLsb' 0 8 } }
      | 3 => some { d with t1 := { d.t1 with latch := d.t1.latch.extractLsb' 8 8 ++ x } }
      | 4 => some { d with t1 := { d.t1 with latch := x ++ d.t1.latch.extractLsb' 0 8 } }
      | 5 => some { d with t0 := { d.t0 with latchedRead := d.t0.counter, counter := d.t0.latch } }
      | 6 => some { d with t1 := { d.t1 with latchedRead := d.t1.counter, counter := d.t1.latch } }
      | 8 => some { d with irqA := { d.irqA with request := d.irqA.request &&& ~~~x } }
      | 9 => some { d with irqA := { d.irqA with mask := x } }
      | 11 => some { d with irqB := { d.irqB with request := d.irqB.request &&& ~~~x } }
      | 12 => some { d with irqB := { d.irqB with mask := x } }
      | 14 => some { d with fiq := { d.fiq with request := d.fiq.request &&& ~~~x } }
      | 15 => some { d with fiq := { d.fiq with mask := x } }
      | _ => none
    let boot := s.isBootMode && decide (0x03200000 + 4 * k ≠ s.params.bootLatch)
    (s.writeWord addr v =
      match stored (v.extractLsb' 0 8) with
      | some e => { s with ioc := e, isBootMode := boot }
      | none => { s with diags := s.diags ++ [.invalidWrite (addr &&& 0x03FFFFFF#32) v], isBootMode := boot }) ∧
    s.writeByte addr b =
      match stored b with
      | some e => { s with ioc := e }
      | none => { s with diags := s.diags ++ [.invalidWrite (addr &&& 0x03FFFFFF#32) (0#24 ++ b)] }

/-- R281: a tick reloads a timer that reaches or crosses zero and sets its IRQ-A bit; otherwise the timer counts down. -/
def Obligations.TimerTick : Prop :=
  ∀ (s : State) (n : Nat),
    let t := iocTick n s
    let fires0 := 0 < n ∧ s.ioc.t0.counter.toNat ≤ n
    let fires1 := 0 < n ∧ s.ioc.t1.counter.toNat ≤ n
    (fires0 → t.ioc.t0.counter = s.ioc.t0.latch) ∧ (fires1 → t.ioc.t1.counter = s.ioc.t1.latch) ∧
    (¬fires0 → t.ioc.t0.counter.toNat + n = s.ioc.t0.counter.toNat) ∧
    (¬fires1 → t.ioc.t1.counter.toNat + n = s.ioc.t1.counter.toNat) ∧
    (∀ j, j < 8 → (t.ioc.irqA.request.getLsbD j = true ↔
      s.ioc.irqA.request.getLsbD j = true ∨ (j = 5 ∧ fires0) ∨ (j = 6 ∧ fires1))) ∧
    (t.ioc.t0.latch = s.ioc.t0.latch ∧ t.ioc.t0.latchedRead = s.ioc.t0.latchedRead ∧
      t.ioc.t1.latch = s.ioc.t1.latch ∧ t.ioc.t1.latchedRead = s.ioc.t1.latchedRead) ∧
    t.ioc.irqA.mask = s.ioc.irqA.mask ∧ t.ioc.irqB = s.ioc.irqB ∧ t.ioc.fiq = s.ioc.fiq ∧
    t.ioc.control = s.ioc.control ∧ { t with ioc := s.ioc } = s

/-- R262, R281, R284, R257: a tick that makes timer 0 cross zero, its mask bit set and I clear, has the next step enter
IRQ, whatever the instruction at R15. -/
def Obligations.TimerInterrupts : Prop :=
  ∀ (s : State) (n : Nat), 0 < n → s.ioc.t0.counter.toNat ≤ n → s.ioc.irqA.mask.getLsbD 5 = true →
    s.cpsr.i = false → s.ioc.fiqLine = false →
    ∃ t, step (iocTick n s) = .next t ∧ t.cpsr.mode = .irq ∧ t.cpsr.i = true ∧ t.spsrIrq = s.cpsr ∧
      t.pc = 0x00000018#32 ∧ t.regs.get .r14irq = s.pc + 4#32

/-- R285, R286: `vflyback` and `ioc_assert` set request bits and change nothing else. -/
def Obligations.RequestEvents : Prop :=
  ∀ (s : State) (bits : BitVec 8),
    vflyback s = iocAssert .bankA 0x08#8 s ∧
    iocAssert .bankA bits s =
      { s with ioc := { s.ioc with irqA := { s.ioc.irqA with request := s.ioc.irqA.request ||| bits } } } ∧
    iocAssert .bankB bits s =
      { s with ioc := { s.ioc with irqB := { s.ioc.irqB with request := s.ioc.irqB.request ||| bits } } } ∧
    iocAssert .bankFiq bits s =
      { s with ioc := { s.ioc with fiq := { s.ioc.fiq with request := s.ioc.fiq.request ||| bits } } }

/-- R66, R70, R71, R74, R75, R76, R292, R293: the VIDC port at every one of its addresses. That the port keeps what is
stored to it is the model's reading (log 10: the VIDC is outside the block). A store to offset `k` of the 278 registers
leaves the 13 low bits of the data in a palette or colour register (`k < 260`) and all 32 in the others, a byte store
zero-extended, whatever the low address bits; no other register of the port and nothing else of the machine changes, but
that a word store at the boot latch ends boot mode (R72). A read gives the register, rotated or its low byte. From offset
278 on a read gives all-ones, a store is dropped, and both report the access. -/
def Obligations.PaletteWrites : Prop :=
  ∀ (s : State) (addr v : Word) (b : Byte) (k low : Nat), s.Inv → k < 0x80000 → low < 4 →
    addr.toNat % 2 ^ 26 = 0x03400000 + 4 * k + low →
    let port := fun (u : State) (j : Nat) => u.readWord (BitVec.ofNat 32 (0x03400000 + 4 * j))
    let boot := s.isBootMode && decide (0x03400000 + 4 * k ≠ s.params.bootLatch)
    (k < 278 →
      (∀ t x flag, (t, x, flag) ∈ [(s.writeWord addr v, if k < 260 then v &&& 0x1FFF#32 else v, boot),
          (s.writeByte addr b, 0#24 ++ b, s.isBootMode)] →
        port t k = x ∧ (∀ j, j < 278 → j ≠ k → port t j = port s j) ∧
        ({ s with vidc := t.vidc, isBootMode := flag } : State) = t) ∧
      s.readWord addr = (port s k).rotateRight (8 * low) ∧ s.readWordDiags addr = [] ∧
      s.readByte addr = (port s k).extractLsb' 0 8 ∧ s.readByteDiags addr = []) ∧
    (278 ≤ k →
      s.readWord addr = 0xFFFFFFFF#32 ∧ s.readWordDiags addr = [.invalidRead (addr &&& 0x03FFFFFF#32)] ∧
      s.readByte addr = 0xFF#8 ∧ s.readByteDiags addr = [.invalidRead (addr &&& 0x03FFFFFF#32)] ∧
      s.writeWord addr v =
        { s with diags := s.diags ++ [.invalidWrite (addr &&& 0x03FFFFFF#32) v], isBootMode := boot } ∧
      s.writeByte addr b = { s with diags := s.diags ++ [.invalidWrite (addr &&& 0x03FFFFFF#32) (0#24 ++ b)] })

/-! ### Reset -/

/-- R260, R321: `cpu_reset` zeroes every register, sets CPSR to I, F and SVC, saves nothing, and leaves memory, boot mode
and the devices as they were. What it leaves in the saved status registers is the model's choice (log 6). -/
def Obligations.CpuReset : Prop :=
  ∀ s : State,
    let t := cpuReset s
    (∀ q, t.regs.get q = 0#32) ∧
    t.cpsr = { n := false, z := false, c := false, v := false, i := true, f := true, mode := .svc } ∧
    s.MemoryKept t ∧ s.DevicesKept t

/-- R37, R288, R320: `power_on`: the CPU as after `cpu_reset`, boot mode on, the ROM image in place, the IOC zero, no VIDC
register set. -/
def Obligations.PowerOn : Prop :=
  ∀ (q : Config.Params) (image : Memory),
    let t := powerOn q image
    (∀ p, t.regs.get p = 0#32) ∧
    t.cpsr = { n := false, z := false, c := false, v := false, i := true, f := true, mode := .svc } ∧
    t.isBootMode = true ∧ t.rom = image ∧ t.params = q ∧ (∀ k, t.vidc.read k = 0#32) ∧
    t.ioc.control = 0#8 ∧ t.ioc.t0 = { latch := 0#16, counter := 0#16, latchedRead := 0#16 } ∧
    t.ioc.t1 = { latch := 0#16, counter := 0#16, latchedRead := 0#16 } ∧
    t.ioc.irqA = { request := 0#8, mask := 0#8 } ∧ t.ioc.irqB = { request := 0#8, mask := 0#8 } ∧
    t.ioc.fiq = { request := 0#8, mask := 0#8 } ∧ t.ioc.irqLine = false ∧ t.ioc.fiqLine = false
end

