-- ==== Sys2Proof/Laws/Memory.lean ====
section
/-! SUPPORT. The laws of sparse stores: read after write, the canonical form is kept, equal contents are equal lists. -/

namespace Sys2Proof.Machine

variable {w : Nat}

@[simp] theorem Store.read_nil (a : Nat) : Store.read ([] : Store w) a = 0 := rfl

theorem Store.wf_tail {k : Nat} {v : BitVec w} {m : Store w} (h : Store.wf ((k, v) :: m) = true) :
    Store.wf m = true := by
  simp only [Store.wf, Bool.and_eq_true] at h
  exact h.2

theorem Store.wf_head {k : Nat} {v : BitVec w} {m : Store w} (h : Store.wf ((k, v) :: m) = true) :
    v ≠ 0 ∧ ∀ c ∈ m, k < c.1 := by
  simp only [Store.wf, Bool.and_eq_true, bne_iff_ne, ne_eq, List.all_eq_true, decide_eq_true_eq] at h
  exact h.1

theorem Store.wf_cons {k : Nat} {v : BitVec w} {m : Store w} (hv : v ≠ 0) (hk : ∀ c ∈ m, k < c.1)
    (hm : Store.wf m = true) : Store.wf ((k, v) :: m) = true := by
  simp only [Store.wf, Bool.and_eq_true, bne_iff_ne, ne_eq, List.all_eq_true, decide_eq_true_eq]
  exact ⟨⟨hv, hk⟩, hm⟩

/-- A key below every listed key reads as zero. -/
theorem Store.read_below {m : Store w} {a : Nat} (h : ∀ c ∈ m, a < c.1) : m.read a = 0 := by
  induction m with
  | nil => rfl
  | cons c rest ih =>
    obtain ⟨k, v⟩ := c
    have hk : k ≠ a := (h (k, v) (by simp)).ne'
    simp only [Store.read, if_neg hk]
    exact ih fun c hc => h c (by simp [hc])

/-- A write changes no key but its own. -/
theorem Store.read_write_other (m : Store w) {a x : Nat} (v : BitVec w) (h : x ≠ a) :
    (m.write a v).read x = m.read x := by
  induction m with
  | nil => unfold Store.write; split <;> simp [Store.read, h.symm]
  | cons c rest ih =>
    obtain ⟨k, y⟩ := c
    simp only [Store.write]
    split
    · split <;> simp [Store.read, h.symm]
    · split
      · subst_vars; split <;> simp [Store.read, h.symm]
      · simp only [Store.read, ih]

/-- A read after a write to the same key gives the value written. -/
theorem Store.read_write_same (m : Store w) (a : Nat) (v : BitVec w) (h : Store.wf m = true) :
    (m.write a v).read a = v := by
  induction m with
  | nil => unfold Store.write; split <;> simp_all [Store.read]
  | cons c rest ih =>
    obtain ⟨k, y⟩ := c
    have hk := (Store.wf_head h).2
    simp only [Store.write]
    split
    · next hlt =>
      split
      · next hv =>
        subst hv
        exact Store.read_below (by
          intro c hc
          rcases List.mem_cons.mp hc with rfl | hc
          · exact hlt
          · exact hlt.trans (hk c hc))
      · simp [Store.read]
    · split
      · next heq =>
        subst heq
        split
        · next hv => subst hv; exact Store.read_below hk
        · simp [Store.read]
      · next hne =>
        simp only [Store.read, if_neg (fun e : k = a => hne e.symm)]
        exact ih (Store.wf_tail h)

/-- A write adds no key but its own. -/
theorem Store.mem_write {m : Store w} {a : Nat} {v : BitVec w} {c : Nat × BitVec w} (h : c ∈ m.write a v) :
    c = (a, v) ∧ v ≠ 0 ∨ c ∈ m := by
  induction m with
  | nil =>
    unfold Store.write at h
    split at h <;> simp_all
  | cons d rest ih =>
    obtain ⟨k, y⟩ := d
    simp only [Store.write] at h
    split at h
    · split at h <;> simp_all
    · split at h
      · split at h <;> simp_all <;> tauto
      · rcases List.mem_cons.mp h with rfl | h
        · exact .inr (by simp)
        · exact (ih h).imp id fun hm => by simp [hm]

/-- A write keeps the canonical form. -/
theorem Store.write_wf (m : Store w) (a : Nat) (v : BitVec w) (h : Store.wf m = true) :
    Store.wf (m.write a v) = true := by
  induction m with
  | nil =>
    unfold Store.write
    split
    · rfl
    · next hv => exact Store.wf_cons hv (by simp) rfl
  | cons c rest ih =>
    obtain ⟨k, y⟩ := c
    obtain ⟨hy, hk⟩ := Store.wf_head h
    simp only [Store.write]
    split
    · next hlt =>
      split
      · exact h
      · next hv =>
        refine Store.wf_cons hv (fun c hc => ?_) h
        rcases List.mem_cons.mp hc with rfl | hc
        · exact hlt
        · exact hlt.trans (hk c hc)
    · next hge =>
      split
      · next heq =>
        subst heq
        split
        · exact Store.wf_tail h
        · next hv => exact Store.wf_cons hv hk (Store.wf_tail h)
      · next hne =>
        refine Store.wf_cons hy (fun c hc => ?_) (ih (Store.wf_tail h))
        rcases Store.mem_write hc with ⟨rfl, -⟩ | hc
        · omega
        · exact hk c hc

/-- A write below the bound keeps the bound. -/
theorem Store.write_below {bound : Nat} (m : Store w) {a : Nat} (v : BitVec w) (h : Store.below bound m = true)
    (ha : a < bound) : Store.below bound (m.write a v) = true := by
  simp only [Store.below, List.all_eq_true, decide_eq_true_eq] at h ⊢
  intro c hc
  rcases Store.mem_write hc with ⟨rfl, -⟩ | hc
  · exact ha
  · exact h c hc

/-- In canonical form, equal contents are equal lists. -/
theorem Store.ext_of_wf {m n : Store w} (hm : Store.wf m = true) (hn : Store.wf n = true)
    (h : ∀ a, m.read a = n.read a) : m = n := by
  induction m generalizing n with
  | nil =>
    cases n with
    | nil => rfl
    | cons c rest =>
      have := h c.1
      simp only [Store.read, if_true] at this
      exact absurd this.symm (Store.wf_head hn).1
  | cons c rest ih =>
    obtain ⟨k, v⟩ := c
    obtain ⟨hv, hk⟩ := Store.wf_head hm
    cases n with
    | nil =>
      have := h k
      simp only [Store.read, if_true] at this
      exact absurd this hv
    | cons d rest' =>
      obtain ⟨k', v'⟩ := d
      obtain ⟨hv', hk'⟩ := Store.wf_head hn
      have hkk : k = k' := by
        rcases Nat.lt_trichotomy k k' with hlt | heq | hlt
        · have := h k
          rw [Store.read_below (m := (k', v') :: rest') (by
            intro c hc
            rcases List.mem_cons.mp hc with rfl | hc
            · exact hlt
            · exact hlt.trans (hk' c hc))] at this
          simp only [Store.read, if_true] at this
          exact absurd this hv
        · exact heq
        · have := h k'
          rw [Store.read_below (m := (k, v) :: rest) (by
            intro c hc
            rcases List.mem_cons.mp hc with rfl | hc
            · exact hlt
            · exact hlt.trans (hk c hc))] at this
          simp only [Store.read, if_true] at this
          exact absurd this.symm hv'
      subst hkk
      have hvv : v = v' := by simpa [Store.read] using h k
      subst hvv
      congr 1
      refine ih (Store.wf_tail hm) (Store.wf_tail hn) fun a => ?_
      by_cases ha : k = a
      · subst ha; rw [Store.read_below hk, Store.read_below hk']
      · simpa [Store.read, ha] using h a

/-! ### Memories -/

theorem Memory.write_wf (m : Memory) (a : Nat) (b : Byte) (h : m.wf = true) : (m.write a b).wf = true :=
  Store.write_wf m a b h

theorem Memory.read_write_same (m : Memory) (a : Nat) (b : Byte) (h : m.wf = true) : (m.write a b).read a = b :=
  Store.read_write_same m a b h

theorem Memory.read_write_other (m : Memory) {a x : Nat} (b : Byte) (h : x ≠ a) :
    (m.write a b).read x = m.read x := Store.read_write_other m b h

theorem Memory.writeWord_wf (m : Memory) (a : Nat) (v : Word) (h : m.wf = true) : (m.writeWord a v).wf = true :=
  Memory.write_wf _ _ _ (Memory.write_wf _ _ _ (Memory.write_wf _ _ _ (Memory.write_wf _ _ _ h)))

/-- A word write leaves every byte outside its four alone. -/
theorem Memory.read_writeWord_other (m : Memory) {a x : Nat} (v : Word) (h : x < a ∨ a + 4 ≤ x) :
    (m.writeWord a v).read x = m.read x := by
  unfold Memory.writeWord
  rw [Memory.read_write_other _ _ (by omega), Memory.read_write_other _ _ (by omega),
    Memory.read_write_other _ _ (by omega), Memory.read_write_other _ _ (by omega)]

/-- The four bytes a word write leaves, in little-endian order. -/
theorem Memory.read_writeWord_byte (m : Memory) (a : Nat) (v : Word) (h : m.wf = true) :
    (m.writeWord a v).read a = v.extractLsb' 0 8 ∧ (m.writeWord a v).read (a + 1) = v.extractLsb' 8 8 ∧
      (m.writeWord a v).read (a + 2) = v.extractLsb' 16 8 ∧ (m.writeWord a v).read (a + 3) = v.extractLsb' 24 8 := by
  have h1 := Memory.write_wf m a (v.extractLsb' 0 8) h
  have h2 := Memory.write_wf _ (a + 1) (v.extractLsb' 8 8) h1
  have h3 := Memory.write_wf _ (a + 2) (v.extractLsb' 16 8) h2
  unfold Memory.writeWord
  refine ⟨?_, ?_, ?_, Memory.read_write_same _ _ _ h3⟩
  · rw [Memory.read_write_other _ _ (by omega), Memory.read_write_other _ _ (by omega),
      Memory.read_write_other _ _ (by omega), Memory.read_write_same _ _ _ h]
  · rw [Memory.read_write_other _ _ (by omega), Memory.read_write_other _ _ (by omega),
      Memory.read_write_same _ _ _ h1]
  · rw [Memory.read_write_other _ _ (by omega), Memory.read_write_same _ _ _ h2]

/-- The bytes of a word put together again. -/
theorem word_of_bytes (v : Word) :
    v.extractLsb' 24 8 ++ v.extractLsb' 16 8 ++ v.extractLsb' 8 8 ++ v.extractLsb' 0 8 = v := by
  apply BitVec.eq_of_getLsbD_eq
  intro i hi
  simp only [BitVec.getLsbD_append, BitVec.getLsbD_extractLsb']
  grind

/-- A word read after a word write to the same address gives the word written. -/
theorem Memory.readWord_writeWord (m : Memory) (a : Nat) (v : Word) (h : m.wf = true) :
    (m.writeWord a v).readWord a = v := by
  obtain ⟨h0, h1, h2, h3⟩ := Memory.read_writeWord_byte m a v h
  unfold Memory.readWord
  rw [h0, h1, h2, h3]
  exact word_of_bytes v

theorem Memory.writeWord_below {bound : Nat} (m : Memory) {a : Nat} (v : Word) (h : Store.below bound m = true)
    (ha : a + 3 < bound) : Store.below bound (m.writeWord a v) = true :=
  Store.write_below _ _ (Store.write_below _ _ (Store.write_below _ _ (Store.write_below _ _ h (by omega)) (by omega))
    (by omega)) ha

end Sys2Proof.Machine
end

