-- ==== Sys2Proof/Laws/State.lean ====
section
/-! SUPPORT. One lemma per field per update of the state: what each named operation leaves unchanged, so that no later
proof unfolds a record update. -/

namespace Sys2Proof.Machine

@[simp] theorem setPhys_regs (s : State) (p : PhysReg) (v : Word) : (s.setPhys p v).regs = s.regs.set p v := rfl

@[simp] theorem setPhys_cpsr (s : State) (p : PhysReg) (v : Word) : (s.setPhys p v).cpsr = s.cpsr := rfl

@[simp] theorem setPhys_spsrFiq (s : State) (p : PhysReg) (v : Word) : (s.setPhys p v).spsrFiq = s.spsrFiq := rfl

@[simp] theorem setPhys_spsrIrq (s : State) (p : PhysReg) (v : Word) : (s.setPhys p v).spsrIrq = s.spsrIrq := rfl

@[simp] theorem setPhys_spsrSvc (s : State) (p : PhysReg) (v : Word) : (s.setPhys p v).spsrSvc = s.spsrSvc := rfl

@[simp] theorem setPhys_isBootMode (s : State) (p : PhysReg) (v : Word) : (s.setPhys p v).isBootMode = s.isBootMode := rfl

@[simp] theorem setPhys_ram (s : State) (p : PhysReg) (v : Word) : (s.setPhys p v).ram = s.ram := rfl

@[simp] theorem setPhys_rom (s : State) (p : PhysReg) (v : Word) : (s.setPhys p v).rom = s.rom := rfl

@[simp] theorem setPhys_ioc (s : State) (p : PhysReg) (v : Word) : (s.setPhys p v).ioc = s.ioc := rfl

@[simp] theorem setPhys_vidc (s : State) (p : PhysReg) (v : Word) : (s.setPhys p v).vidc = s.vidc := rfl

@[simp] theorem setPhys_params (s : State) (p : PhysReg) (v : Word) : (s.setPhys p v).params = s.params := rfl

@[simp] theorem setPhys_diags (s : State) (p : PhysReg) (v : Word) : (s.setPhys p v).diags = s.diags := rfl

@[simp] theorem setPc_regs (s : State) (v : Word) : (s.setPc v).regs = s.regs.set .r15 v := rfl

@[simp] theorem setPc_cpsr (s : State) (v : Word) : (s.setPc v).cpsr = s.cpsr := rfl

@[simp] theorem setPc_spsrFiq (s : State) (v : Word) : (s.setPc v).spsrFiq = s.spsrFiq := rfl

@[simp] theorem setPc_spsrIrq (s : State) (v : Word) : (s.setPc v).spsrIrq = s.spsrIrq := rfl

@[simp] theorem setPc_spsrSvc (s : State) (v : Word) : (s.setPc v).spsrSvc = s.spsrSvc := rfl

@[simp] theorem setPc_isBootMode (s : State) (v : Word) : (s.setPc v).isBootMode = s.isBootMode := rfl

@[simp] theorem setPc_ram (s : State) (v : Word) : (s.setPc v).ram = s.ram := rfl

@[simp] theorem setPc_rom (s : State) (v : Word) : (s.setPc v).rom = s.rom := rfl

@[simp] theorem setPc_ioc (s : State) (v : Word) : (s.setPc v).ioc = s.ioc := rfl

@[simp] theorem setPc_vidc (s : State) (v : Word) : (s.setPc v).vidc = s.vidc := rfl

@[simp] theorem setPc_params (s : State) (v : Word) : (s.setPc v).params = s.params := rfl

@[simp] theorem setPc_diags (s : State) (v : Word) : (s.setPc v).diags = s.diags := rfl

@[simp] theorem writeReg_regs (s : State) (i : Reg) (v : Word) : (s.writeReg i v).regs = s.regs.set (phys s.cpsr.mode i) v := rfl

@[simp] theorem writeReg_cpsr (s : State) (i : Reg) (v : Word) : (s.writeReg i v).cpsr = s.cpsr := rfl

@[simp] theorem writeReg_spsrFiq (s : State) (i : Reg) (v : Word) : (s.writeReg i v).spsrFiq = s.spsrFiq := rfl

@[simp] theorem writeReg_spsrIrq (s : State) (i : Reg) (v : Word) : (s.writeReg i v).spsrIrq = s.spsrIrq := rfl

@[simp] theorem writeReg_spsrSvc (s : State) (i : Reg) (v : Word) : (s.writeReg i v).spsrSvc = s.spsrSvc := rfl

@[simp] theorem writeReg_isBootMode (s : State) (i : Reg) (v : Word) : (s.writeReg i v).isBootMode = s.isBootMode := rfl

@[simp] theorem writeReg_ram (s : State) (i : Reg) (v : Word) : (s.writeReg i v).ram = s.ram := rfl

@[simp] theorem writeReg_rom (s : State) (i : Reg) (v : Word) : (s.writeReg i v).rom = s.rom := rfl

@[simp] theorem writeReg_ioc (s : State) (i : Reg) (v : Word) : (s.writeReg i v).ioc = s.ioc := rfl

@[simp] theorem writeReg_vidc (s : State) (i : Reg) (v : Word) : (s.writeReg i v).vidc = s.vidc := rfl

@[simp] theorem writeReg_params (s : State) (i : Reg) (v : Word) : (s.writeReg i v).params = s.params := rfl

@[simp] theorem writeReg_diags (s : State) (i : Reg) (v : Word) : (s.writeReg i v).diags = s.diags := rfl

@[simp] theorem writeUser_regs (s : State) (i : Reg) (v : Word) : (s.writeUser i v).regs = s.regs.set (phys .usr i) v := rfl

@[simp] theorem writeUser_cpsr (s : State) (i : Reg) (v : Word) : (s.writeUser i v).cpsr = s.cpsr := rfl

@[simp] theorem writeUser_spsrFiq (s : State) (i : Reg) (v : Word) : (s.writeUser i v).spsrFiq = s.spsrFiq := rfl

@[simp] theorem writeUser_spsrIrq (s : State) (i : Reg) (v : Word) : (s.writeUser i v).spsrIrq = s.spsrIrq := rfl

@[simp] theorem writeUser_spsrSvc (s : State) (i : Reg) (v : Word) : (s.writeUser i v).spsrSvc = s.spsrSvc := rfl

@[simp] theorem writeUser_isBootMode (s : State) (i : Reg) (v : Word) : (s.writeUser i v).isBootMode = s.isBootMode := rfl

@[simp] theorem writeUser_ram (s : State) (i : Reg) (v : Word) : (s.writeUser i v).ram = s.ram := rfl

@[simp] theorem writeUser_rom (s : State) (i : Reg) (v : Word) : (s.writeUser i v).rom = s.rom := rfl

@[simp] theorem writeUser_ioc (s : State) (i : Reg) (v : Word) : (s.writeUser i v).ioc = s.ioc := rfl

@[simp] theorem writeUser_vidc (s : State) (i : Reg) (v : Word) : (s.writeUser i v).vidc = s.vidc := rfl

@[simp] theorem writeUser_params (s : State) (i : Reg) (v : Word) : (s.writeUser i v).params = s.params := rfl

@[simp] theorem writeUser_diags (s : State) (i : Reg) (v : Word) : (s.writeUser i v).diags = s.diags := rfl

@[simp] theorem advance_regs (s : State) : (s.advance).regs = s.regs.set .r15 (s.pc + 4) := rfl

@[simp] theorem advance_cpsr (s : State) : (s.advance).cpsr = s.cpsr := rfl

@[simp] theorem advance_spsrFiq (s : State) : (s.advance).spsrFiq = s.spsrFiq := rfl

@[simp] theorem advance_spsrIrq (s : State) : (s.advance).spsrIrq = s.spsrIrq := rfl

@[simp] theorem advance_spsrSvc (s : State) : (s.advance).spsrSvc = s.spsrSvc := rfl

@[simp] theorem advance_isBootMode (s : State) : (s.advance).isBootMode = s.isBootMode := rfl

@[simp] theorem advance_ram (s : State) : (s.advance).ram = s.ram := rfl

@[simp] theorem advance_rom (s : State) : (s.advance).rom = s.rom := rfl

@[simp] theorem advance_ioc (s : State) : (s.advance).ioc = s.ioc := rfl

@[simp] theorem advance_vidc (s : State) : (s.advance).vidc = s.vidc := rfl

@[simp] theorem advance_params (s : State) : (s.advance).params = s.params := rfl

@[simp] theorem advance_diags (s : State) : (s.advance).diags = s.diags := rfl

@[simp] theorem setCpsr_regs (s : State) (p : Psr) : (s.setCpsr p).regs = s.regs := rfl

@[simp] theorem setCpsr_cpsr (s : State) (p : Psr) : (s.setCpsr p).cpsr = p := rfl

@[simp] theorem setCpsr_spsrFiq (s : State) (p : Psr) : (s.setCpsr p).spsrFiq = s.spsrFiq := rfl

@[simp] theorem setCpsr_spsrIrq (s : State) (p : Psr) : (s.setCpsr p).spsrIrq = s.spsrIrq := rfl

@[simp] theorem setCpsr_spsrSvc (s : State) (p : Psr) : (s.setCpsr p).spsrSvc = s.spsrSvc := rfl

@[simp] theorem setCpsr_isBootMode (s : State) (p : Psr) : (s.setCpsr p).isBootMode = s.isBootMode := rfl

@[simp] theorem setCpsr_ram (s : State) (p : Psr) : (s.setCpsr p).ram = s.ram := rfl

@[simp] theorem setCpsr_rom (s : State) (p : Psr) : (s.setCpsr p).rom = s.rom := rfl

@[simp] theorem setCpsr_ioc (s : State) (p : Psr) : (s.setCpsr p).ioc = s.ioc := rfl

@[simp] theorem setCpsr_vidc (s : State) (p : Psr) : (s.setCpsr p).vidc = s.vidc := rfl

@[simp] theorem setCpsr_params (s : State) (p : Psr) : (s.setCpsr p).params = s.params := rfl

@[simp] theorem setCpsr_diags (s : State) (p : Psr) : (s.setCpsr p).diags = s.diags := rfl

@[simp] theorem emit_regs (s : State) (ds : List Diag) : (s.emit ds).regs = s.regs := rfl

@[simp] theorem emit_cpsr (s : State) (ds : List Diag) : (s.emit ds).cpsr = s.cpsr := rfl

@[simp] theorem emit_spsrFiq (s : State) (ds : List Diag) : (s.emit ds).spsrFiq = s.spsrFiq := rfl

@[simp] theorem emit_spsrIrq (s : State) (ds : List Diag) : (s.emit ds).spsrIrq = s.spsrIrq := rfl

@[simp] theorem emit_spsrSvc (s : State) (ds : List Diag) : (s.emit ds).spsrSvc = s.spsrSvc := rfl

@[simp] theorem emit_isBootMode (s : State) (ds : List Diag) : (s.emit ds).isBootMode = s.isBootMode := rfl

@[simp] theorem emit_ram (s : State) (ds : List Diag) : (s.emit ds).ram = s.ram := rfl

@[simp] theorem emit_rom (s : State) (ds : List Diag) : (s.emit ds).rom = s.rom := rfl

@[simp] theorem emit_ioc (s : State) (ds : List Diag) : (s.emit ds).ioc = s.ioc := rfl

@[simp] theorem emit_vidc (s : State) (ds : List Diag) : (s.emit ds).vidc = s.vidc := rfl

@[simp] theorem emit_params (s : State) (ds : List Diag) : (s.emit ds).params = s.params := rfl

@[simp] theorem emit_diags (s : State) (ds : List Diag) : (s.emit ds).diags = s.diags ++ ds := rfl

@[simp] theorem storing_regs (s : State) (t : State) : (s.storing t).regs = s.regs := rfl

@[simp] theorem storing_cpsr (s : State) (t : State) : (s.storing t).cpsr = s.cpsr := rfl

@[simp] theorem storing_spsrFiq (s : State) (t : State) : (s.storing t).spsrFiq = s.spsrFiq := rfl

@[simp] theorem storing_spsrIrq (s : State) (t : State) : (s.storing t).spsrIrq = s.spsrIrq := rfl

@[simp] theorem storing_spsrSvc (s : State) (t : State) : (s.storing t).spsrSvc = s.spsrSvc := rfl

@[simp] theorem storing_isBootMode (s : State) (t : State) : (s.storing t).isBootMode = s.isBootMode := rfl

@[simp] theorem storing_ram (s : State) (t : State) : (s.storing t).ram = t.ram := rfl

@[simp] theorem storing_rom (s : State) (t : State) : (s.storing t).rom = s.rom := rfl

@[simp] theorem storing_ioc (s : State) (t : State) : (s.storing t).ioc = t.ioc := rfl

@[simp] theorem storing_vidc (s : State) (t : State) : (s.storing t).vidc = t.vidc := rfl

@[simp] theorem storing_params (s : State) (t : State) : (s.storing t).params = s.params := rfl

@[simp] theorem storing_diags (s : State) (t : State) : (s.storing t).diags = t.diags := rfl

@[simp] theorem latchBoot_regs (s : State) (aw : Nat) : (s.latchBoot aw).regs = s.regs := rfl

@[simp] theorem latchBoot_cpsr (s : State) (aw : Nat) : (s.latchBoot aw).cpsr = s.cpsr := rfl

@[simp] theorem latchBoot_spsrFiq (s : State) (aw : Nat) : (s.latchBoot aw).spsrFiq = s.spsrFiq := rfl

@[simp] theorem latchBoot_spsrIrq (s : State) (aw : Nat) : (s.latchBoot aw).spsrIrq = s.spsrIrq := rfl

@[simp] theorem latchBoot_spsrSvc (s : State) (aw : Nat) : (s.latchBoot aw).spsrSvc = s.spsrSvc := rfl

@[simp] theorem latchBoot_isBootMode (s : State) (aw : Nat) : (s.latchBoot aw).isBootMode = (s.isBootMode && !(aw == s.params.bootLatch)) := rfl

@[simp] theorem latchBoot_ram (s : State) (aw : Nat) : (s.latchBoot aw).ram = s.ram := rfl

@[simp] theorem latchBoot_rom (s : State) (aw : Nat) : (s.latchBoot aw).rom = s.rom := rfl

@[simp] theorem latchBoot_ioc (s : State) (aw : Nat) : (s.latchBoot aw).ioc = s.ioc := rfl

@[simp] theorem latchBoot_vidc (s : State) (aw : Nat) : (s.latchBoot aw).vidc = s.vidc := rfl

@[simp] theorem latchBoot_params (s : State) (aw : Nat) : (s.latchBoot aw).params = s.params := rfl

@[simp] theorem latchBoot_diags (s : State) (aw : Nat) : (s.latchBoot aw).diags = s.diags := rfl

@[simp] theorem writeWord_regs (s : State) (addr v : Word) : (s.writeWord addr v).regs = s.regs := rfl

@[simp] theorem writeWord_cpsr (s : State) (addr v : Word) : (s.writeWord addr v).cpsr = s.cpsr := rfl

@[simp] theorem writeWord_spsrFiq (s : State) (addr v : Word) : (s.writeWord addr v).spsrFiq = s.spsrFiq := rfl

@[simp] theorem writeWord_spsrIrq (s : State) (addr v : Word) : (s.writeWord addr v).spsrIrq = s.spsrIrq := rfl

@[simp] theorem writeWord_spsrSvc (s : State) (addr v : Word) : (s.writeWord addr v).spsrSvc = s.spsrSvc := rfl

@[simp] theorem writeWord_isBootMode (s : State) (addr v : Word) : (s.writeWord addr v).isBootMode = (s.isBootMode && !(alignedAddr addr == s.params.bootLatch)) := rfl

@[simp] theorem writeWord_ram (s : State) (addr v : Word) : (s.writeWord addr v).ram = (s.storeWord addr v).ram := rfl

@[simp] theorem writeWord_rom (s : State) (addr v : Word) : (s.writeWord addr v).rom = s.rom := rfl

@[simp] theorem writeWord_ioc (s : State) (addr v : Word) : (s.writeWord addr v).ioc = (s.storeWord addr v).ioc := rfl

@[simp] theorem writeWord_vidc (s : State) (addr v : Word) : (s.writeWord addr v).vidc = (s.storeWord addr v).vidc := rfl

@[simp] theorem writeWord_params (s : State) (addr v : Word) : (s.writeWord addr v).params = s.params := rfl

@[simp] theorem writeWord_diags (s : State) (addr v : Word) : (s.writeWord addr v).diags = (s.storeWord addr v).diags := rfl

@[simp] theorem writeByte_regs (s : State) (addr : Word) (b : Byte) : (s.writeByte addr b).regs = s.regs := rfl

@[simp] theorem writeByte_cpsr (s : State) (addr : Word) (b : Byte) : (s.writeByte addr b).cpsr = s.cpsr := rfl

@[simp] theorem writeByte_spsrFiq (s : State) (addr : Word) (b : Byte) : (s.writeByte addr b).spsrFiq = s.spsrFiq := rfl

@[simp] theorem writeByte_spsrIrq (s : State) (addr : Word) (b : Byte) : (s.writeByte addr b).spsrIrq = s.spsrIrq := rfl

@[simp] theorem writeByte_spsrSvc (s : State) (addr : Word) (b : Byte) : (s.writeByte addr b).spsrSvc = s.spsrSvc := rfl

@[simp] theorem writeByte_isBootMode (s : State) (addr : Word) (b : Byte) : (s.writeByte addr b).isBootMode = s.isBootMode := rfl

@[simp] theorem writeByte_ram (s : State) (addr : Word) (b : Byte) : (s.writeByte addr b).ram = (s.storeByte addr b).ram := rfl

@[simp] theorem writeByte_rom (s : State) (addr : Word) (b : Byte) : (s.writeByte addr b).rom = s.rom := rfl

@[simp] theorem writeByte_ioc (s : State) (addr : Word) (b : Byte) : (s.writeByte addr b).ioc = (s.storeByte addr b).ioc := rfl

@[simp] theorem writeByte_vidc (s : State) (addr : Word) (b : Byte) : (s.writeByte addr b).vidc = (s.storeByte addr b).vidc := rfl

@[simp] theorem writeByte_params (s : State) (addr : Word) (b : Byte) : (s.writeByte addr b).params = s.params := rfl

@[simp] theorem writeByte_diags (s : State) (addr : Word) (b : Byte) : (s.writeByte addr b).diags = (s.storeByte addr b).diags := rfl

@[simp] theorem cpuReset_regs (s : State) : (cpuReset s).regs = RegFile.zero := rfl

@[simp] theorem cpuReset_cpsr (s : State) : (cpuReset s).cpsr = Psr.reset := rfl

@[simp] theorem cpuReset_spsrFiq (s : State) : (cpuReset s).spsrFiq = Psr.savedAtReset := rfl

@[simp] theorem cpuReset_spsrIrq (s : State) : (cpuReset s).spsrIrq = Psr.savedAtReset := rfl

@[simp] theorem cpuReset_spsrSvc (s : State) : (cpuReset s).spsrSvc = Psr.savedAtReset := rfl

@[simp] theorem cpuReset_isBootMode (s : State) : (cpuReset s).isBootMode = s.isBootMode := rfl

@[simp] theorem cpuReset_ram (s : State) : (cpuReset s).ram = s.ram := rfl

@[simp] theorem cpuReset_rom (s : State) : (cpuReset s).rom = s.rom := rfl

@[simp] theorem cpuReset_ioc (s : State) : (cpuReset s).ioc = s.ioc := rfl

@[simp] theorem cpuReset_vidc (s : State) : (cpuReset s).vidc = s.vidc := rfl

@[simp] theorem cpuReset_params (s : State) : (cpuReset s).params = s.params := rfl

@[simp] theorem cpuReset_diags (s : State) : (cpuReset s).diags = s.diags := rfl

@[simp] theorem iocTick_regs (s : State) (n : Nat) : (iocTick n s).regs = s.regs := rfl

@[simp] theorem iocTick_cpsr (s : State) (n : Nat) : (iocTick n s).cpsr = s.cpsr := rfl

@[simp] theorem iocTick_spsrFiq (s : State) (n : Nat) : (iocTick n s).spsrFiq = s.spsrFiq := rfl

@[simp] theorem iocTick_spsrIrq (s : State) (n : Nat) : (iocTick n s).spsrIrq = s.spsrIrq := rfl

@[simp] theorem iocTick_spsrSvc (s : State) (n : Nat) : (iocTick n s).spsrSvc = s.spsrSvc := rfl

@[simp] theorem iocTick_isBootMode (s : State) (n : Nat) : (iocTick n s).isBootMode = s.isBootMode := rfl

@[simp] theorem iocTick_ram (s : State) (n : Nat) : (iocTick n s).ram = s.ram := rfl

@[simp] theorem iocTick_rom (s : State) (n : Nat) : (iocTick n s).rom = s.rom := rfl

@[simp] theorem iocTick_ioc (s : State) (n : Nat) : (iocTick n s).ioc = s.ioc.tick n := rfl

@[simp] theorem iocTick_vidc (s : State) (n : Nat) : (iocTick n s).vidc = s.vidc := rfl

@[simp] theorem iocTick_params (s : State) (n : Nat) : (iocTick n s).params = s.params := rfl

@[simp] theorem iocTick_diags (s : State) (n : Nat) : (iocTick n s).diags = s.diags := rfl

@[simp] theorem vflyback_regs (s : State) : (vflyback s).regs = s.regs := rfl

@[simp] theorem vflyback_cpsr (s : State) : (vflyback s).cpsr = s.cpsr := rfl

@[simp] theorem vflyback_spsrFiq (s : State) : (vflyback s).spsrFiq = s.spsrFiq := rfl

@[simp] theorem vflyback_spsrIrq (s : State) : (vflyback s).spsrIrq = s.spsrIrq := rfl

@[simp] theorem vflyback_spsrSvc (s : State) : (vflyback s).spsrSvc = s.spsrSvc := rfl

@[simp] theorem vflyback_isBootMode (s : State) : (vflyback s).isBootMode = s.isBootMode := rfl

@[simp] theorem vflyback_ram (s : State) : (vflyback s).ram = s.ram := rfl

@[simp] theorem vflyback_rom (s : State) : (vflyback s).rom = s.rom := rfl

@[simp] theorem vflyback_vidc (s : State) : (vflyback s).vidc = s.vidc := rfl

@[simp] theorem vflyback_params (s : State) : (vflyback s).params = s.params := rfl

@[simp] theorem vflyback_diags (s : State) : (vflyback s).diags = s.diags := rfl

@[simp] theorem setSpsr_regs (s : State) (m : Mode) (p : Psr) : (s.setSpsr m p).regs = s.regs := by cases m <;> rfl

@[simp] theorem setSpsr_cpsr (s : State) (m : Mode) (p : Psr) : (s.setSpsr m p).cpsr = s.cpsr := by cases m <;> rfl

@[simp] theorem setSpsr_isBootMode (s : State) (m : Mode) (p : Psr) : (s.setSpsr m p).isBootMode = s.isBootMode := by cases m <;> rfl

@[simp] theorem setSpsr_ram (s : State) (m : Mode) (p : Psr) : (s.setSpsr m p).ram = s.ram := by cases m <;> rfl

@[simp] theorem setSpsr_rom (s : State) (m : Mode) (p : Psr) : (s.setSpsr m p).rom = s.rom := by cases m <;> rfl

@[simp] theorem setSpsr_ioc (s : State) (m : Mode) (p : Psr) : (s.setSpsr m p).ioc = s.ioc := by cases m <;> rfl

@[simp] theorem setSpsr_vidc (s : State) (m : Mode) (p : Psr) : (s.setSpsr m p).vidc = s.vidc := by cases m <;> rfl

@[simp] theorem setSpsr_params (s : State) (m : Mode) (p : Psr) : (s.setSpsr m p).params = s.params := by cases m <;> rfl

@[simp] theorem setSpsr_diags (s : State) (m : Mode) (p : Psr) : (s.setSpsr m p).diags = s.diags := by cases m <;> rfl

@[simp] theorem restoreCpsr_regs (s : State) : (s.restoreCpsr).regs = s.regs := by
  unfold State.restoreCpsr; split <;> rfl

@[simp] theorem restoreCpsr_spsrFiq (s : State) : (s.restoreCpsr).spsrFiq = s.spsrFiq := by
  unfold State.restoreCpsr; split <;> rfl

@[simp] theorem restoreCpsr_spsrIrq (s : State) : (s.restoreCpsr).spsrIrq = s.spsrIrq := by
  unfold State.restoreCpsr; split <;> rfl

@[simp] theorem restoreCpsr_spsrSvc (s : State) : (s.restoreCpsr).spsrSvc = s.spsrSvc := by
  unfold State.restoreCpsr; split <;> rfl

@[simp] theorem restoreCpsr_isBootMode (s : State) : (s.restoreCpsr).isBootMode = s.isBootMode := by
  unfold State.restoreCpsr; split <;> rfl

@[simp] theorem restoreCpsr_ram (s : State) : (s.restoreCpsr).ram = s.ram := by
  unfold State.restoreCpsr; split <;> rfl

@[simp] theorem restoreCpsr_rom (s : State) : (s.restoreCpsr).rom = s.rom := by
  unfold State.restoreCpsr; split <;> rfl

@[simp] theorem restoreCpsr_ioc (s : State) : (s.restoreCpsr).ioc = s.ioc := by
  unfold State.restoreCpsr; split <;> rfl

@[simp] theorem restoreCpsr_vidc (s : State) : (s.restoreCpsr).vidc = s.vidc := by
  unfold State.restoreCpsr; split <;> rfl

@[simp] theorem restoreCpsr_params (s : State) : (s.restoreCpsr).params = s.params := by
  unfold State.restoreCpsr; split <;> rfl

@[simp] theorem restoreCpsr_diags (s : State) : (s.restoreCpsr).diags = s.diags := by
  unfold State.restoreCpsr; split <;> rfl

@[simp] theorem writeBack_cpsr (s : State) (p w : Bool) (rn : Reg) (v : Word) : (s.writeBack p w rn v).cpsr = s.cpsr := by
  unfold State.writeBack; split <;> rfl

@[simp] theorem blockWriteBack_cpsr (s : State) (w : Bool) (rn : Reg) (v : Word) : (s.blockWriteBack w rn v).cpsr = s.cpsr := by
  unfold State.blockWriteBack; split <;> rfl

@[simp] theorem writeBack_spsrFiq (s : State) (p w : Bool) (rn : Reg) (v : Word) : (s.writeBack p w rn v).spsrFiq = s.spsrFiq := by
  unfold State.writeBack; split <;> rfl

@[simp] theorem blockWriteBack_spsrFiq (s : State) (w : Bool) (rn : Reg) (v : Word) : (s.blockWriteBack w rn v).spsrFiq = s.spsrFiq := by
  unfold State.blockWriteBack; split <;> rfl

@[simp] theorem writeBack_spsrIrq (s : State) (p w : Bool) (rn : Reg) (v : Word) : (s.writeBack p w rn v).spsrIrq = s.spsrIrq := by
  unfold State.writeBack; split <;> rfl

@[simp] theorem blockWriteBack_spsrIrq (s : State) (w : Bool) (rn : Reg) (v : Word) : (s.blockWriteBack w rn v).spsrIrq = s.spsrIrq := by
  unfold State.blockWriteBack; split <;> rfl

@[simp] theorem writeBack_spsrSvc (s : State) (p w : Bool) (rn : Reg) (v : Word) : (s.writeBack p w rn v).spsrSvc = s.spsrSvc := by
  unfold State.writeBack; split <;> rfl

@[simp] theorem blockWriteBack_spsrSvc (s : State) (w : Bool) (rn : Reg) (v : Word) : (s.blockWriteBack w rn v).spsrSvc = s.spsrSvc := by
  unfold State.blockWriteBack; split <;> rfl

@[simp] theorem writeBack_isBootMode (s : State) (p w : Bool) (rn : Reg) (v : Word) : (s.writeBack p w rn v).isBootMode = s.isBootMode := by
  unfold State.writeBack; split <;> rfl

@[simp] theorem blockWriteBack_isBootMode (s : State) (w : Bool) (rn : Reg) (v : Word) : (s.blockWriteBack w rn v).isBootMode = s.isBootMode := by
  unfold State.blockWriteBack; split <;> rfl

@[simp] theorem writeBack_ram (s : State) (p w : Bool) (rn : Reg) (v : Word) : (s.writeBack p w rn v).ram = s.ram := by
  unfold State.writeBack; split <;> rfl

@[simp] theorem blockWriteBack_ram (s : State) (w : Bool) (rn : Reg) (v : Word) : (s.blockWriteBack w rn v).ram = s.ram := by
  unfold State.blockWriteBack; split <;> rfl

@[simp] theorem writeBack_rom (s : State) (p w : Bool) (rn : Reg) (v : Word) : (s.writeBack p w rn v).rom = s.rom := by
  unfold State.writeBack; split <;> rfl

@[simp] theorem blockWriteBack_rom (s : State) (w : Bool) (rn : Reg) (v : Word) : (s.blockWriteBack w rn v).rom = s.rom := by
  unfold State.blockWriteBack; split <;> rfl

@[simp] theorem writeBack_ioc (s : State) (p w : Bool) (rn : Reg) (v : Word) : (s.writeBack p w rn v).ioc = s.ioc := by
  unfold State.writeBack; split <;> rfl

@[simp] theorem blockWriteBack_ioc (s : State) (w : Bool) (rn : Reg) (v : Word) : (s.blockWriteBack w rn v).ioc = s.ioc := by
  unfold State.blockWriteBack; split <;> rfl

@[simp] theorem writeBack_vidc (s : State) (p w : Bool) (rn : Reg) (v : Word) : (s.writeBack p w rn v).vidc = s.vidc := by
  unfold State.writeBack; split <;> rfl

@[simp] theorem blockWriteBack_vidc (s : State) (w : Bool) (rn : Reg) (v : Word) : (s.blockWriteBack w rn v).vidc = s.vidc := by
  unfold State.blockWriteBack; split <;> rfl

@[simp] theorem writeBack_params (s : State) (p w : Bool) (rn : Reg) (v : Word) : (s.writeBack p w rn v).params = s.params := by
  unfold State.writeBack; split <;> rfl

@[simp] theorem blockWriteBack_params (s : State) (w : Bool) (rn : Reg) (v : Word) : (s.blockWriteBack w rn v).params = s.params := by
  unfold State.blockWriteBack; split <;> rfl

@[simp] theorem writeBack_diags (s : State) (p w : Bool) (rn : Reg) (v : Word) : (s.writeBack p w rn v).diags = s.diags := by
  unfold State.writeBack; split <;> rfl

@[simp] theorem blockWriteBack_diags (s : State) (w : Bool) (rn : Reg) (v : Word) : (s.blockWriteBack w rn v).diags = s.diags := by
  unfold State.blockWriteBack; split <;> rfl

@[simp] theorem raise_isBootMode (s : State) (m : Mode) (vec ret : Word) (f : Bool) : (s.raise m vec ret f).isBootMode = s.isBootMode := by cases m <;> rfl

@[simp] theorem raise_ram (s : State) (m : Mode) (vec ret : Word) (f : Bool) : (s.raise m vec ret f).ram = s.ram := by cases m <;> rfl

@[simp] theorem raise_rom (s : State) (m : Mode) (vec ret : Word) (f : Bool) : (s.raise m vec ret f).rom = s.rom := by cases m <;> rfl

@[simp] theorem raise_ioc (s : State) (m : Mode) (vec ret : Word) (f : Bool) : (s.raise m vec ret f).ioc = s.ioc := by cases m <;> rfl

@[simp] theorem raise_vidc (s : State) (m : Mode) (vec ret : Word) (f : Bool) : (s.raise m vec ret f).vidc = s.vidc := by cases m <;> rfl

@[simp] theorem raise_params (s : State) (m : Mode) (vec ret : Word) (f : Bool) : (s.raise m vec ret f).params = s.params := by cases m <;> rfl

@[simp] theorem raise_diags (s : State) (m : Mode) (vec ret : Word) (f : Bool) : (s.raise m vec ret f).diags = s.diags := by cases m <;> rfl

@[simp] theorem iocAssert_regs (s : State) (name : BankName) (v : BitVec 8) : (iocAssert name v s).regs = s.regs := by cases name <;> rfl

@[simp] theorem iocAssert_cpsr (s : State) (name : BankName) (v : BitVec 8) : (iocAssert name v s).cpsr = s.cpsr := by cases name <;> rfl

@[simp] theorem iocAssert_spsrFiq (s : State) (name : BankName) (v : BitVec 8) : (iocAssert name v s).spsrFiq = s.spsrFiq := by cases name <;> rfl

@[simp] theorem iocAssert_spsrIrq (s : State) (name : BankName) (v : BitVec 8) : (iocAssert name v s).spsrIrq = s.spsrIrq := by cases name <;> rfl

@[simp] theorem iocAssert_spsrSvc (s : State) (name : BankName) (v : BitVec 8) : (iocAssert name v s).spsrSvc = s.spsrSvc := by cases name <;> rfl

@[simp] theorem iocAssert_isBootMode (s : State) (name : BankName) (v : BitVec 8) : (iocAssert name v s).isBootMode = s.isBootMode := by cases name <;> rfl

@[simp] theorem iocAssert_ram (s : State) (name : BankName) (v : BitVec 8) : (iocAssert name v s).ram = s.ram := by cases name <;> rfl

@[simp] theorem iocAssert_rom (s : State) (name : BankName) (v : BitVec 8) : (iocAssert name v s).rom = s.rom := by cases name <;> rfl

@[simp] theorem iocAssert_vidc (s : State) (name : BankName) (v : BitVec 8) : (iocAssert name v s).vidc = s.vidc := by cases name <;> rfl

@[simp] theorem iocAssert_params (s : State) (name : BankName) (v : BitVec 8) : (iocAssert name v s).params = s.params := by cases name <;> rfl

@[simp] theorem iocAssert_diags (s : State) (name : BankName) (v : BitVec 8) : (iocAssert name v s).diags = s.diags := by cases name <;> rfl

end Sys2Proof.Machine
end

