-- ==== Sys2Proof/Laws/Bus.lean ====
section
/-! SUPPORT. What the router can do: a read depends on the memory and device fields alone; a store changes RAM, one device
or nothing, according to the region; every access keeps the canonical forms and ROM. -/

namespace Sys2Proof.Machine

/-! ### Reads -/

/-- The fields a read depends on are the same. -/
def State.SameBus (s t : State) : Prop :=
  t.ram = s.ram ∧ t.rom = s.rom ∧ t.ioc = s.ioc ∧ t.vidc = s.vidc ∧ t.isBootMode = s.isBootMode ∧ t.params = s.params

theorem State.SameBus.region {s t : State} (h : s.SameBus t) (a : Nat) : t.region a = s.region a := by
  obtain ⟨-, -, -, -, h5, h6⟩ := h
  unfold State.region
  rw [h5, h6]

theorem State.SameBus.busWord {s t : State} (h : s.SameBus t) (a : Nat) : t.busWord a = s.busWord a := by
  have hr := h.region a
  obtain ⟨h1, h2, h3, h4, -, h6⟩ := h
  unfold State.busWord State.deviceRead State.romOffset
  rw [hr, h1, h2, h3, h4, h6]

theorem State.SameBus.busByte {s t : State} (h : s.SameBus t) (a : Nat) : t.busByte a = s.busByte a := by
  have hr := h.region a
  obtain ⟨h1, h2, h3, h4, -, h6⟩ := h
  unfold State.busByte State.deviceRead State.romOffset
  rw [hr, h1, h2, h3, h4, h6]

theorem State.SameBus.readWord {s t : State} (h : s.SameBus t) (a : Word) : t.readWord a = s.readWord a := by
  unfold State.readWord
  rw [h.busWord]

theorem State.SameBus.readWordDiags {s t : State} (h : s.SameBus t) (a : Word) :
    t.readWordDiags a = s.readWordDiags a := by
  unfold State.readWordDiags
  rw [h.busWord]

theorem State.SameBus.readByte {s t : State} (h : s.SameBus t) (a : Word) : t.readByte a = s.readByte a := by
  unfold State.readByte
  rw [h.busByte]

theorem State.SameBus.readByteDiags {s t : State} (h : s.SameBus t) (a : Word) :
    t.readByteDiags a = s.readByteDiags a := by
  unfold State.readByteDiags
  rw [h.busByte]

theorem State.SameBus.memoryKept {s t : State} (h : s.SameBus t) : s.MemoryKept t :=
  ⟨fun _ => by rw [h.1], fun _ => by rw [h.2.1], fun a => h.readByte a⟩

theorem State.SameBus.devicesKept {s t : State} (h : s.SameBus t) : s.DevicesKept t :=
  ⟨h.2.2.1, h.2.2.2.1, h.2.2.2.2.1, h.2.2.2.2.2⟩

theorem State.SameBus.rfl' (s : State) : s.SameBus s := ⟨rfl, rfl, rfl, rfl, rfl, rfl⟩

theorem State.SameBus.trans {s t u : State} (h : s.SameBus t) (k : t.SameBus u) : s.SameBus u :=
  ⟨k.1.trans h.1, k.2.1.trans h.2.1, k.2.2.1.trans h.2.2.1, k.2.2.2.1.trans h.2.2.2.1,
    k.2.2.2.2.1.trans h.2.2.2.2.1, k.2.2.2.2.2.trans h.2.2.2.2.2⟩

theorem setPhys_sameBus (s : State) (p : PhysReg) (v : Word) : s.SameBus (s.setPhys p v) :=
  ⟨rfl, rfl, rfl, rfl, rfl, rfl⟩

theorem setCpsr_sameBus (s : State) (p : Psr) : s.SameBus (s.setCpsr p) := ⟨rfl, rfl, rfl, rfl, rfl, rfl⟩

theorem emit_sameBus (s : State) (d : List Diag) : s.SameBus (s.emit d) := ⟨rfl, rfl, rfl, rfl, rfl, rfl⟩

theorem restoreCpsr_sameBus (s : State) : s.SameBus s.restoreCpsr := by
  unfold State.restoreCpsr
  cases s.spsr s.cpsr.mode <;> exact ⟨rfl, rfl, rfl, rfl, rfl, rfl⟩

theorem raise_sameBus (s : State) (m : Mode) (vec ret : Word) (f : Bool) : s.SameBus (s.raise m vec ret f) := by
  cases m <;> exact ⟨rfl, rfl, rfl, rfl, rfl, rfl⟩

/-! ### Addresses -/

/-- The 26-bit mask as a remainder (R61). -/
theorem busAddr_eq (addr : Word) : busAddr addr = addr.toNat % 2 ^ 26 := by
  unfold busAddr Config.addrMask
  rw [BitVec.toNat_and]
  exact Nat.and_two_pow_sub_one_eq_mod addr.toNat 26

theorem alignedAddr_eq (addr : Word) : alignedAddr addr = addr.toNat % 2 ^ 26 / 4 * 4 := by
  unfold alignedAddr
  rw [busAddr_eq]

theorem busAddr_lt (addr : Word) : busAddr addr < 0x04000000 := by
  rw [busAddr_eq]
  omega

/-! ### Regions -/

/-- The decode order as one case distinction (R62). -/
theorem region_cases (s : State) (a : Nat) :
    (s.isBootMode = true ∧ a < 0x200000 ∧ s.region a = .lowMirror) ∨
    (¬(s.isBootMode = true ∧ a < 0x200000) ∧ 0x2000000 ≤ a ∧ a < 0x2200000 ∧ s.region a = .altMirror) ∨
    (¬(s.isBootMode = true ∧ a < 0x200000) ∧ ¬(0x2000000 ≤ a ∧ a < 0x2200000) ∧ a < s.params.ramSize ∧
      s.region a = .ram) ∨
    (¬(s.isBootMode = true ∧ a < 0x200000) ∧ ¬(0x2000000 ≤ a ∧ a < 0x2200000) ∧ ¬a < s.params.ramSize ∧
      0x3200000 ≤ a ∧ a < 0x3400000 ∧ s.region a = .ioc) ∨
    (¬(s.isBootMode = true ∧ a < 0x200000) ∧ ¬(0x2000000 ≤ a ∧ a < 0x2200000) ∧ ¬a < s.params.ramSize ∧
      0x3400000 ≤ a ∧ a < 0x3600000 ∧ s.region a = .vidc) ∨
    (¬(s.isBootMode = true ∧ a < 0x200000) ∧ ¬(0x2000000 ≤ a ∧ a < 0x2200000) ∧ ¬a < s.params.ramSize ∧
      ¬(0x3200000 ≤ a ∧ a < 0x3600000) ∧ s.params.romBase ≤ a ∧ a < s.params.romBase + 0x200000 ∧
      s.region a = .rom) ∨
    (¬(s.isBootMode = true ∧ a < 0x200000) ∧ ¬(0x2000000 ≤ a ∧ a < 0x2200000) ∧ ¬a < s.params.ramSize ∧
      ¬(0x3200000 ≤ a ∧ a < 0x3600000) ∧ ¬(s.params.romBase ≤ a ∧ a < s.params.romBase + 0x200000) ∧
      s.region a = .unmapped) := by
  unfold State.region Config.lowMirrorEnd Config.altMirrorBase Config.altMirrorEnd Config.iocBase Config.vidcBase
    Config.ioEnd Config.romSize
  by_cases c1 : s.isBootMode = true ∧ a < 0x200000
  · rw [if_pos c1]; exact .inl ⟨c1.1, c1.2, rfl⟩
  rw [if_neg c1]; right
  by_cases c2 : 0x2000000 ≤ a ∧ a < 0x2200000
  · rw [if_pos c2]; exact .inl ⟨c1, c2.1, c2.2, rfl⟩
  rw [if_neg c2]; right
  by_cases c3 : a < s.params.ramSize
  · rw [if_pos c3]; exact .inl ⟨c1, c2, c3, rfl⟩
  rw [if_neg c3]; right
  by_cases c4 : 0x3200000 ≤ a ∧ a < 0x3400000
  · rw [if_pos c4]; exact .inl ⟨c1, c2, c3, c4.1, c4.2, rfl⟩
  rw [if_neg c4]; right
  by_cases c5 : 0x3400000 ≤ a ∧ a < 0x3600000
  · rw [if_pos c5]; exact .inl ⟨c1, c2, c3, c5.1, c5.2, rfl⟩
  rw [if_neg c5]; right
  have c45 : ¬(0x3200000 ≤ a ∧ a < 0x3600000) := by omega
  by_cases c6 : s.params.romBase ≤ a ∧ a < s.params.romBase + 0x200000
  · rw [if_pos c6]; exact .inl ⟨c1, c2, c3, c45, c6.1, c6.2, rfl⟩
  rw [if_neg c6]; exact .inr ⟨c1, c2, c3, c45, c6, rfl⟩

/-- All four bytes of an aligned word lie in one region, because every bound is a multiple of 4 (R62). -/
theorem region_word {s : State} (hp : s.params.wf) {aw j : Nat} (h4 : aw % 4 = 0) (hj : j < 4) :
    s.region (aw + j) = s.region aw := by
  obtain ⟨-, -, p3, p4, -, -⟩ := hp
  rcases region_cases s aw with ⟨c1, c2, h⟩ | ⟨c1, c2, c3, h⟩ | ⟨c1, c2, c3, h⟩ | ⟨c1, c2, c3, c4, c5, h⟩ |
    ⟨c1, c2, c3, c4, c5, h⟩ | ⟨c1, c2, c3, c4, c5, c6, h⟩ | ⟨c1, c2, c3, c4, c5, h⟩ <;>
  rcases region_cases s (aw + j) with ⟨d1, d2, k⟩ | ⟨d1, d2, d3, k⟩ | ⟨d1, d2, d3, k⟩ | ⟨d1, d2, d3, d4, d5, k⟩ |
    ⟨d1, d2, d3, d4, d5, k⟩ | ⟨d1, d2, d3, d4, d5, d6, k⟩ | ⟨d1, d2, d3, d4, d5, k⟩ <;>
  first
  | exact k.trans h.symm
  | (exfalso
     cases hb : s.isBootMode <;>
       simp only [hb, Bool.false_eq_true, false_and, true_and, not_false_eq_true] at c1 d1 <;> omega)

theorem region_ram_lt {s : State} {a : Nat} (h : s.region a = .ram) : a < s.params.ramSize := by
  unfold State.region at h
  split at h
  · cases h
  · split at h
    · cases h
    · split at h
      · assumption
      · repeat (first | cases h | split at h)

/-- The register offset as the spec writes it, for the IOC (R66). -/
theorem deviceOffset_ioc {a : Nat} (h : Config.iocBase ≤ a) (k : a < Config.vidcBase) :
    deviceOffset a = (a - Config.iocBase) / 4 := by
  unfold deviceOffset Config.deviceSize
  unfold Config.iocBase at h ⊢
  unfold Config.vidcBase at k
  omega

/-- The register offset as the spec writes it, for the VIDC port (R66). -/
theorem deviceOffset_vidc {a : Nat} (h : Config.vidcBase ≤ a) (k : a < Config.ioEnd) :
    deviceOffset a = (a - Config.vidcBase) / 4 := by
  unfold deviceOffset Config.deviceSize
  unfold Config.vidcBase at h ⊢
  unfold Config.ioEnd at k
  omega

/-- The offset in ROM_IMAGE as the spec writes it, for ALT_MIRROR (R64). -/
theorem romOffset_altMirror (s : State) {a : Nat} (h : Config.altMirrorBase ≤ a) :
    s.romOffset .altMirror a = (a - Config.altMirrorBase) % Config.romSize := by
  change a % Config.romSize = _
  unfold Config.romSize
  unfold Config.altMirrorBase at h ⊢
  omega

/-! ### Stores -/

/-- A word store that decodes to RAM. -/
theorem writeWord_of_ram {s : State} {addr : Word} (v : Word) (h : s.region (alignedAddr addr) = .ram) :
    s.writeWord addr v = { s with ram := s.ram.writeWord (alignedAddr addr) v
                                  isBootMode := s.isBootMode && !(alignedAddr addr == s.params.bootLatch) } := by
  unfold State.writeWord State.storeWord
  rw [h]
  rfl

/-- A byte store that decodes to RAM. -/
theorem writeByte_of_ram {s : State} {addr : Word} (b : Byte) (h : s.region (busAddr addr) = .ram) :
    s.writeByte addr b = { s with ram := s.ram.write (busAddr addr) b } := by
  unfold State.writeByte State.storeByte
  rw [h]
  rfl

/-- A word store never touches the registers of the CPU, ROM or the parameters. -/
theorem writeWord_keeps (s : State) (addr v : Word) :
    (s.writeWord addr v).regs = s.regs ∧ (s.writeWord addr v).cpsr = s.cpsr ∧
    (s.writeWord addr v).spsrFiq = s.spsrFiq ∧ (s.writeWord addr v).spsrIrq = s.spsrIrq ∧
    (s.writeWord addr v).spsrSvc = s.spsrSvc ∧ (s.writeWord addr v).rom = s.rom ∧
    (s.writeWord addr v).params = s.params := ⟨rfl, rfl, rfl, rfl, rfl, rfl, rfl⟩

/-- A word store ends boot mode exactly when it is aimed at the boot latch (R72). -/
theorem writeWord_boot (s : State) (addr v : Word) :
    (s.writeWord addr v).isBootMode = (s.isBootMode && !(alignedAddr addr == s.params.bootLatch)) := rfl

theorem writeByte_boot (s : State) (addr : Word) (b : Byte) : (s.writeByte addr b).isBootMode = s.isBootMode := rfl

/-- What a device write changes: the device where the register can be written, nothing of the memories. -/
theorem deviceWrite_ioc (s : State) (a : Nat) (addr v : Word) :
    (s.deviceWrite .ioc a addr v).ram = s.ram ∧
    (s.deviceWrite .ioc a addr v).ioc = (s.ioc.write (deviceOffset a) (v.setWidth 8)).getD s.ioc ∧
    (s.deviceWrite .ioc a addr v).vidc = s.vidc := by
  unfold State.deviceWrite
  simp only
  cases s.ioc.write (deviceOffset a) (v.setWidth 8) <;> exact ⟨rfl, rfl, rfl⟩

theorem deviceWrite_vidc (s : State) (a : Nat) (addr v : Word) :
    (s.deviceWrite .vidc a addr v).ram = s.ram ∧
    (s.deviceWrite .vidc a addr v).ioc = s.ioc ∧
    (s.deviceWrite .vidc a addr v).vidc = (vidcWrite s.vidc (deviceOffset a) v).getD s.vidc := by
  unfold State.deviceWrite
  simp only
  cases vidcWrite s.vidc (deviceOffset a) v <;> exact ⟨rfl, rfl, rfl⟩

theorem byte_setWidth (b : Byte) : ((b.setWidth 32).setWidth 8 : Byte) = b := by
  apply BitVec.eq_of_toNat_eq
  have := b.isLt
  simp only [BitVec.toNat_setWidth]
  omega

/-- RAM after a word store: changed where the address decodes to RAM, the same otherwise. -/
theorem writeWord_ram_eq (s : State) (addr v : Word) :
    (s.writeWord addr v).ram =
      if s.region (alignedAddr addr) = .ram then s.ram.writeWord (alignedAddr addr) v else s.ram := by
  rw [writeWord_ram]
  unfold State.storeWord
  have hi := deviceWrite_ioc s (alignedAddr addr) addr v
  have hv := deviceWrite_vidc s (alignedAddr addr) addr v
  cases s.region (alignedAddr addr) <;> simp only [reduceCtorEq, if_true, if_false, emit_ram, hi, hv]

/-- RAM after a byte store. -/
theorem writeByte_ram_eq (s : State) (addr : Word) (b : Byte) :
    (s.writeByte addr b).ram =
      if s.region (busAddr addr) = .ram then s.ram.write (busAddr addr) b else s.ram := by
  rw [writeByte_ram]
  unfold State.storeByte
  have hi := deviceWrite_ioc s (busAddr addr) addr (b.setWidth 32)
  have hv := deviceWrite_vidc s (busAddr addr) addr (b.setWidth 32)
  rw [byte_setWidth] at hi
  cases s.region (busAddr addr) <;> simp only [reduceCtorEq, if_true, if_false, emit_ram, hi, hv]

/-- The IOC after a word store. -/
theorem writeWord_ioc_eq (s : State) (addr v : Word) :
    (s.writeWord addr v).ioc =
      if s.region (alignedAddr addr) = .ioc then
        (s.ioc.write (deviceOffset (alignedAddr addr)) (v.setWidth 8)).getD s.ioc
      else s.ioc := by
  rw [writeWord_ioc]
  unfold State.storeWord
  have hi := deviceWrite_ioc s (alignedAddr addr) addr v
  have hv := deviceWrite_vidc s (alignedAddr addr) addr v
  cases s.region (alignedAddr addr) <;> simp only [reduceCtorEq, if_true, if_false, emit_ioc, hi, hv]

/-- The IOC after a byte store. -/
theorem writeByte_ioc_eq (s : State) (addr : Word) (b : Byte) :
    (s.writeByte addr b).ioc =
      if s.region (busAddr addr) = .ioc then
        (s.ioc.write (deviceOffset (busAddr addr)) b).getD s.ioc
      else s.ioc := by
  rw [writeByte_ioc]
  unfold State.storeByte
  have hi := deviceWrite_ioc s (busAddr addr) addr (b.setWidth 32)
  have hv := deviceWrite_vidc s (busAddr addr) addr (b.setWidth 32)
  rw [byte_setWidth] at hi
  cases s.region (busAddr addr) <;> simp only [reduceCtorEq, if_true, if_false, emit_ioc, hi, hv]

/-- The VIDC registers after a word store. -/
theorem writeWord_vidc_eq (s : State) (addr v : Word) :
    (s.writeWord addr v).vidc =
      if s.region (alignedAddr addr) = .vidc then
        (vidcWrite s.vidc (deviceOffset (alignedAddr addr)) v).getD s.vidc
      else s.vidc := by
  rw [writeWord_vidc]
  unfold State.storeWord
  have hi := deviceWrite_ioc s (alignedAddr addr) addr v
  have hv := deviceWrite_vidc s (alignedAddr addr) addr v
  cases s.region (alignedAddr addr) <;> simp only [reduceCtorEq, if_true, if_false, emit_vidc, hi, hv]

/-- The VIDC registers after a byte store. -/
theorem writeByte_vidc_eq (s : State) (addr : Word) (b : Byte) :
    (s.writeByte addr b).vidc =
      if s.region (busAddr addr) = .vidc then
        (vidcWrite s.vidc (deviceOffset (busAddr addr)) (b.setWidth 32)).getD s.vidc
      else s.vidc := by
  rw [writeByte_vidc]
  unfold State.storeByte
  have hi := deviceWrite_ioc s (busAddr addr) addr (b.setWidth 32)
  have hv := deviceWrite_vidc s (busAddr addr) addr (b.setWidth 32)
  rw [byte_setWidth] at hi
  cases s.region (busAddr addr) <;> simp only [reduceCtorEq, if_true, if_false, emit_vidc, hi, hv]

/-- The diagnostics of a word store, by region (R68, R71, R76). -/
theorem writeWord_diags_eq (s : State) (addr v : Word) : (s.writeWord addr v).diags = s.diags ++
    match s.region (alignedAddr addr) with
    | .ram => []
    | .ioc => if (s.ioc.write (deviceOffset (alignedAddr addr)) (v.setWidth 8)).isSome then []
              else [.invalidWrite (addr &&& Config.addrMask) v]
    | .vidc => if deviceOffset (alignedAddr addr) < Config.vidcCount then []
               else [.invalidWrite (addr &&& Config.addrMask) v]
    | .unmapped => [.invalidWrite (addr &&& Config.addrMask) v]
    | _ => [.romWrite (addr &&& Config.addrMask) v] := by
  rw [writeWord_diags]
  unfold State.storeWord
  cases s.region (alignedAddr addr) <;> simp only [emit_diags, List.append_nil]
  · unfold State.deviceWrite
    simp only
    cases s.ioc.write (deviceOffset (alignedAddr addr)) (v.setWidth 8) <;> simp
  · unfold State.deviceWrite vidcWrite
    simp only
    split <;> simp_all

/-- The diagnostics of a byte store, by region (R68, R75, R76). -/
theorem writeByte_diags_eq (s : State) (addr : Word) (b : Byte) : (s.writeByte addr b).diags = s.diags ++
    match s.region (busAddr addr) with
    | .ram => []
    | .ioc => if (s.ioc.write (deviceOffset (busAddr addr)) b).isSome then []
              else [.invalidWrite (addr &&& Config.addrMask) (b.setWidth 32)]
    | .vidc => if deviceOffset (busAddr addr) < Config.vidcCount then []
               else [.invalidWrite (addr &&& Config.addrMask) (b.setWidth 32)]
    | .unmapped => [.invalidWrite (addr &&& Config.addrMask) (b.setWidth 32)]
    | _ => [.romWrite (addr &&& Config.addrMask) (b.setWidth 32)] := by
  rw [writeByte_diags]
  unfold State.storeByte
  cases s.region (busAddr addr) <;> simp only [emit_diags, List.append_nil]
  · unfold State.deviceWrite
    simp only [byte_setWidth]
    cases s.ioc.write (deviceOffset (busAddr addr)) b <;> simp
  · unfold State.deviceWrite vidcWrite
    simp only
    split <;> simp_all

/-! ### The canonical forms -/

/-- A VIDC write keeps the register store canonical and within its widths. -/
theorem vidcWrite_wf {r q : Store 32} {k : Nat} {v : Word} (h : vidcWf r = true) (e : vidcWrite r k v = some q) :
    vidcWf q = true := by
  unfold vidcWrite at e
  split at e
  · next hk =>
    cases e
    simp only [vidcWf, Bool.and_eq_true] at h ⊢
    refine ⟨⟨Store.write_wf _ _ _ h.1.1, Store.write_below _ _ h.1.2 hk⟩, ?_⟩
    simp only [List.all_eq_true, beq_iff_eq] at h ⊢
    intro c hc
    rcases Store.mem_write hc with ⟨rfl, -⟩ | hc
    · rw [BitVec.and_assoc, BitVec.and_self]
    · exact h.2 c hc
  · cases e

/-- A word store keeps the canonical form of RAM. -/
theorem writeWord_ram_wf (s : State) (addr v : Word) (h : s.ram.wf = true) : (s.writeWord addr v).ram.wf = true := by
  rw [writeWord_ram_eq]
  split
  · exact Memory.writeWord_wf _ _ _ h
  · exact h

/-- A byte store keeps the canonical form of RAM. -/
theorem writeByte_ram_wf (s : State) (addr : Word) (b : Byte) (h : s.ram.wf = true) :
    (s.writeByte addr b).ram.wf = true := by
  rw [writeByte_ram_eq]
  split
  · exact Memory.write_wf _ _ _ h
  · exact h

/-- A word store keeps the invariant. -/
theorem writeWord_inv {s : State} (addr v : Word) (h : s.Inv) : (s.writeWord addr v).Inv where
  pc := h.pc
  ramWf := writeWord_ram_wf s addr v h.ramWf
  ramBelow := by
    rw [writeWord_ram_eq]
    split
    · next hr =>
      have h1 := region_ram_lt hr
      have h2 : s.params.ramSize % 4 = 0 := h.params.2.2.1
      refine Memory.writeWord_below _ _ h.ramBelow ?_
      change alignedAddr addr + 4 ≤ s.params.ramSize
      unfold alignedAddr at h1 ⊢
      omega
    · exact h.ramBelow
  romWf := h.romWf
  romBelow := h.romBelow
  vidc := by
    rw [writeWord_vidc_eq]
    split
    · cases e : vidcWrite s.vidc (deviceOffset (alignedAddr addr)) v with
      | none => exact h.vidc
      | some q => exact vidcWrite_wf h.vidc e
    · exact h.vidc
  params := h.params

/-- A byte store keeps the invariant. -/
theorem writeByte_inv {s : State} (addr : Word) (b : Byte) (h : s.Inv) : (s.writeByte addr b).Inv where
  pc := h.pc
  ramWf := writeByte_ram_wf s addr b h.ramWf
  ramBelow := by
    rw [writeByte_ram_eq]
    split
    · next hr => exact Store.write_below _ _ h.ramBelow (region_ram_lt hr)
    · exact h.ramBelow
  romWf := h.romWf
  romBelow := h.romBelow
  vidc := by
    rw [writeByte_vidc_eq]
    split
    · cases e : vidcWrite s.vidc (deviceOffset (busAddr addr)) (b.setWidth 32) with
      | none => exact h.vidc
      | some q => exact vidcWrite_wf h.vidc e
    · exact h.vidc
  params := h.params

end Sys2Proof.Machine
end

