-- ==== Sys2Proof/Laws/Access.lean ====
section
/-! SUPPORT. What a load sees: words as bytes, the devices' ranges, and bytes after a store elsewhere. -/

namespace Sys2Proof.Machine

/-- The bytes of an aligned word follow each other. -/
theorem busAddr_add {addr : Word} (h : addr.toNat % 4 = 0) (j : Nat) (hj : j < 4) :
    busAddr (addr + BitVec.ofNat 32 j) = busAddr addr + j := by
  rw [busAddr_eq, busAddr_eq, BitVec.toNat_add, BitVec.toNat_ofNat]
  have := addr.isLt
  omega

/-- All four addresses of an aligned word name it (R70). -/
theorem alignedAddr_add {addr : Word} (h : addr.toNat % 4 = 0) (j : Nat) (hj : j < 4) :
    alignedAddr (addr + BitVec.ofNat 32 j) = busAddr addr := by
  unfold alignedAddr
  rw [busAddr_add h j hj, busAddr_eq]
  omega

/-- Outside the I/O region no address is a device's (R66). -/
theorem region_not_device {s : State} {a : Nat} (h : ¬(0x03200000 ≤ a ∧ a < 0x03600000)) : s.region a ≠ .ioc ∧ s.region a ≠ .vidc := by
  rcases region_cases s a with ⟨c1, c2, k⟩ | ⟨c1, c2, c3, k⟩ | ⟨c1, c2, c3, k⟩ | ⟨c1, c2, c3, c4, c5, k⟩ | ⟨c1, c2, c3, c4, c5, k⟩ | ⟨c1, c2, c3, c4, c5, c6, k⟩ | ⟨c1, c2, c3, c4, c5, k⟩ <;> rw [k] <;> first | exact ⟨by decide, by decide⟩ | (exfalso; omega)

/-- Outside the devices an aligned word is its four bytes (R69). -/
theorem busWord_bytes {s : State} (hp : s.params.wf) {aw : Nat} (h4 : aw % 4 = 0) (h1 : s.region aw ≠ .ioc) (h2 : s.region aw ≠ .vidc) :
    (s.busWord aw).getD Config.sentinel =
      (s.busByte (aw + 3)).getD 0xFF ++ (s.busByte (aw + 2)).getD 0xFF ++ (s.busByte (aw + 1)).getD 0xFF ++ (s.busByte aw).getD 0xFF := by
  have r3 := region_word (s := s) hp h4 (show 3 < 4 by omega)
  have r2 := region_word (s := s) hp h4 (show 2 < 4 by omega)
  have r1 := region_word (s := s) hp h4 (show 1 < 4 by omega)
  unfold State.busWord State.busByte
  rw [r1, r2, r3]
  have hrom : s.params.romBase % 4 = 0 := hp.2.2.2.1
  cases hr : s.region aw with
  | ioc => exact absurd hr h1
  | vidc => exact absurd hr h2
  | unmapped => simp only [Option.getD_none, Config.sentinel]; decide
  | ram => rfl
  | lowMirror =>
    simp only [Option.getD_some, State.romOffset, Memory.readWord, Config.romSize]
    rw [show (aw + 3) % 2097152 = aw % 2097152 + 3 by omega, show (aw + 2) % 2097152 = aw % 2097152 + 2 by omega, show (aw + 1) % 2097152 = aw % 2097152 + 1 by omega]
  | altMirror =>
    simp only [Option.getD_some, State.romOffset, Memory.readWord, Config.romSize]
    rw [show (aw + 3) % 2097152 = aw % 2097152 + 3 by omega, show (aw + 2) % 2097152 = aw % 2097152 + 2 by omega, show (aw + 1) % 2097152 = aw % 2097152 + 1 by omega]
  | rom =>
    simp only [Option.getD_some, State.romOffset, Memory.readWord]
    have : s.params.romBase ≤ aw := by
      rcases region_cases s aw with ⟨c1, c2, k⟩ | ⟨c1, c2, c3, k⟩ | ⟨c1, c2, c3, k⟩ | ⟨c1, c2, c3, c4, c5, k⟩ | ⟨c1, c2, c3, c4, c5, k⟩ | ⟨c1, c2, c3, c4, c5, c6, k⟩ | ⟨c1, c2, c3, c4, c5, k⟩ <;> rw [hr] at k <;> first | assumption | cases k
    rw [show (aw + 3) - s.params.romBase = aw - s.params.romBase + 3 by omega, show (aw + 2) - s.params.romBase  = aw - s.params.romBase + 2 by omega, show (aw + 1) - s.params.romBase = aw - s.params.romBase + 1 by omega]

/-- A word read outside the devices is the rotated word of its four bytes (R69, R70). -/
theorem readWord_bytes {s : State} {addr : Word} (hp : s.params.wf) (h4 : addr.toNat % 4 = 0) (k1 : s.region (busAddr addr) ≠ .ioc) (k2 : s.region (busAddr addr) ≠ .vidc) (j : Nat) (hj : j < 4) :
    s.readWord (addr + BitVec.ofNat 32 j) = (s.readByte (addr + 3#32) ++ s.readByte (addr + 2#32) ++ s.readByte (addr + 1#32) ++ s.readByte addr).rotateRight (8 * j) := by
  have hb : busAddr addr % 4 = 0 := by rw [busAddr_eq]; omega
  unfold State.readWord State.readByte ror32
  rw [alignedAddr_add h4 j hj, busWord_bytes hp hb k1 k2]
  have e3 := busAddr_add h4 3 (by omega)
  have e2 := busAddr_add h4 2 (by omega)
  have e1 := busAddr_add h4 1 (by omega)
  rw [busAddr_add h4 j hj]
  rw [show addr + 3#32 = addr + BitVec.ofNat 32 3 from rfl, show addr + 2#32 = addr + BitVec.ofNat 32 2 from rfl, show addr + 1#32 = addr + BitVec.ofNat 32 1 from rfl, e3, e2, e1]
  rw [show (busAddr addr + j) % 4 = j by omega]

/-- The IOC's range is the IOC's (R62, R66). -/
theorem region_ioc {s : State} (hp : s.params.wf) {a : Nat} (h : 0x3200000 ≤ a) (k : a < 0x3400000) : s.region a = .ioc := by
  have := hp.2.1
  rcases region_cases s a with ⟨c1, c2, k⟩ | ⟨c1, c2, c3, k⟩ | ⟨c1, c2, c3, k⟩ | ⟨c1, c2, c3, c4, c5, k⟩ | ⟨c1, c2, c3, c4, c5, k⟩ | ⟨c1, c2, c3, c4, c5, c6, k⟩ | ⟨c1, c2, c3, c4, c5, k⟩ <;> first | exact k | (exfalso; omega)

/-- The VIDC port's range is the port's (R62, R66). -/
theorem region_vidc {s : State} (hp : s.params.wf) {a : Nat} (h : 0x3400000 ≤ a) (k : a < 0x3600000) : s.region a = .vidc := by
  have := hp.2.1
  rcases region_cases s a with ⟨c1, c2, k⟩ | ⟨c1, c2, c3, k⟩ | ⟨c1, c2, c3, k⟩ | ⟨c1, c2, c3, c4, c5, k⟩ | ⟨c1, c2, c3, c4, c5, k⟩ | ⟨c1, c2, c3, c4, c5, c6, k⟩ | ⟨c1, c2, c3, c4, c5, k⟩ <;> first | exact k | (exfalso; omega)

/-- A byte zero-extended. -/
theorem byte_zero_extended (b : Byte) : (b.setWidth 32 : Word) = 0#24 ++ b := by
  apply BitVec.eq_of_toNat_eq
  have := b.isLt
  rw [BitVec.toNat_append, BitVec.toNat_setWidth]
  simp
  omega

/-- A rotation by nothing. -/
theorem ror32_zero (w : Word) : ror32 w (8 * 0) = w := by simp [ror32, BitVec.rotateRight, BitVec.rotateRightAux]

/-- A word store to RAM leaves every byte outside the word as it reads. -/
theorem readByte_writeWord {s : State} {addr : Word} (v : Word) (hr : s.region (alignedAddr addr) = .ram) (hl : alignedAddr addr ≠ s.params.bootLatch)
   (x : Word) (hx : busAddr x < alignedAddr addr ∨ alignedAddr addr + 4 ≤ busAddr x) : (s.writeWord addr v).readByte x = s.readByte x := by
  rw [writeWord_of_ram v hr]
  have hb : (s.isBootMode && !(alignedAddr addr == s.params.bootLatch)) = s.isBootMode := by simp [hl]
  rw [hb]
  unfold State.readByte
  congr 1
  have hreg : ({ s with ram := s.ram.writeWord (alignedAddr addr) v } : State).region (busAddr x) = s.region (busAddr x) := rfl
  unfold State.busByte
  rw [show ({ regs := s.regs, cpsr := s.cpsr, spsrFiq := s.spsrFiq, spsrIrq := s.spsrIrq, spsrSvc := s.spsrSvc, isBootMode := s.isBootMode, ram := s.ram.writeWord (alignedAddr addr) v, rom := s.rom, ioc := s.ioc, vidc := s.vidc, params := s.params, diags := s.diags } : State).region (busAddr x) = s.region (busAddr x) from rfl]
  cases s.region (busAddr x) <;> first | rfl | skip
  simp only [Memory.read_writeWord_other _ v hx]

/-- A byte store to RAM leaves every other byte as it reads. -/
theorem readByte_writeByte {s : State} {addr : Word} (b : Byte) (hr : s.region (busAddr addr) = .ram)
   (x : Word) (hx : busAddr x ≠ busAddr addr) : (s.writeByte addr b).readByte x = s.readByte x := by
  rw [writeByte_of_ram b hr]
  unfold State.readByte
  congr 1
  unfold State.busByte
  rw [show ({ regs := s.regs, cpsr := s.cpsr, spsrFiq := s.spsrFiq, spsrIrq := s.spsrIrq, spsrSvc := s.spsrSvc, isBootMode := s.isBootMode, ram := s.ram.write (busAddr addr) b, rom := s.rom, ioc := s.ioc, vidc := s.vidc, params := s.params, diags := s.diags } : State).region (busAddr x) = s.region (busAddr x) from rfl]
  cases s.region (busAddr x) <;> first | rfl | skip
  simp only [Memory.read_write_other _ b hx]

end Sys2Proof.Machine
end

