-- ==== Sys2Proof/Laws/Ops.lean ====
section
/-! SUPPORT. What the register operations, conditional execution, exception entry, the restore of CPSR and one step can
do, each said once. -/

namespace Sys2Proof.Machine

/-! ### Registers -/

/-- A write gives the register the value it can hold. -/
theorem RegFile.get_set_same (r : RegFile) (p : PhysReg) (v : Word) : (r.set p v).get p = p.held v := by
  cases p <;> rfl

/-- A write changes no other register. -/
theorem RegFile.get_set_other (r : RegFile) {p q : PhysReg} (v : Word) (h : q ≠ p) : (r.set p v).get q = r.get q := by
  cases p <;> cases q <;> first | rfl | exact absurd rfl h

theorem RegFile.get_set (r : RegFile) (p q : PhysReg) (v : Word) :
    (r.set p v).get q = if q = p then p.held v else r.get q := by
  split
  · next h => subst h; exact RegFile.get_set_same r q v
  · next h => exact RegFile.get_set_other r v h

/-- Register files with the same contents are equal. -/
theorem RegFile.ext_get {r q : RegFile} (h : ∀ p, r.get p = q.get p) : r = q := by
  cases r; cases q
  congr 1
  exacts [h .r0, h .r1, h .r2, h .r3, h .r4, h .r5, h .r6, h .r7, h .r8usr, h .r9usr, h .r10usr, h .r11usr,
    h .r12usr, h .r8fiq, h .r9fiq, h .r10fiq, h .r11fiq, h .r12fiq, h .r13usr, h .r14usr, h .r13fiq, h .r14fiq,
    h .r13irq, h .r14irq, h .r13svc, h .r14svc, h .r15]

theorem RegFile.get_r15 (r : RegFile) : r.get .r15 = r.r15 := rfl

/-- In one mode, two register numbers never select one physical register (R22). -/
theorem phys_injective {m : Mode} {i j : Reg} (h : phys m i = phys m j) : i = j := by
  cases i <;> cases j <;> first | rfl | (cases m <;> exact PhysReg.noConfusion h)

theorem phys_r15 (m : Mode) : phys m .r15 = .r15 := by cases m <;> rfl

theorem phys_eq_r15 {m : Mode} {i : Reg} : phys m i = .r15 ↔ i = .r15 := by
  refine ⟨fun h => phys_injective (h.trans (phys_r15 m).symm), ?_⟩
  rintro rfl
  exact phys_r15 m

theorem PhysReg.held_r15 (v : Word) : PhysReg.held .r15 v = v &&& Config.pcMask := rfl

theorem PhysReg.held_of_ne {p : PhysReg} (h : p ≠ .r15) (v : Word) : p.held v = v := by
  simp [PhysReg.held, h]

/-- What is masked twice is masked once. -/
theorem and_pcMask_idem (v : Word) : v &&& Config.pcMask &&& Config.pcMask = v &&& Config.pcMask := by
  rw [BitVec.and_assoc, BitVec.and_self]

theorem setPc_pc (s : State) (v : Word) : (s.setPc v).pc = v &&& Config.pcMask := rfl

theorem pc_eq_get (s : State) : s.pc = s.regs.get .r15 := rfl

/-- R15 stays a multiple of 4 below 2^26, whichever register is written (R24). -/
theorem setPhys_pc_masked (s : State) (p : PhysReg) (v : Word) (h : s.pc &&& Config.pcMask = s.pc) :
    (s.setPhys p v).pc &&& Config.pcMask = (s.setPhys p v).pc := by
  simp only [pc_eq_get, setPhys_regs, RegFile.get_set] at h ⊢
  split
  · next hp => subst hp; exact and_pcMask_idem v
  · exact h

/-! ### Fetch addresses -/

theorem pcMask_getLsbD (i : Nat) : Config.pcMask.getLsbD i = decide (2 ≤ i ∧ i < 26) := by
  by_cases h : i < 32
  · interval_cases i <;> rfl
  · rw [BitVec.getLsbD_of_ge _ _ (by omega)]
    simp; omega

/-- PC_MASK keeps the low 26 bits and rounds down to a multiple of 4. -/
theorem and_pcMask_toNat (v : Word) : (v &&& Config.pcMask).toNat = v.toNat % 2 ^ 26 / 4 * 4 := by
  have e : v &&& Config.pcMask = BitVec.ofNat 32 (v.toNat % 2 ^ 26 / 2 ^ 2 * 2 ^ 2) := by
    apply BitVec.eq_of_getLsbD_eq
    intro i hi
    simp only [BitVec.getLsbD_and, pcMask_getLsbD, BitVec.getLsbD_ofNat, Nat.testBit_mul_two_pow,
      Nat.testBit_div_two_pow, Nat.testBit_mod_two_pow, hi]
    by_cases h2 : 2 ≤ i
    · have : i - 2 + 2 = i := by omega
      simp [h2, this, BitVec.getLsbD, Bool.and_comm]
    · simp [h2]
  rw [e, BitVec.toNat_ofNat]
  have := v.isLt
  omega

theorem advance_pc (s : State) : s.advance.pc = (s.pc + 4#32) &&& Config.pcMask := rfl

/-- After the advance the address fetched from is the old R15 (R26, log 8). -/
theorem advance_fetchPc (s : State) (h : s.pc &&& Config.pcMask = s.pc) : s.advance.fetchPc = s.pc := by
  have h' := congrArg BitVec.toNat h
  rw [and_pcMask_toNat] at h'
  have e : s.advance.fetchPc = (((s.pc + 4#32) &&& Config.pcMask) - 4#32) &&& Config.pcMask := rfl
  rw [e]
  apply BitVec.eq_of_toNat_eq
  rw [and_pcMask_toNat, BitVec.toNat_sub, and_pcMask_toNat, BitVec.toNat_add]
  have := s.pc.isLt
  have h4 : (4#32 : Word).toNat = 4 := rfl
  rw [h4]
  omega

theorem advance_operandPc (s : State) (h : s.pc &&& Config.pcMask = s.pc) :
    s.advance.operandPc = (s.pc + 8#32) &&& Config.pcMask := by
  rw [State.operandPc, advance_fetchPc s h]

theorem advance_nextPc (s : State) (h : s.pc &&& Config.pcMask = s.pc) :
    s.advance.nextPc = (s.pc + 4#32) &&& Config.pcMask := by
  rw [State.nextPc, advance_fetchPc s h]

/-! ### The restore of CPSR -/

/-- The restore changes CPSR alone: to the SPSR of the mode, and not at all in User mode (R140). -/
theorem restoreCpsr_eq (s : State) : s.restoreCpsr = s.setCpsr ((s.spsr s.cpsr.mode).getD s.cpsr) := by
  unfold State.restoreCpsr
  cases h : s.spsr s.cpsr.mode <;> rfl

/-! ### Conditional execution -/

theorem conditional_pass {c : Cond} {s : State} (f : State → State) (h : condPassed c s.cpsr = true) :
    conditional c s f = .next (f s) := by
  unfold conditional
  rw [if_pos h]

theorem conditional_fail {c : Cond} {s : State} (f : State → State) (h : condPassed c s.cpsr = false) :
    conditional c s f = .next s := by
  unfold conditional
  rw [if_neg (by simp [h])]

/-- What an instruction does to the state when its condition passes. -/
def effect : Instr → State → State
  | .mul _ f rd _ rs rm, s => multiply 0 f rd rs rm s
  | .mla _ f rd rn rs rm, s => multiply (s.readReg rn) f rd rs rm s
  | .and _ f rn rd op2, s => dataProcessing aluAnd false f rn rd op2 s
  | .eor _ f rn rd op2, s => dataProcessing aluEor false f rn rd op2 s
  | .sub _ f rn rd op2, s => dataProcessing aluSub false f rn rd op2 s
  | .rsb _ f rn rd op2, s => dataProcessing aluRsb false f rn rd op2 s
  | .add _ f rn rd op2, s => dataProcessing aluAdd false f rn rd op2 s
  | .adc _ f rn rd op2, s => dataProcessing aluAdc false f rn rd op2 s
  | .sbc _ f rn rd op2, s => dataProcessing aluSbc false f rn rd op2 s
  | .rsc _ f rn rd op2, s => dataProcessing aluRsc false f rn rd op2 s
  | .tst _ f rn rd op2, s => dataProcessing aluAnd true f rn rd op2 s
  | .teq _ f rn rd op2, s => dataProcessing aluEor true f rn rd op2 s
  | .cmp _ f rn rd op2, s => dataProcessing aluSub true f rn rd op2 s
  | .cmn _ f rn rd op2, s => dataProcessing aluAdd true f rn rd op2 s
  | .orr _ f rn rd op2, s => dataProcessing aluOrr false f rn rd op2 s
  | .mov _ f rn rd op2, s => dataProcessing aluMov false f rn rd op2 s
  | .bic _ f rn rd op2, s => dataProcessing aluBic false f rn rd op2 s
  | .mvn _ f rn rd op2, s => dataProcessing aluMvn false f rn rd op2 s
  | .unimplSdtRegshift c hi lo, s => unimplemented (.unimplSdtRegshift c hi lo) s
  | .ldr _ p u w rn rd off, s => singleTransfer (loadWord rd) p u w rn off s
  | .ldrb _ p u w rn rd off, s => singleTransfer (loadByte rd) p u w rn off s
  | .str _ p u w rn rd off, s => singleTransfer (storeRegWord rd) p u w rn off s
  | .strb _ p u w rn rd off, s => singleTransfer (storeRegByte rd) p u w rn off s
  | .ldm _ p u f w rn list, s => blockLoad p u f w rn list s
  | .stm _ p u f w rn list, s => blockStore p u f w rn list s
  | .b _ off24, s => s.setPc (s.branchTarget off24)
  | .bl _ off24, s => (s.writeReg .r14 s.nextPc).setPc (s.branchTarget off24)
  | .swi _ _, s => s.takeSwi
  | .unimplCoprocTransfer c rest, s => unimplemented (.unimplCoprocTransfer c rest) s
  | .unimplCoprocOp c rest, s => unimplemented (.unimplCoprocOp c rest) s

/-- Every instruction answers a next state: its effect where its condition passes, the state itself where it fails. -/
theorem exec_eq (i : Instr) (s : State) :
    exec i s = .next (if condPassed i.cond s.cpsr then effect i s else s) := by
  cases i <;> rfl

theorem exec_pass {i : Instr} {s : State} (h : condPassed i.cond s.cpsr = true) : exec i s = .next (effect i s) := by
  rw [exec_eq, if_pos h]

theorem exec_fail {i : Instr} {s : State} (h : condPassed i.cond s.cpsr = false) : exec i s = .next s := by
  rw [exec_eq, if_neg (by simp [h])]

/-! ### Exception entry -/

theorem raise_cpsr (s : State) (m : Mode) (vec ret : Word) (f : Bool) :
    (s.raise m vec ret f).cpsr = s.cpsr.entered m f := by cases m <;> rfl

theorem raise_pc (s : State) (m : Mode) (vec ret : Word) (f : Bool) :
    (s.raise m vec ret f).pc = vec &&& Config.pcMask := rfl

theorem raise_spsr (s : State) (m : Mode) (vec ret : Word) (f : Bool) (q : Mode) :
    (s.raise m vec ret f).spsr q = if q = m ∧ q ≠ .usr then some s.cpsr else s.spsr q := by
  cases m <;> cases q <;> rfl

/-- An entry writes R14 of the target mode and R15, and no other register. -/
theorem raise_get (s : State) (m : Mode) (vec ret : Word) (f : Bool) (p : PhysReg) :
    (s.raise m vec ret f).regs.get p =
      if p = .r15 then vec &&& Config.pcMask else if p = phys m .r14 then ret else s.regs.get p := by
  have hr : (s.raise m vec ret f).regs = (s.regs.set (phys m .r14) ret).set .r15 vec := by cases m <;> rfl
  rw [hr, RegFile.get_set, RegFile.get_set]
  split
  · rfl
  · split
    · next h1 h2 => exact PhysReg.held_of_ne (h2 ▸ h1) ret
    · rfl

/-! ### One step -/

/-- The state with the diagnostic list of the step before dropped, as every step begins. -/
def State.started (s : State) : State := { s with diags := [] }

/-- Everything a step can do (R100): enter FIQ, enter IRQ, stop at the sentinel, or run the fetched instruction. -/
theorem step_cases (s : State) :
    (s.fiqPending = true ∧ step s = .next s.started.takeFiq) ∨
    (s.fiqPending = false ∧ s.irqPending = true ∧ step s = .next s.started.takeIrq) ∨
    (s.fiqPending = false ∧ s.irqPending = false ∧ s.fetchWord = Config.sentinel ∧ step s = .fault (.invalidPC s.pc)) ∨
    (s.fiqPending = false ∧ s.irqPending = false ∧ s.fetchWord ≠ Config.sentinel ∧
      step s = exec (decodeWord s.fetchWord) s.started.advance) := by
  have hf : s.started.fiqPending = s.fiqPending := rfl
  have hi : s.started.irqPending = s.irqPending := rfl
  have hw : s.started.fetchWord = s.fetchWord := rfl
  have hs : step s = match s.started.enterPending with
      | some entered => .next entered
      | none => if s.started.fetchWord = Config.sentinel then .fault (.invalidPC s.started.pc)
                else exec (decodeWord s.started.fetchWord) s.started.advance := rfl
  rw [hs]
  unfold State.enterPending State.takesException
  rw [hf, hi, hw]
  cases h1 : s.fiqPending
  · cases h2 : s.irqPending
    · by_cases h3 : s.fetchWord = Config.sentinel
      · exact .inr (.inr (.inl ⟨rfl, rfl, h3, by simp only [if_pos h3]; rfl⟩))
      · exact .inr (.inr (.inr ⟨rfl, rfl, h3, by simp only [if_neg h3]; rfl⟩))
    · exact .inr (.inl ⟨rfl, rfl, rfl⟩)
  · exact .inl ⟨rfl, rfl⟩

/-- A step that answers a next state entered FIQ, entered IRQ, or ran an instruction. -/
theorem step_next_cases {s t : State} (h : step s = .next t) :
    (s.fiqPending = true ∧ t = s.started.takeFiq) ∨
    (s.fiqPending = false ∧ s.irqPending = true ∧ t = s.started.takeIrq) ∨
    (s.fiqPending = false ∧ s.irqPending = false ∧ s.fetchWord ≠ Config.sentinel ∧
      t = if condPassed (decodeWord s.fetchWord).cond s.cpsr then effect (decodeWord s.fetchWord) s.started.advance
          else s.started.advance) := by
  rcases step_cases s with ⟨a, e⟩ | ⟨a, b, e⟩ | ⟨-, -, -, e⟩ | ⟨a, b, c, e⟩
  · rw [e] at h; cases h; exact .inl ⟨a, rfl⟩
  · rw [e] at h; cases h; exact .inr (.inl ⟨a, b, rfl⟩)
  · rw [e] at h; cases h
  · rw [e, exec_eq] at h
    cases h
    exact .inr (.inr ⟨a, b, c, rfl⟩)

end Sys2Proof.Machine
end

