-- ==== Sys2Proof/Laws/Exec.lean ====
section
/-! SUPPORT. What each shared operation of the meanings can do, said once: the adder, the data-processing algorithm, the
multiply unit, the transfers and the blocks. -/

namespace Sys2Proof.Machine

/-! ### The adder -/

theorem addWithCarry_sum (a b : Word) (c : Bool) :
    (addWithCarry a b c).1 = a + b + BitVec.ofNat 32 c.toNat := by
  apply BitVec.eq_of_toNat_eq
  simp only [addWithCarry, BitVec.toNat_ofNat, BitVec.toNat_add]
  omega

theorem addWithCarry_carry (a b : Word) (c : Bool) :
    (addWithCarry a b c).2.1 = decide (2 ^ 32 ≤ a.toNat + b.toNat + c.toNat) := rfl

/-- The overflow of the adder: the sum is not the exact one (R137). -/
theorem addWithCarry_overflow (a b : Word) (c : Bool) :
    (addWithCarry a b c).2.2 = decide ((addWithCarry a b c).1.toInt ≠ a.toInt + b.toInt + (c.toNat : Int)) := by
  have hk : (BitVec.ofNat 32 c.toNat).toInt = (c.toNat : Int) := by cases c <;> rfl
  have e : (addWithCarry a b c).1.toInt = (a.toInt + b.toInt + (c.toNat : Int)).bmod (2 ^ 32) := by
    rw [addWithCarry_sum, BitVec.toInt_add, BitVec.toInt_add, hk, Int.bmod_add_bmod]
  rw [e]
  have ha := a.toInt_lt
  have ha' := a.le_toInt
  have hb := b.toInt_lt
  have hb' := b.le_toInt
  have hc : (c.toNat : Int) ≤ 1 := by cases c <;> simp
  have hc' : (0 : Int) ≤ (c.toNat : Int) := by cases c <;> simp
  have h : (addWithCarry a b c).2.2 = (decide (a.toInt + b.toInt + (c.toNat : Int) < -2147483648) ||
    decide (2147483647 < a.toInt + b.toInt + (c.toNat : Int))) := rfl
  rw [h, Bool.eq_iff_iff]
  simp only [Bool.or_eq_true, decide_eq_true_eq]
  generalize (c.toNat : Int) = k at *
  generalize a.toInt = x at *
  generalize b.toInt = y at *
  simp only [Int.bmod_def]
  norm_num at *
  split <;> omega

/-- The adder's answer as an exact sum: carry and overflow compare it with the narrowed one (R137). -/
theorem ofAdder_eq (a b : Word) (c : Bool) : AluOut.ofAdder (addWithCarry a b c) =
    .arithmetic (a + b + BitVec.ofNat 32 c.toNat) (decide (2 ^ 32 ≤ a.toNat + b.toNat + c.toNat))
      (decide ((a + b + BitVec.ofNat 32 c.toNat).toInt ≠ a.toInt + b.toInt + (c.toNat : Int))) := by
  unfold AluOut.ofAdder
  rw [addWithCarry_overflow, addWithCarry_sum, addWithCarry_carry]

theorem not_toInt (b : Word) : (~~~b).toInt = -1 - b.toInt := by
  rw [BitVec.toInt_not]
  have := b.toInt_lt
  have := b.le_toInt
  rw [Int.bmod_def]
  have := b.toInt_eq_toNat_cond
  have := b.isLt
  split at * <;> split <;> omega

theorem sub_form (a b : Word) (c : Bool) : a + ~~~b + BitVec.ofNat 32 c.toNat =
    a - b - BitVec.ofNat 32 (1 - c.toNat) := by
  apply BitVec.eq_of_toNat_eq
  have := a.isLt
  have := b.isLt
  cases c <;> simp [BitVec.toNat_add, BitVec.toNat_sub] <;> omega

/-- A subtraction through the adder: C is "no borrow" (R137). -/
theorem ofAdder_sub (a b : Word) (c : Bool) : AluOut.ofAdder (addWithCarry a (~~~b) c) =
    .arithmetic (a - b - BitVec.ofNat 32 (1 - c.toNat)) (decide (b.toNat + (1 - c.toNat) ≤ a.toNat))
      (decide ((a - b - BitVec.ofNat 32 (1 - c.toNat)).toInt ≠ a.toInt - b.toInt - ((1 - c.toNat : Nat) : Int))) := by
  rw [ofAdder_eq, sub_form, not_toInt]
  have := a.isLt
  have := b.isLt
  have h1 : (2 ^ 32 ≤ a.toNat + (~~~b).toNat + c.toNat) ↔ (b.toNat + (1 - c.toNat) ≤ a.toNat) := by
    rw [BitVec.toNat_not]
    have : c.toNat ≤ 1 := Bool.toNat_le c
    omega
  have h2 : a.toInt + (-1 - b.toInt) + (c.toNat : Int) = a.toInt - b.toInt - ((1 - c.toNat : Nat) : Int) := by
    have : c.toNat ≤ 1 := Bool.toNat_le c
    omega
  rw [h2]
  simp only [h1]

theorem msb_bit31 (r : Word) : r.msb = r.getLsbD 31 := by rw [BitVec.msb_eq_getLsbD_last]
theorem beq_zero (r : Word) : (r == 0) = decide (r = 0) := by
  rfl

/-! ### Frames -/

/-- The fields that only CPSR and register writes leave alone. -/
structure State.SameOutside (s t : State) : Prop where
  bus : s.SameBus t
  spsrs : s.SpsrsKept t
  diags : t.diags = s.diags

theorem State.SameOutside.refl (s : State) : s.SameOutside s := ⟨State.SameBus.rfl' s, ⟨rfl, rfl, rfl⟩, rfl⟩

theorem State.SameOutside.onlyRegs {s t : State} {ps : List PhysReg} (h : s.SameOutside t) (k : s.RegsKeptBut t ps) :
    s.OnlyRegs t ps := ⟨k, h.spsrs, h.bus.memoryKept, h.bus.devicesKept, h.diags⟩

theorem restoreCpsr_fields (s : State) : s.restoreCpsr.regs = s.regs ∧ s.restoreCpsr.spsrFiq = s.spsrFiq ∧
    s.restoreCpsr.spsrIrq = s.spsrIrq ∧ s.restoreCpsr.spsrSvc = s.spsrSvc ∧ s.restoreCpsr.diags = s.diags := by
  rw [restoreCpsr_eq]
  exact ⟨rfl, rfl, rfl, rfl, rfl⟩

theorem restoreCpsr_cpsr (s : State) : s.restoreCpsr.cpsr = (s.spsr s.cpsr.mode).getD s.cpsr := by
  rw [restoreCpsr_eq]
  rfl

/-! ### Data-processing -/

theorem Psr.setFlags_mode (p : Psr) (out : AluOut) (sc : Bool) : (p.setFlags out sc).mode = p.mode := by
  cases out <;> rfl

/-- Everything a data-processing instruction that writes its destination can do (R130, R140). -/
theorem dataProcessing_writes (alu : Word → Word → Bool → AluOut) (f : Bool) (rn rd : Reg) (op2 : Operand2) (s : State) :
    s.OnlyRegs (dataProcessing alu false f rn rd op2 s) [phys s.cpsr.mode rd] ∧
    (dataProcessing alu false f rn rd op2 s).regs.get (phys s.cpsr.mode rd) =
      (phys s.cpsr.mode rd).held (alu (s.readReg rn) (s.operand2 op2).1 s.cpsr.c).result ∧
    (dataProcessing alu false f rn rd op2 s).cpsr =
      s.cpsrAfter rd f (s.cpsr.setFlags (alu (s.readReg rn) (s.operand2 op2).1 s.cpsr.c) (s.operand2 op2).2) := by
  unfold dataProcessing State.cpsrAfter
  simp only [Bool.or_false, Bool.false_eq_true, if_false]
  generalize s.operand2 op2 = o
  generalize alu (s.readReg rn) o.1 s.cpsr.c = out
  have hm : (if f = true then s.setCpsr (s.cpsr.setFlags out o.2) else s).cpsr.mode = s.cpsr.mode := by
    split
    · exact Psr.setFlags_mode _ _ _
    · rfl
  generalize hg : (if f = true then s.setCpsr (s.cpsr.setFlags out o.2) else s) = g at hm
  have hgs : s.SameOutside g := by
    subst hg; split
    · exact ⟨setCpsr_sameBus _ _, ⟨rfl, rfl, rfl⟩, rfl⟩
    · exact .refl s
  have hgr : g.regs = s.regs := by subst hg; split <;> rfl
  have hgc : g.cpsr = if f = true then s.cpsr.setFlags out o.2 else s.cpsr := by subst hg; split <;> rfl
  have hgp : g.spsr s.cpsr.mode = s.spsr s.cpsr.mode := by subst hg; split <;> (cases s.cpsr.mode <;> rfl)
  have hwr : (g.writeReg rd out.result).regs = s.regs.set (phys s.cpsr.mode rd) out.result := by
    rw [writeReg_regs, hgr, hm]
  have hws : s.SameOutside (g.writeReg rd out.result) :=
    ⟨hgs.bus.trans (setPhys_sameBus _ _ _), hgs.spsrs, hgs.diags⟩
  have frame : ∀ t : State, s.SameOutside t → t.regs = (g.writeReg rd out.result).regs →
      s.OnlyRegs t [phys s.cpsr.mode rd] ∧ t.regs.get (phys s.cpsr.mode rd) =
        (phys s.cpsr.mode rd).held out.result := by
    intro t ht hr
    rw [hwr] at hr
    refine ⟨ht.onlyRegs fun q hq => ?_, ?_⟩
    · rw [hr, RegFile.get_set_other _ _ (by simpa using hq)]
    · rw [hr, RegFile.get_set_same]
  split
  · next h =>
    obtain ⟨f1, f2, f3, f4, f5⟩ := restoreCpsr_fields (g.writeReg rd out.result)
    have := frame (g.writeReg rd out.result).restoreCpsr
      ⟨hws.bus.trans (restoreCpsr_sameBus _), ⟨f2.trans hws.spsrs.1, f3.trans hws.spsrs.2.1, f4.trans hws.spsrs.2.2⟩,
        f5.trans hws.diags⟩ f1
    refine ⟨this.1, this.2, ?_⟩
    rw [restoreCpsr_cpsr]
    have e : (g.writeReg rd out.result).spsr (g.writeReg rd out.result).cpsr.mode = s.spsr s.cpsr.mode := by
      rw [writeReg_cpsr, hm, ← hgp]
      cases s.cpsr.mode <;> rfl
    rw [e, writeReg_cpsr, hgc, if_pos h.2]
  · next h =>
    have := frame _ hws rfl
    exact ⟨this.1, this.2, by rw [writeReg_cpsr, hgc]⟩

/-- Everything TST, TEQ, CMP and CMN can do (R130, R140). -/
theorem dataProcessing_tests (alu : Word → Word → Bool → AluOut) (f : Bool) (rn rd : Reg) (op2 : Operand2) (s : State) :
    s.OnlyRegs (dataProcessing alu true f rn rd op2 s) [] ∧
    (dataProcessing alu true f rn rd op2 s).cpsr =
      s.cpsrAfterTest rd f (s.cpsr.setFlags (alu (s.readReg rn) (s.operand2 op2).1 s.cpsr.c) (s.operand2 op2).2) := by
  unfold dataProcessing State.cpsrAfterTest
  simp only [Bool.or_true, if_true]
  generalize s.operand2 op2 = o
  generalize alu (s.readReg rn) o.1 s.cpsr.c = out
  have hgs : s.SameOutside (s.setCpsr (s.cpsr.setFlags out o.2)) := ⟨setCpsr_sameBus _ _, ⟨rfl, rfl, rfl⟩, rfl⟩
  split
  · next h =>
    obtain ⟨f1, f2, f3, f4, f5⟩ := restoreCpsr_fields (s.setCpsr (s.cpsr.setFlags out o.2))
    refine ⟨State.SameOutside.onlyRegs ⟨hgs.bus.trans (restoreCpsr_sameBus _), ⟨f2, f3, f4⟩, f5⟩ fun q _ => by rw [f1]; rfl, ?_⟩
    rw [restoreCpsr_cpsr]
    have hm : (s.setCpsr (s.cpsr.setFlags out o.2)).cpsr.mode = s.cpsr.mode := Psr.setFlags_mode _ _ _
    rw [hm]
    cases s.cpsr.mode <;> rfl
  · exact ⟨hgs.onlyRegs fun q _ => rfl, rfl⟩

/-! ### Multiply -/

/-- Everything the multiply unit can do (R180). -/
theorem multiply_writes (acc : Word) (f : Bool) (rd rs rm : Reg) (s : State) :
    s.OnlyRegs (multiply acc f rd rs rm s) [phys s.cpsr.mode rd] ∧
    (multiply acc f rd rs rm s).regs.get (phys s.cpsr.mode rd) =
      (phys s.cpsr.mode rd).held (s.readReg rm * s.readReg rs + acc) ∧
    (multiply acc f rd rs rm s).cpsr =
      if f then s.cpsr.setNZ (s.readReg rm * s.readReg rs + acc) else s.cpsr := by
  have hr : BitVec.ofNat 32 ((s.readReg rm).toNat * (s.readReg rs).toNat + acc.toNat) =
      s.readReg rm * s.readReg rs + acc := by
    apply BitVec.eq_of_toNat_eq
    simp [BitVec.toNat_add, BitVec.toNat_mul]
  unfold multiply
  rw [hr]
  generalize s.readReg rm * s.readReg rs + acc = r
  cases f
  · refine ⟨State.SameOutside.onlyRegs ⟨setPhys_sameBus _ _ _, ⟨rfl, rfl, rfl⟩, rfl⟩ fun q hq => ?_, ?_, rfl⟩
    · exact RegFile.get_set_other _ _ (by simpa using hq)
    · exact RegFile.get_set_same _ _ _
  · refine ⟨State.SameOutside.onlyRegs ⟨⟨rfl, rfl, rfl, rfl, rfl, rfl⟩, ⟨rfl, rfl, rfl⟩, rfl⟩ fun q hq => ?_, ?_, rfl⟩
    · exact RegFile.get_set_other _ _ (fun h => hq (List.mem_singleton.mpr h))
    · exact RegFile.get_set_same _ _ _

/-! ### Single data transfers -/

/-- What a base write-back can do: the base register, or nothing (R190). -/
theorem writeBack_eq (s : State) (p w : Bool) (rn : Reg) (eff : Word) :
    s.writeBack p w rn eff = if p = false ∨ w = true then s.writeReg rn eff else s := rfl

/-- Everything a load can do: the destination, then the base write-back (R190, R192, R193). -/
theorem load_writeBack (s : State) (p w : Bool) (rn rd : Reg) (eff v : Word) (ds : List Diag) :
    ∃ t, ((s.emit ds).writeReg rd v).writeBack p w rn eff = t ∧
      (p = true ∧ w = false → s.RegsKeptBut t [phys s.cpsr.mode rd] ∧ t.regs.get (phys s.cpsr.mode rd) = (phys s.cpsr.mode rd).held v) ∧
      (p = false ∨ w = true → s.RegsKeptBut t [phys s.cpsr.mode rd, phys s.cpsr.mode rn] ∧ t.regs.get (phys s.cpsr.mode rn) = (phys s.cpsr.mode rn).held eff ∧
        (rd ≠ rn → t.regs.get (phys s.cpsr.mode rd) = (phys s.cpsr.mode rd).held v)) ∧
      t.cpsr = s.cpsr ∧ s.SpsrsKept t ∧ s.MemoryKept t ∧ s.DevicesKept t ∧
      t.diags = s.diags ++ ds := by
  refine ⟨_, rfl, ?_⟩
  unfold State.writeBack
  split
  · next h =>
    refine ⟨fun k => ?_, fun _ => ⟨fun q hq => ?_, ?_, fun hne => ?_⟩, rfl, ⟨rfl, rfl, rfl⟩, State.SameBus.memoryKept ⟨rfl, rfl, rfl, rfl, rfl, rfl⟩, ⟨rfl, rfl, rfl, rfl⟩, rfl⟩
    · rcases h with h | h <;> simp_all
    · simp only [List.mem_cons, List.not_mem_nil, or_false, not_or] at hq
      change ((s.regs.set (phys s.cpsr.mode rd) v).set (phys s.cpsr.mode rn) eff).get q = _
      rw [RegFile.get_set_other _ _ hq.2, RegFile.get_set_other _ _ hq.1]
    · exact RegFile.get_set_same _ _ _
    · change ((s.regs.set (phys s.cpsr.mode rd) v).set (phys s.cpsr.mode rn) eff).get _ = _
      rw [RegFile.get_set_other _ _ (fun h => hne (phys_injective h)), RegFile.get_set_same]
  · next h =>
    refine ⟨fun k => ⟨fun q hq => ?_, RegFile.get_set_same _ _ _⟩, fun k => absurd k h, rfl, ⟨rfl, rfl, rfl⟩, State.SameBus.memoryKept ⟨rfl, rfl, rfl, rfl, rfl, rfl⟩, ⟨rfl, rfl, rfl, rfl⟩, rfl⟩
    exact RegFile.get_set_other _ _ (by simpa using hq)

/-! ### Block data transfers -/

/-- The words of a block load, one for each listed register, at ascending addresses. -/
theorem loadBlock_sameBus (userBank : Bool) (rs : List Reg) (addr : Word) (s : State) :
    s.SameBus (loadBlock userBank rs addr s) ∧ s.SpsrsKept (loadBlock userBank rs addr s) ∧
      (loadBlock userBank rs addr s).cpsr = s.cpsr := by
  induction rs generalizing addr s with
  | nil => exact ⟨State.SameBus.rfl' s, ⟨rfl, rfl, rfl⟩, rfl⟩
  | cons i rest ih =>
    unfold loadBlock
    cases userBank
    · obtain ⟨h1, h2, h3⟩ := ih (addr + 4#32) ((s.emit (s.readWordDiags addr)).writeReg i (s.readWord addr))
      exact ⟨State.SameBus.trans ⟨rfl, rfl, rfl, rfl, rfl, rfl⟩ h1, h2, h3⟩
    · obtain ⟨h1, h2, h3⟩ := ih (addr + 4#32) ((s.emit (s.readWordDiags addr)).writeUser i (s.readWord addr))
      exact ⟨State.SameBus.trans ⟨rfl, rfl, rfl, rfl, rfl, rfl⟩ h1, h2, h3⟩

/-- Stores never change what a register reads as. -/
theorem readIn_writeWord (s : State) (addr v : Word) (m : Mode) (i : Reg) :
    (s.writeWord addr v).readIn m i = s.readIn m i := rfl

end Sys2Proof.Machine
end

