-- ==== Sys2Proof/Laws/Blocks.lean ====
section
/-! SUPPORT. What a block transfer can do: the places of its words, the registers it loads, the words it stores. -/

namespace Sys2Proof.Machine

/-- Every register number is in the ascending list (R210). -/
theorem mem_allRegs (i : Reg) : i ∈ allRegs := by cases i <;> decide

/-- A register is transferred when its bit of the list is set (R109). -/
theorem mem_listedRegs {list : BitVec 16} {i : Reg} : i ∈ listedRegs list ↔ list.getLsbD i.num.toNat = true := by
  unfold listedRegs inList
  simp [List.mem_filter, mem_allRegs]

/-- No register is transferred twice. -/
theorem listedRegs_nodup (list : BitVec 16) : (listedRegs list).Nodup :=
  List.Nodup.filter _ (by decide)

/-- How many words a block holds (R210). -/
theorem listedRegs_length (list : BitVec 16) :
    (listedRegs list).length = (List.range 16).countP fun j => list.getLsbD j := by
  unfold listedRegs
  rw [← List.countP_eq_length_filter]
  have : List.range 16 = allRegs.map fun i => i.num.toNat := by decide
  rw [this, List.countP_map]
  rfl

/-- The size of a block in bytes (R210). -/
theorem blockBytes_eq (list : BitVec 16) :
    blockBytes list = BitVec.ofNat 32 (4 * (List.range 16).countP fun j => list.getLsbD j) := by
  unfold blockBytes
  rw [listedRegs_length]

/-- The registers below a register, in order. -/
theorem allRegs_split (i : Reg) : ∃ l r, allRegs = l ++ i :: r ∧ i ∉ l ∧
    l.map (fun j => j.num.toNat) = List.range i.num.toNat := by
  refine ⟨allRegs.take i.num.toNat, allRegs.drop (i.num.toNat + 1), ?_⟩
  cases i <;> decide

/-- The place of a register in the block is the number of listed registers below it (R210). -/
theorem listedRegs_idxOf {list : BitVec 16} {i : Reg} (h : list.getLsbD i.num.toNat = true) :
    (listedRegs list).idxOf i = listRank list i := by
  obtain ⟨l, r, e, hn, hm⟩ := allRegs_split i
  unfold listedRegs listRank
  have hi : inList list i = true := h
  rw [e, List.filter_append, List.filter_cons_of_pos hi, List.idxOf_append_of_notMem, List.idxOf_cons_self, ← hm,
    List.countP_map, Nat.add_zero, ← List.countP_eq_length_filter]
  · rfl
  · intro k
    exact hn (List.mem_filter.mp k).1

/-- The bank whose registers a block transfer moves (R214). -/
def loadedIn (ub : Bool) (s : State) : Mode := if ub then .usr else s.cpsr.mode

/-- What a block load reports: what each of its word reads reports, in order. -/
theorem loadBlock_diags (ub : Bool) (rs : List Reg) (addr : Word) (s : State) :
    (loadBlock ub rs addr s).diags = s.diags ++
      (List.range rs.length).flatMap fun k => s.readWordDiags (addr + BitVec.ofNat 32 (4 * k)) := by
  induction rs generalizing addr s with
  | nil => simp [loadBlock]
  | cons i rest ih =>
    unfold loadBlock
    simp only
    have key : ∀ t : State, s.SameBus t → t.diags = s.diags ++ s.readWordDiags addr →
       (loadBlock ub rest (addr + 4#32) t).diags = s.diags ++
         (List.range (i :: rest).length).flatMap fun k => s.readWordDiags (addr + BitVec.ofNat 32 (4 * k)) := by
      intro t ht hd
      rw [ih, hd, List.length_cons, List.range_succ_eq_map, List.flatMap_cons, List.append_assoc]
      congr 1
      simp only [Nat.mul_zero, BitVec.add_zero]
      congr 1
      rw [List.flatMap_map]
      apply List.flatMap_congr
      intro k _
      rw [ht.readWordDiags]
      congr 1
      apply BitVec.eq_of_toNat_eq
      simp [BitVec.toNat_add, BitVec.toNat_ofNat, Nat.mul_add]
      omega
    split
    · exact key _ ⟨rfl, rfl, rfl, rfl, rfl, rfl⟩ rfl
    · exact key _ ⟨rfl, rfl, rfl, rfl, rfl, rfl⟩ rfl

/-- The next word of a block. -/
theorem place_succ (a : Word) (n : Nat) : a + 4#32 + BitVec.ofNat 32 (4 * n) = a + BitVec.ofNat 32 (4 * (n + 1)) := by
  apply BitVec.eq_of_toNat_eq
  simp [BitVec.toNat_add, BitVec.toNat_ofNat, Nat.mul_add]
  omega

/-- What a block load does to a register: a listed one takes the word at its place, any other is kept (R210). -/
theorem loadBlock_get (ub : Bool) (rs : List Reg) (addr : Word) (s : State) (hn : rs.Nodup) (q : PhysReg) :
    (∀ i ∈ rs, phys (loadedIn ub s) i = q → (loadBlock ub rs addr s).regs.get q =
      q.held (s.readWord (addr + BitVec.ofNat 32 (4 * rs.idxOf i)))) ∧
    ((∀ i ∈ rs, phys (loadedIn ub s) i ≠ q) → (loadBlock ub rs addr s).regs.get q = s.regs.get q) := by
  induction rs generalizing addr s with
  | nil => exact ⟨fun i hi => by simp at hi, fun _ => rfl⟩
  | cons j rest ih =>
    have hn' := List.nodup_cons.mp hn
    have e : loadBlock ub (j :: rest) addr s = loadBlock ub rest (addr + 4#32)
       ((s.emit (s.readWordDiags addr)).setPhys (phys (loadedIn ub s) j) (s.readWord addr)) := by
      cases ub <;> rfl
    rw [e]
    generalize hu : (s.emit (s.readWordDiags addr)).setPhys (phys (loadedIn ub s) j) (s.readWord addr) = u
    have hub : s.SameBus u := by subst hu; exact ⟨rfl, rfl, rfl, rfl, rfl, rfl⟩
    have hum : loadedIn ub u = loadedIn ub s := by subst hu; rfl
    have hug : ∀ p, u.regs.get p = if p = phys (loadedIn ub s) j then p.held (s.readWord addr) else s.regs.get p := by
      intro p; subst hu; rw [setPhys_regs, RegFile.get_set]; split
      · next h => rw [h]
      · rfl
    obtain ⟨ih1, ih2⟩ := ih (addr + 4#32) u hn'.2
    rw [hum] at ih1 ih2
    constructor
    · intro i hi hq
      rcases List.mem_cons.mp hi with rfl | hi'
      · rw [ih2 (fun k hk hkq => hn'.1 (phys_injective (hkq.trans hq.symm) ▸ hk)), hug, if_pos hq.symm, List.idxOf_cons_self]
        simp
      · rw [ih1 i hi' hq, hub.readWord, place_succ, List.idxOf_cons_ne]
        rintro rfl; exact hn'.1 hi'
    · intro h
      rw [ih2 (fun k hk => h k (List.mem_cons_of_mem _ hk)), hug, if_neg (fun hh => h j List.mem_cons_self hh.symm)]

/-- A list indexed by place is the list indexed by register. -/
theorem flatMap_idx {α} (l : List Reg) (hn : l.Nodup) (f : Nat → List α) :
    (List.range l.length).flatMap f = l.flatMap fun i => f (l.idxOf i) := by
  induction l generalizing f with
  | nil => rfl
  | cons j rest ih =>
    have hn' := List.nodup_cons.mp hn
    rw [List.length_cons, List.range_succ_eq_map, List.flatMap_cons, List.flatMap_cons, List.idxOf_cons_self,
      List.flatMap_map, ih hn'.2 (fun a => f (a + 1))]
    congr 1
    apply List.flatMap_congr
    intro i hi
    rw [List.idxOf_cons_ne]
    rintro rfl; exact hn'.1 hi

/-- The first address of a block, in the four addressing modes (R211). -/
theorem blockStart_eq (p u : Bool) (base : Word) (list : BitVec 16) : blockStart p u base list =
   let size : Word := BitVec.ofNat 32 (4 * (List.range 16).countP fun j => list.getLsbD j)
   if u then (if p then base + 4#32 else base) else (if p then base - size else base - size + 4#32) := by
  rw [← blockBytes_eq]
  cases p <;> cases u <;> rfl

/-- What the write-back does to a register (R210). -/
theorem blockWriteBack_get (s : State) (w rn v q) : (s.blockWriteBack w rn v).regs.get q =
   if w = true ∧ q = phys s.cpsr.mode rn then q.held v else s.regs.get q := by
  unfold State.blockWriteBack
  cases w
  · rfl
  · simp only [if_true, true_and]
    rw [writeReg_regs, RegFile.get_set]
    split
    · next h => rw [h]
    · rfl

/-- A block store is one word store per listed register, each with its value at the start (R210, R213). -/
theorem storeBlock_eq (ub : Bool) (rs : List Reg) (addr : Word) (s : State) (hn : rs.Nodup) :
    storeBlock ub rs addr s = rs.foldl (fun st i => st.writeWord (addr + BitVec.ofNat 32 (4 * rs.idxOf i))
      (s.readIn (loadedIn ub s) i)) s := by
  have gen : ∀ (rs : List Reg) (addr : Word) (t : State), rs.Nodup → t.cpsr = s.cpsr → t.regs = s.regs →
      storeBlock ub rs addr t = rs.foldl (fun st i => st.writeWord (addr + BitVec.ofNat 32 (4 * rs.idxOf i))
        (s.readIn (loadedIn ub s) i)) t := by
    intro rs
    induction rs with
    | nil => intros; rfl
    | cons j rest ih =>
      intro addr t hn h1 h2
      have hn' := List.nodup_cons.mp hn
      have hv : (if ub then t.readUser j else t.readReg j) = s.readIn (loadedIn ub s) j := by
        unfold loadedIn State.readUser State.readReg State.readIn State.operandPc State.fetchPc State.pc
        rw [h1, h2]; cases ub <;> rfl
      unfold storeBlock
      rw [hv, ih _ (t.writeWord addr _) hn'.2 h1 h2, List.foldl_cons, List.idxOf_cons_self]
      simp only [Nat.mul_zero, BitVec.add_zero]
      apply List.foldl_ext
      intro st i hi
      rw [place_succ, List.idxOf_cons_ne]
      rintro rfl; exact hn'.1 hi
  exact gen rs addr s hn rfl rfl

/-- Word stores keep the CPU's registers, ROM and the parameters. -/
theorem foldl_keeps (l : List Reg) (a : Reg → Word) (v : Reg → Word) (s : State) :
    let t := l.foldl (fun st i => st.writeWord (a i) (v i)) s
    t.regs = s.regs ∧ t.cpsr = s.cpsr ∧ s.SpsrsKept t ∧ t.rom = s.rom ∧ t.params = s.params := by
  induction l generalizing s with
  | nil => exact ⟨rfl, rfl, ⟨rfl, rfl, rfl⟩, rfl, rfl⟩
  | cons i r ih => exact ih (s.writeWord (a i) (v i))

/-- Everything STM can do when its condition passes (R213). -/
theorem blockStore_eq (p u f w rn list) (s : State) : blockStore p u f w rn list s =
   ((listedRegs list).foldl (fun st i => st.writeWord (blockStart p u (s.readReg rn) list + BitVec.ofNat 32 (4 * listRank list i))
      (s.readIn (if f then .usr else s.cpsr.mode) i)) s).blockWriteBack w rn (blockNewBase u (s.readReg rn) list) := by
  unfold blockStore
  simp only
  rw [storeBlock_eq _ _ _ _ (listedRegs_nodup list)]
  congr 1
  apply List.foldl_ext
  intro st i hi
  rw [listedRegs_idxOf (mem_listedRegs.mp hi)]
  rfl

/-- Words stored to RAM, none of them at the boot latch, change RAM alone. -/
theorem foldl_writeWord_ram (l : List Reg) (a v : Reg → Word) (s : State)
    (h : ∀ i ∈ l, s.region (alignedAddr (a i)) = .ram ∧ alignedAddr (a i) ≠ s.params.bootLatch) :
    l.foldl (fun st i => st.writeWord (a i) (v i)) s =
      { s with ram := l.foldl (fun m i => m.writeWord (alignedAddr (a i)) (v i)) s.ram } := by
  induction l generalizing s with
  | nil => rfl
  | cons i r ih =>
    obtain ⟨h1, h2⟩ := h i List.mem_cons_self
    have e : s.writeWord (a i) (v i) = { s with ram := s.ram.writeWord (alignedAddr (a i)) (v i) } := by
      rw [writeWord_of_ram _ h1]
      have : (alignedAddr (a i) == s.params.bootLatch) = false := by simpa using h2
      rw [this]
      simp
    rw [List.foldl_cons, e, ih]
    · rfl
    · exact fun j hj => h j (List.mem_cons_of_mem _ hj)

/-- A byte outside all stored words is kept. -/
theorem foldl_ram_other (l : List Reg) (p : Reg → Nat) (v : Reg → Word) (m : Memory) (k : Nat)
    (h : ∀ i ∈ l, k < p i ∨ p i + 4 ≤ k) : (l.foldl (fun m i => m.writeWord (p i) (v i)) m).read k = m.read k := by
  induction l generalizing m with
  | nil => rfl
  | cons i r ih =>
    rw [List.foldl_cons, ih _ fun j hj => h j (List.mem_cons_of_mem _ hj),
      Memory.read_writeWord_other _ _ (h i List.mem_cons_self)]

/-- Stored words keep the canonical form. -/
theorem foldl_ram_wf (l : List Reg) (p : Reg → Nat) (v : Reg → Word) (m : Memory) (h : m.wf = true) :
    (l.foldl (fun m i => m.writeWord (p i) (v i)) m).wf = true := by
  induction l generalizing m with
  | nil => exact h
  | cons i r ih => exact ih _ (Memory.writeWord_wf _ _ _ h)

/-- Where the stored words lie apart, each byte of each is found. -/
theorem foldl_ram_byte (l : List Reg) (p : Reg → Nat) (v : Reg → Word) (m : Memory) (hw : m.wf = true) (hn : l.Nodup)
    (hd : ∀ i ∈ l, ∀ j ∈ l, i ≠ j → p i + 4 ≤ p j ∨ p j + 4 ≤ p i) (i : Reg) (hi : i ∈ l) (j : Nat) (hj : j < 4) :
    (l.foldl (fun m i => m.writeWord (p i) (v i)) m).read (p i + j) = (v i).extractLsb' (8 * j) 8 := by
  induction l generalizing m with
  | nil => simp at hi
  | cons x r ih =>
    have hn' := List.nodup_cons.mp hn
    rw [List.foldl_cons]
    rcases List.mem_cons.mp hi with rfl | hi'
    · rw [foldl_ram_other]
      · obtain ⟨a, b, c, d⟩ := Memory.read_writeWord_byte m (p i) (v i) hw
        match j, hj with
        | 0, _ => exact a
        | 1, _ => exact b
        | 2, _ => exact c
        | 3, _ => exact d
      · intro k hk
        have := hd i List.mem_cons_self k (List.mem_cons_of_mem _ hk) (by rintro rfl; exact hn'.1 hk)
        omega
    · exact ih _ (Memory.writeWord_wf _ _ _ hw) hn'.2
        (fun a ha b hb => hd a (List.mem_cons_of_mem _ ha) b (List.mem_cons_of_mem _ hb)) hi'

/-- A block has at most sixteen places. -/
theorem listRank_lt {list : BitVec 16} {i : Reg} (h : list.getLsbD i.num.toNat = true) : listRank list i < 16 := by
  have := listedRegs_idxOf h
  have h1 := List.idxOf_lt_length_of_mem (mem_listedRegs.mpr h)
  have h2 : (listedRegs list).length ≤ 16 := List.length_filter_le _ allRegs
  omega

/-- Two listed registers have different places. -/
theorem listRank_inj {list : BitVec 16} {i j : Reg} (h : list.getLsbD i.num.toNat = true)
    (k : list.getLsbD j.num.toNat = true) (e : listRank list i = listRank list j) : i = j := by
  rw [← listedRegs_idxOf h, ← listedRegs_idxOf k] at e
  exact (List.idxOf_inj (mem_listedRegs.mpr h)).mp e

/-- The words of a block lie apart in the 26-bit address space. -/
theorem places_apart {start : Word} {list : BitVec 16} {i j : Reg} (h : list.getLsbD i.num.toNat = true)
    (k : list.getLsbD j.num.toNat = true) (e : i ≠ j) :
    let p := fun i => alignedAddr (start + BitVec.ofNat 32 (4 * listRank list i))
    p i + 4 ≤ p j ∨ p j + 4 ≤ p i := by
  have h1 := listRank_lt h
  have h2 := listRank_lt k
  have h3 : listRank list i ≠ listRank list j := fun q => e (listRank_inj h k q)
  simp only [alignedAddr_eq, BitVec.toNat_add, BitVec.toNat_ofNat]
  omega

/-- A byte read sees only the byte of RAM at its address. -/
theorem readByte_of_ram {s t : State} {x : Word} (h : ∀ k, t.ram.read k = s.ram.read k ∨ k ≠ busAddr x) 
   (e : t = { s with ram := t.ram}) : t.readByte x = s.readByte x := by
  have hk : t.ram.read (busAddr x) = s.ram.read (busAddr x) := by
    rcases h (busAddr x) with h | h
    · exact h
    · exact absurd rfl h
  generalize t.ram = m at *
  subst e
  have hr : ({ s with ram := m } : State).region (busAddr x) = s.region (busAddr x) := rfl
  unfold State.readByte State.busByte
  rw [hr]
  cases s.region (busAddr x)
  case ram => simp only [hk]
  all_goals rfl

end Sys2Proof.Machine
end

