-- ==== Sys2Proof/Laws/Decode.lean ====
section
/-! SUPPORT. The laws of instruction fields: what a placed field reads as, and that every code of registers, conditions and
shift types is read back as what it was. -/

namespace Sys2Proof

@[simp] theorem Reg.ofNum_num (r : Reg) : Reg.ofNum r.num = r := by cases r <;> rfl

@[simp] theorem Reg.num_ofNum (b : BitVec 4) : (Reg.ofNum b).num = b := by revert b; decide

@[simp] theorem Cond.ofBits_bits (c : Cond) : Cond.ofBits c.bits = c := by cases c <;> rfl

@[simp] theorem Cond.bits_ofBits (b : BitVec 4) : (Cond.ofBits b).bits = b := by revert b; decide

@[simp] theorem ShiftType.ofBits_bits (t : ShiftType) : ShiftType.ofBits t.bits = t := by cases t <;> rfl

@[simp] theorem ShiftType.bits_ofBits (b : BitVec 2) : (ShiftType.ofBits b).bits = b := by revert b; decide

@[simp] theorem field_or (a b : Word) (lo len : Nat) :
    field (a ||| b) lo len = field a lo len ||| field b lo len := by
  simp [field, BitVec.extractLsb'_or]

@[simp] theorem bit_or (a b : Word) (i : Nat) : bit (a ||| b) i = (bit a i || bit b i) := by simp [bit]

theorem bit_place {n : Nat} (lo : Nat) (b : BitVec n) (i : Nat) :
    bit (place lo b) i = (decide (i < 32) && (!decide (i < lo) && b.getLsbD (i - lo))) := by
  simp [bit, place]
  grind

theorem bit_placeBit (lo : Nat) (b : Bool) (i : Nat) (h : i < 32) :
    bit (placeBit lo b) i = (decide (i = lo) && b) := by
  simp [placeBit, bit_place, h, BitVec.getLsbD_ofBool]
  grind

/-- A field that fits is read back as it was placed. -/
theorem field_place_same {n : Nat} (lo : Nat) (b : BitVec n) (h : lo + n ≤ 32) : field (place lo b) lo n = b := by
  ext i hi
  simp [field, place]
  grind

/-- A field reads as zero outside the place of another. -/
theorem field_place_off {n : Nat} (lo : Nat) (b : BitVec n) (lo' len : Nat) (h : lo + n ≤ lo' ∨ lo' + len ≤ lo) :
    field (place lo b) lo' len = 0 := by
  ext i hi
  simp [field, place]
  grind

theorem field_placeBit_off (i : Nat) (b : Bool) (lo len : Nat) (h : i + 1 ≤ lo ∨ lo + len ≤ i) :
    field (placeBit i b) lo len = 0 := field_place_off i _ lo len h

/-! ### Tests of fields as tests of bits -/

/-- A field is a value exactly when each of its bits is. -/
theorem field_eq_iff (w : Word) (lo len : Nat) (v : BitVec len) :
    field w lo len = v ↔ ∀ i, i < len → bit w (lo + i) = v.getLsbD i := by
  constructor
  · rintro rfl i hi
    simp [field, bit, hi]
  · intro h
    apply BitVec.eq_of_getLsbD_eq
    intro i hi
    rw [← h i hi]
    simp [field, bit, hi]

theorem field2_iff (w : Word) (lo : Nat) (v : BitVec 2) : field w lo 2 = v ↔ bit w lo = v.getLsbD 0 ∧ bit w (lo+1) = v.getLsbD 1 := by
  rw [field_eq_iff]
  exact ⟨fun h => ⟨h 0 (by decide), h 1 (by decide)⟩, fun ⟨a, b⟩ i hi => by interval_cases i <;> assumption⟩

theorem field3_iff (w : Word) (lo : Nat) (v : BitVec 3) : field w lo 3 = v ↔
    bit w lo = v.getLsbD 0 ∧ bit w (lo+1) = v.getLsbD 1 ∧ bit w (lo+2) = v.getLsbD 2 := by
  rw [field_eq_iff]
  exact ⟨fun h => ⟨h 0 (by decide), h 1 (by decide), h 2 (by decide)⟩, fun ⟨a, b, c⟩ i hi => by interval_cases i <;> assumption⟩

theorem field4_iff (w : Word) (lo : Nat) (v : BitVec 4) : field w lo 4 = v ↔
    bit w lo = v.getLsbD 0 ∧ bit w (lo+1) = v.getLsbD 1 ∧ bit w (lo+2) = v.getLsbD 2 ∧ bit w (lo+3) = v.getLsbD 3 := by
  rw [field_eq_iff]
  exact ⟨fun h => ⟨h 0 (by decide), h 1 (by decide), h 2 (by decide), h 3 (by decide)⟩, fun ⟨a, b, c, d⟩ i hi => by interval_cases i <;> assumption⟩

/-- The test of row 1 of the dispatch, in bits (R105). -/
theorem isMultiply_iff (w : Word) : (field w 22 6 = 0b000000#6 ∧ field w 4 4 = 0b1001#4) ↔
    (bit w 22 = false ∧ bit w 23 = false ∧ bit w 24 = false ∧ bit w 25 = false ∧ bit w 26 = false ∧ bit w 27 = false) ∧
    (bit w 4 = true ∧ bit w 5 = false ∧ bit w 6 = false ∧ bit w 7 = true) := by
  rw [field_eq_iff, field_eq_iff]
  constructor
  · intro ⟨h, k⟩
    exact ⟨⟨h 0 (by decide), h 1 (by decide), h 2 (by decide), h 3 (by decide), h 4 (by decide), h 5 (by decide)⟩, k 0 (by decide), k 1 (by decide), k 2 (by decide), k 3 (by decide)⟩
  · rintro ⟨⟨a, b, c, d, e, f⟩, g, h, i, j⟩
    constructor
    · intro n hn; interval_cases n <;> assumption
    · intro n hn; interval_cases n <;> assumption

/-- The whole dispatch in bits (R105). -/
theorem decodeWord_bits (w : Word) : decodeWord w =
  if (bit w 22 = false ∧ bit w 23 = false ∧ bit w 24 = false ∧ bit w 25 = false ∧ bit w 26 = false ∧ bit w 27 = false) ∧
    (bit w 4 = true ∧ bit w 5 = false ∧ bit w 6 = false ∧ bit w 7 = true) then decodeMultiply (Cond.ofBits (field w 28 4)) w
  else if bit w 26 = false ∧ bit w 27 = false then decodeDataProcessing (Cond.ofBits (field w 28 4)) w
  else if (bit w 26 = true ∧ bit w 27 = false) ∧ bit w 25 = true ∧ bit w 4 = true then
    .unimplSdtRegshift (Cond.ofBits (field w 28 4)) (field w 5 20) (field w 0 4)
  else if bit w 26 = true ∧ bit w 27 = false then decodeSingleTransfer (Cond.ofBits (field w 28 4)) w
  else if bit w 25 = false ∧ bit w 26 = false ∧ bit w 27 = true then decodeBlockTransfer (Cond.ofBits (field w 28 4)) w
  else if bit w 25 = true ∧ bit w 26 = false ∧ bit w 27 = true then decodeBranch (Cond.ofBits (field w 28 4)) w
  else if bit w 24 = true ∧ bit w 25 = true ∧ bit w 26 = true ∧ bit w 27 = true then .swi (Cond.ofBits (field w 28 4)) (field w 0 24)
  else if bit w 25 = false ∧ bit w 26 = true ∧ bit w 27 = true then .unimplCoprocTransfer (Cond.ofBits (field w 28 4)) (field w 0 25)
  else .unimplCoprocOp (Cond.ofBits (field w 28 4)) (field w 0 24) := by
  unfold decodeWord
  simp only [isMultiply_iff]
  simp only [field2_iff, field3_iff, field4_iff]
  rfl

/-! ### Words bit by bit -/

theorem bit_ext {v w : Word} (h : ∀ i, i < 32 → bit v i = bit w i) : v = w := BitVec.eq_of_getLsbD_eq h

theorem field_getLsbD (w : Word) (lo len k : Nat) : (field w lo len).getLsbD k = (decide (k < len) && bit w (lo + k)) := by
  simp [field, bit, BitVec.getLsbD_extractLsb']

theorem field_getElem (w : Word) (lo len k : Nat) (h : k < len) : (field w lo len)[k] = bit w (lo + k) := by
  simp [field, bit]

/-- A placed field, bit by bit. -/
theorem place_bits {n : Nat} (lo : Nat) (b : BitVec n) (i : Nat) (h : i < 32) (_k : lo + n ≤ 32) :
    bit (place lo b) i = if lo ≤ i ∧ i < lo + n then b.getLsbD (i - lo) else false := by
  rw [bit_place]
  by_cases h1 : lo ≤ i
  · by_cases h2 : i < lo + n
    · simp [h, h1, h2]
    · rw [BitVec.getLsbD_of_ge _ _ (by omega)]; simp [h2]
  · have : i < lo := by omega
    simp [this, h1]

/-- The encoder undoes the opcode dispatch of data-processing (R130). -/
theorem encode_decodeDataProcessing (c : Cond) (w : Word) : encode (decodeDataProcessing c w) = encodeDataProcessing c (field w 21 4) (bit w 20) (Reg.ofNum (field w 16 4)) (Reg.ofNum (field w 12 4)) (decodeOperand2 w) := by
  unfold decodeDataProcessing
  have hl := (field w 21 4).isLt
  generalize ho : field w 21 4 = o at *
  generalize hn : o.toNat = n at *
  have : o = BitVec.ofNat 4 n := by rw [← hn]; simp
  rw [this]
  interval_cases n <;> rfl

/-! ### Byte sequences -/

/-- The condition of a decoded word is its field 31:28 (R103). -/
theorem decode_cond (w : Word) : (decodeWord w).cond = Cond.ofBits (field w 28 4) := by
  simp only [decodeWord, decodeMultiply, decodeDataProcessing, decodeSingleTransfer, decodeBlockTransfer, decodeBranch]
  split
  · split <;> rfl
  · split
    · split <;> rfl
    · split
      · rfl
      · split
        · split <;> rfl
        · repeat' (split)
          all_goals rfl

/-- The bits of a decoded Operand2 are those of the word (R106). -/
theorem decodeOperand2_bits (w : Word) (i : Nat) (h : i < 32) : bit (decodeOperand2 w).bits i = (decide (i < 12 ∨ i = 25) && bit w i) := by
  unfold decodeOperand2
  split
  · next h1 => simp only [Operand2.bits, bit_or, placeBit]
               interval_cases i <;> simp [place_bits, field_getElem, h1]
  · next h1 =>
    split
    · next h2 => simp only [Operand2.bits, bit_or, placeBit, Reg.num_ofNum, ShiftType.bits_ofBits]
                 interval_cases i <;> simp [place_bits, field_getElem, h1, h2]
    · next h2 => simp only [Operand2.bits, bit_or, Reg.num_ofNum, ShiftType.bits_ofBits]
                 interval_cases i <;> simp [place_bits, field_getElem, h1, h2]

/-- The bits of a decoded offset are those of the word (R108). -/
theorem decodeOffset_bits (w : Word) (i : Nat) (h : i < 32) (k : ¬ (bit w 25 = true ∧ bit w 4 = true)) : bit (decodeOffset w).bits i = (decide (i < 12 ∨ i = 25) && bit w i) := by
  unfold decodeOffset
  split
  · next h1 =>
               have h2 : bit w 4 = false := by simpa [h1] using k
               simp only [Offset.bits, bit_or, placeBit, Reg.num_ofNum, ShiftType.bits_ofBits]
               interval_cases i <;> simp [place_bits, field_getElem, h1, h2]
  · next h1 => simp only [Offset.bits]
               interval_cases i <;> simp [place_bits, field_getElem, h1]

/-- Every four bytes decode to the instruction of their little-endian word. -/
theorem decode_four (b0 b1 b2 b3 : Byte) (rest : List Byte) :
    decode (b0 :: b1 :: b2 :: b3 :: rest) = .ok (decodeWord (wordOfBytes b0 b1 b2 b3), rest) := rfl

/-- The bytes of a word decode to its instruction (R69, R101). -/
theorem decode_bytesOfWord (w : Word) : decode (bytesOfWord w) = .ok (decodeWord w, []) := by
  have h : wordOfBytes (field w 0 8) (field w 8 8) (field w 16 8) (field w 24 8) = w := by
    apply bit_ext
    intro i hi
    unfold wordOfBytes bit
    simp only [BitVec.getLsbD_append, field_getLsbD, bit]
    interval_cases i <;> simp
  change Except.ok (decodeWord (wordOfBytes (field w 0 8) (field w 8 8) (field w 16 8) (field w 24 8)), []) = _
  rw [h]

end Sys2Proof
end

