-- ==== Sys2Proof/Laws/Devices.lean ====
section
/-! SUPPORT. What one access of either width does where the router finds a device or ROM: the value, the diagnostics and
the whole state after a store, in terms of the register or the ROM byte that the address selects. -/

namespace Sys2Proof.Machine

/-- All-ones is what it is however far it is rotated (R70). -/
theorem ror32_sentinel (n : Nat) (h : n < 4) : ror32 Config.sentinel (8 * n) = 0xFFFFFFFF#32 := by
  interval_cases n <;> decide

/-- The low byte of a word. -/
theorem low_byte (v : Word) : v.setWidth 8 = v.extractLsb' 0 8 := by
  apply BitVec.eq_of_toNat_eq
  simp

/-- The byte of a zero-extended byte. -/
theorem zero_extended_byte (b : Byte) : (0#24 ++ b).setWidth 8 = b := by rw [← byte_zero_extended, byte_setWidth]

/-- The boot flag after a word store, as a decision. -/
theorem boot_flag (c : Bool) (a l : Nat) : (c && !(a == l)) = (c && decide (a ≠ l)) := by
  by_cases h : a = l <;> simp [h]

/-! ### The IOC -/

/-- Where an address of the IOC's range leads (R66, R70). -/
theorem ioc_place {s : State} (hp : s.params.wf) {addr : Word} {k low : Nat} (hk : k < 0x80000) (hl : low < 4)
    (h : addr.toNat % 2 ^ 26 = 0x03200000 + 4 * k + low) :
    alignedAddr addr = 0x03200000 + 4 * k ∧ busAddr addr % 4 = low ∧ s.region (busAddr addr) = .ioc ∧
    s.region (0x03200000 + 4 * k) = .ioc ∧ deviceOffset (busAddr addr) = k ∧ deviceOffset (0x03200000 + 4 * k) = k := by
  have e := busAddr_eq addr
  refine ⟨?_, by omega, region_ioc hp (by omega) (by omega), region_ioc hp (by omega) (by omega), ?_, ?_⟩
  · unfold alignedAddr; omega
  · unfold deviceOffset Config.deviceSize; omega
  · unfold deviceOffset Config.deviceSize; omega

/-- What a read of the IOC gives and reports, by its register (R70, R74, R76). -/
theorem ioc_access {s : State} (hp : s.params.wf) {addr : Word} {k low : Nat} (hk : k < 0x80000) (hl : low < 4)
    (h : addr.toNat % 2 ^ 26 = 0x03200000 + 4 * k + low) :
    match s.ioc.read k with
    | some x =>
      s.readWord addr = (0#24 ++ x).rotateRight (8 * low) ∧ s.readWordDiags addr = [] ∧
      s.readByte addr = x ∧ s.readByteDiags addr = []
    | none =>
      s.readWord addr = 0xFFFFFFFF#32 ∧ s.readWordDiags addr = [.invalidRead (addr &&& 0x03FFFFFF#32)] ∧
      s.readByte addr = 0xFF#8 ∧ s.readByteDiags addr = [.invalidRead (addr &&& 0x03FFFFFF#32)] := by
  obtain ⟨e1, e2, r1, r2, o1, o2⟩ := ioc_place hp hk hl h
  unfold State.readWord State.readWordDiags State.readByte State.readByteDiags State.busWord State.busByte
  simp only [e1, e2, r1, r2, State.deviceRead, o1, o2]
  cases s.ioc.read k with
  | none => exact ⟨ror32_sentinel low hl, rfl, rfl, rfl⟩
  | some x =>
    simp only [Option.map_some, Option.getD_some, byte_zero_extended, zero_extended_byte, ror32, and_self]

/-- What a store to the IOC does, by its register (R71, R75, R76). -/
theorem ioc_store {s : State} (hp : s.params.wf) {addr : Word} (v : Word) (b : Byte) {k low : Nat} (hk : k < 0x80000)
    (hl : low < 4) (h : addr.toNat % 2 ^ 26 = 0x03200000 + 4 * k + low) :
    (s.writeWord addr v =
      let boot := s.isBootMode && decide (0x03200000 + 4 * k ≠ s.params.bootLatch)
      match s.ioc.write k (v.extractLsb' 0 8) with
      | some e => { s with ioc := e, isBootMode := boot }
      | none => { s with diags := s.diags ++ [.invalidWrite (addr &&& 0x03FFFFFF#32) v], isBootMode := boot }) ∧
    s.writeByte addr b =
      match s.ioc.write k b with
      | some e => { s with ioc := e }
      | none => { s with diags := s.diags ++ [.invalidWrite (addr &&& 0x03FFFFFF#32) (0#24 ++ b)] } := by
  obtain ⟨e1, -, r1, r2, o1, o2⟩ := ioc_place hp hk hl h
  unfold State.writeWord State.writeByte State.storeWord State.storeByte
  simp only [e1, r1, r2, State.deviceWrite, o1, o2, low_byte v, byte_zero_extended, zero_extended_byte, State.latchBoot,
    boot_flag]
  constructor
  · cases s.ioc.write k (v.extractLsb' 0 8) <;> rfl
  · cases s.ioc.write k b <;> rfl

/-! ### The VIDC port -/

/-- Where an address of the port's range leads (R66, R70). -/
theorem vidc_place {s : State} (hp : s.params.wf) {addr : Word} {k low : Nat} (hk : k < 0x80000) (hl : low < 4)
    (h : addr.toNat % 2 ^ 26 = 0x03400000 + 4 * k + low) :
    alignedAddr addr = 0x03400000 + 4 * k ∧ busAddr addr % 4 = low ∧ s.region (busAddr addr) = .vidc ∧
    s.region (0x03400000 + 4 * k) = .vidc ∧ deviceOffset (busAddr addr) = k ∧ deviceOffset (0x03400000 + 4 * k) = k := by
  have e := busAddr_eq addr
  refine ⟨?_, by omega, region_vidc hp (by omega) (by omega), region_vidc hp (by omega) (by omega), ?_, ?_⟩
  · unfold alignedAddr; omega
  · unfold deviceOffset Config.deviceSize; omega
  · unfold deviceOffset Config.deviceSize; omega

/-- What a read of the port gives and reports, by its register (R70, R74, R76, R292). -/
theorem vidc_access {s : State} (hp : s.params.wf) {addr : Word} {k low : Nat} (hk : k < 0x80000) (hl : low < 4)
    (h : addr.toNat % 2 ^ 26 = 0x03400000 + 4 * k + low) :
    match vidcRead s.vidc k with
    | some x =>
      s.readWord addr = x.rotateRight (8 * low) ∧ s.readWordDiags addr = [] ∧
      s.readByte addr = x.extractLsb' 0 8 ∧ s.readByteDiags addr = []
    | none =>
      s.readWord addr = 0xFFFFFFFF#32 ∧ s.readWordDiags addr = [.invalidRead (addr &&& 0x03FFFFFF#32)] ∧
      s.readByte addr = 0xFF#8 ∧ s.readByteDiags addr = [.invalidRead (addr &&& 0x03FFFFFF#32)] := by
  obtain ⟨e1, e2, r1, r2, o1, o2⟩ := vidc_place hp hk hl h
  unfold State.readWord State.readWordDiags State.readByte State.readByteDiags State.busWord State.busByte
  simp only [e1, e2, r1, r2, State.deviceRead, o1, o2]
  cases vidcRead s.vidc k with
  | none => exact ⟨ror32_sentinel low hl, rfl, rfl, rfl⟩
  | some x => simp only [Option.map_some, Option.getD_some, low_byte, ror32, and_self]

/-- What a store to the port does, by its register (R71, R75, R76, R292). -/
theorem vidc_store {s : State} (hp : s.params.wf) {addr : Word} (v : Word) (b : Byte) {k low : Nat} (hk : k < 0x80000)
    (hl : low < 4) (h : addr.toNat % 2 ^ 26 = 0x03400000 + 4 * k + low) :
    (s.writeWord addr v =
      let boot := s.isBootMode && decide (0x03400000 + 4 * k ≠ s.params.bootLatch)
      match vidcWrite s.vidc k v with
      | some e => { s with vidc := e, isBootMode := boot }
      | none => { s with diags := s.diags ++ [.invalidWrite (addr &&& 0x03FFFFFF#32) v], isBootMode := boot }) ∧
    s.writeByte addr b =
      match vidcWrite s.vidc k (0#24 ++ b) with
      | some e => { s with vidc := e }
      | none => { s with diags := s.diags ++ [.invalidWrite (addr &&& 0x03FFFFFF#32) (0#24 ++ b)] } := by
  obtain ⟨e1, -, r1, r2, o1, o2⟩ := vidc_place hp hk hl h
  unfold State.writeWord State.writeByte State.storeWord State.storeByte
  simp only [e1, r1, r2, State.deviceWrite, o1, o2, byte_zero_extended, State.latchBoot, boot_flag]
  constructor
  · cases vidcWrite s.vidc k v <;> rfl
  · cases vidcWrite s.vidc k (0#24 ++ b) <;> rfl

/-- A register of the port read at its own address (R292). -/
theorem vidc_register (s : State) (hp : s.params.wf) {k : Nat} (hk : k < 278) :
    s.readWord (BitVec.ofNat 32 (0x03400000 + 4 * k)) = s.vidc.read k := by
  have h := vidc_access (s := s) hp (addr := BitVec.ofNat 32 (0x03400000 + 4 * k)) (k := k) (low := 0) (by omega)
    (by omega) (by rw [BitVec.toNat_ofNat]; omega)
  unfold vidcRead Config.vidcCount at h
  rw [if_pos hk] at h
  rw [h.1]
  exact ror32_zero _

/-! ### ROM -/

/-- A region that shows ROM: the value of a read, and a store that is dropped with a diagnostic (R63, R64, R67). -/
theorem rom_access {s : State} {r : Region} (hr : r = .lowMirror ∨ r = .altMirror ∨ r = .rom) {addr : Word}
    (h1 : s.region (busAddr addr) = r) (h2 : s.region (alignedAddr addr) = r) (v : Word) (b : Byte) :
    s.readByte addr = s.rom.read (s.romOffset r (busAddr addr)) ∧ s.readByteDiags addr = [] ∧
    s.readWord addr = ror32 (s.rom.readWord (s.romOffset r (alignedAddr addr))) (8 * (busAddr addr % 4)) ∧
    s.readWordDiags addr = [] ∧
    s.writeByte addr b = { s with diags := s.diags ++ [.romWrite (addr &&& 0x03FFFFFF#32) (0#24 ++ b)] } ∧
    s.writeWord addr v =
      { s with
        diags := s.diags ++ [.romWrite (addr &&& 0x03FFFFFF#32) v]
        isBootMode := s.isBootMode && decide (alignedAddr addr ≠ s.params.bootLatch) } := by
  unfold State.readWord State.readWordDiags State.readByte State.readByteDiags State.busWord State.busByte
    State.writeWord State.writeByte State.storeWord State.storeByte
  rw [h1, h2]
  simp only [byte_zero_extended, State.latchBoot, boot_flag]
  rcases hr with rfl | rfl | rfl <;> exact ⟨rfl, rfl, rfl, rfl, rfl, rfl⟩

end Sys2Proof.Machine
end

