-- ==== Sys2Proof/Laws/Operands.lean ====
section
/-! SUPPORT. What the barrel shifter computes, as arithmetic. -/

namespace Sys2Proof.Machine

/-- A rotation as two shifts (R5). -/
theorem ror32_eq_shifts (v : Word) (n : Nat) (_h0 : 0 < n) (h : n < 32) : ror32 v n = v >>> n ||| v <<< (32 - n) := by
  unfold ror32 BitVec.rotateRight BitVec.rotateRightAux
  rw [Nat.mod_eq_of_lt h]

/-- The shifts by 1 to 31 as arithmetic (R134). -/
theorem shift_toNat (v : Word) (n : Nat) (h0 : 0 < n) (h : n < 32) :
    ((shiftBy .lsl v n).1.toNat = v.toNat * 2 ^ n % 2 ^ 32 ∧ (shiftBy .lsl v n).2 = v.getLsbD (32 - n)) ∧
      ((shiftBy .lsr v n).1.toNat = v.toNat / 2 ^ n ∧ (shiftBy .lsr v n).2 = v.getLsbD (n - 1)) ∧
      ((shiftBy .asr v n).1.toInt = v.toInt / 2 ^ n ∧ (shiftBy .asr v n).2 = v.getLsbD (n - 1)) ∧
      ((shiftBy .ror v n).1.toNat = v.toNat / 2 ^ n + v.toNat % 2 ^ n * 2 ^ (32 - n) ∧ (shiftBy .ror v n).2 = v.getLsbD (n - 1)) := by
  refine ⟨⟨?_, rfl⟩, ⟨?_, rfl⟩, ⟨?_, rfl⟩, ⟨?_, rfl⟩⟩
  · simp [shiftBy, BitVec.toNat_shiftLeft, Nat.shiftLeft_eq]
  · simp [shiftBy, BitVec.toNat_ushiftRight, Nat.shiftRight_eq_div_pow]
  · simp [shiftBy, BitVec.toInt_sshiftRight, Int.shiftRight_eq_div_pow]
  · change (ror32 v n).toNat = _
    rw [ror32_eq_shifts v n h0 h, BitVec.toNat_or, BitVec.toNat_ushiftRight, BitVec.toNat_shiftLeft, Nat.shiftLeft_eq, Nat.shiftRight_eq_div_pow]
    have hv := v.isLt
    have hp : 2 ^ n * 2 ^ (32 - n) = 2 ^ 32 := by rw [← pow_add]; congr 1; omega
    have e : v.toNat * 2 ^ (32 - n) % 2 ^ 32 = v.toNat % 2 ^ n * 2 ^ (32 - n) := by
      rw [← hp, Nat.mul_mod_mul_right]
    rw [e]
    have hlt : v.toNat / 2 ^ n < 2 ^ (32 - n) := by
      apply Nat.div_lt_of_lt_mul; rw [hp]; exact hv
    rw [Nat.lor_comm, ← Nat.shiftLeft_eq, ← Nat.shiftLeft_add_eq_or_of_lt hlt, Nat.add_comm]

/-- The sign in all bits (R135). -/
theorem signFill_eq (v : Word) : signFill v = if v.getLsbD 31 then 0xFFFFFFFF#32 else 0#32 := by
  unfold signFill; rw [msb_bit31]

/-- RRX as arithmetic (R136). -/
theorem rrx_toNat (v : Word) (c : Bool) : (rrx v c).1.toNat = 2 ^ 31 * c.toNat + v.toNat / 2 := by
  unfold rrx
  have := v.isLt
  change (BitVec.ofBool c ++ v.extractLsb' 1 31).toNat = _
  rw [BitVec.toNat_append, BitVec.extractLsb'_toNat, Nat.shiftRight_eq_div_pow]
  have hlt : v.toNat / 2 ^ 1 % 2 ^ 31 < 2 ^ 31 := Nat.mod_lt _ (by decide)
  rw [← Nat.shiftLeft_add_eq_or_of_lt hlt, Nat.shiftLeft_eq]
  cases c <;> simp <;> omega

end Sys2Proof.Machine
end

