-- ==== Sys2Proof/Laws/PerInstr.lean ====
section
/-! SUPPORT. Statements made once per instruction: where the condition of every instruction stands in its word. -/

namespace Sys2Proof.Laws.CondField

/-- The condition of the instruction is bits 31:28 of its word (spec/30_encoding.md R103). -/
def Statement (i : Instr) : Prop := field (encode i) 28 4 = i.cond.bits

/-- Operand2 leaves the condition field clear (R106). -/
theorem operand2_clear (o : Operand2) : field o.bits 28 4 = 0#4 := by
  cases o <;> simp [Operand2.bits, field_place_off, field_placeBit_off]

/-- The offset leaves the condition field clear (R108). -/
theorem offset_clear (o : Offset) : field o.bits 28 4 = 0#4 := by
  cases o <;> simp [Offset.bits, field_place_off, field_placeBit_off]

theorem dataProcessing_cond (c : Cond) (opc : BitVec 4) (f : Bool) (rn rd : Reg) (op2 : Operand2) :
    field (encodeDataProcessing c opc f rn rd op2) 28 4 = c.bits := by
  simp [encodeDataProcessing, field_place_same, field_place_off, field_placeBit_off, operand2_clear]

theorem multiply_cond (c : Cond) (a f : Bool) (rd rn rs rm : Reg) :
    field (encodeMultiply c a f rd rn rs rm) 28 4 = c.bits := by
  simp [encodeMultiply, field_place_same, field_place_off, field_placeBit_off]

theorem singleTransfer_cond (c : Cond) (byte load p u w : Bool) (rn rd : Reg) (off : Offset) :
    field (encodeSingleTransfer c byte load p u w rn rd off) 28 4 = c.bits := by
  simp [encodeSingleTransfer, field_place_same, field_place_off, field_placeBit_off, offset_clear]

theorem blockTransfer_cond (c : Cond) (load p u f w : Bool) (rn : Reg) (list : BitVec 16) :
    field (encodeBlockTransfer c load p u f w rn list) 28 4 = c.bits := by
  simp [encodeBlockTransfer, field_place_same, field_place_off, field_placeBit_off]

theorem mul (c : Cond) (f : Bool) (rd rn rs rm : Reg) : Statement (.mul c f rd rn rs rm) :=
  multiply_cond _ _ _ _ _ _ _

theorem mla (c : Cond) (f : Bool) (rd rn rs rm : Reg) : Statement (.mla c f rd rn rs rm) :=
  multiply_cond _ _ _ _ _ _ _

theorem and (c : Cond) (f : Bool) (rn rd : Reg) (op2 : Operand2) : Statement (.and c f rn rd op2) :=
  dataProcessing_cond _ _ _ _ _ _

theorem eor (c : Cond) (f : Bool) (rn rd : Reg) (op2 : Operand2) : Statement (.eor c f rn rd op2) :=
  dataProcessing_cond _ _ _ _ _ _

theorem sub (c : Cond) (f : Bool) (rn rd : Reg) (op2 : Operand2) : Statement (.sub c f rn rd op2) :=
  dataProcessing_cond _ _ _ _ _ _

theorem rsb (c : Cond) (f : Bool) (rn rd : Reg) (op2 : Operand2) : Statement (.rsb c f rn rd op2) :=
  dataProcessing_cond _ _ _ _ _ _

theorem add (c : Cond) (f : Bool) (rn rd : Reg) (op2 : Operand2) : Statement (.add c f rn rd op2) :=
  dataProcessing_cond _ _ _ _ _ _

theorem adc (c : Cond) (f : Bool) (rn rd : Reg) (op2 : Operand2) : Statement (.adc c f rn rd op2) :=
  dataProcessing_cond _ _ _ _ _ _

theorem sbc (c : Cond) (f : Bool) (rn rd : Reg) (op2 : Operand2) : Statement (.sbc c f rn rd op2) :=
  dataProcessing_cond _ _ _ _ _ _

theorem rsc (c : Cond) (f : Bool) (rn rd : Reg) (op2 : Operand2) : Statement (.rsc c f rn rd op2) :=
  dataProcessing_cond _ _ _ _ _ _

theorem tst (c : Cond) (f : Bool) (rn rd : Reg) (op2 : Operand2) : Statement (.tst c f rn rd op2) :=
  dataProcessing_cond _ _ _ _ _ _

theorem teq (c : Cond) (f : Bool) (rn rd : Reg) (op2 : Operand2) : Statement (.teq c f rn rd op2) :=
  dataProcessing_cond _ _ _ _ _ _

theorem cmp (c : Cond) (f : Bool) (rn rd : Reg) (op2 : Operand2) : Statement (.cmp c f rn rd op2) :=
  dataProcessing_cond _ _ _ _ _ _

theorem cmn (c : Cond) (f : Bool) (rn rd : Reg) (op2 : Operand2) : Statement (.cmn c f rn rd op2) :=
  dataProcessing_cond _ _ _ _ _ _

theorem orr (c : Cond) (f : Bool) (rn rd : Reg) (op2 : Operand2) : Statement (.orr c f rn rd op2) :=
  dataProcessing_cond _ _ _ _ _ _

theorem mov (c : Cond) (f : Bool) (rn rd : Reg) (op2 : Operand2) : Statement (.mov c f rn rd op2) :=
  dataProcessing_cond _ _ _ _ _ _

theorem bic (c : Cond) (f : Bool) (rn rd : Reg) (op2 : Operand2) : Statement (.bic c f rn rd op2) :=
  dataProcessing_cond _ _ _ _ _ _

theorem mvn (c : Cond) (f : Bool) (rn rd : Reg) (op2 : Operand2) : Statement (.mvn c f rn rd op2) :=
  dataProcessing_cond _ _ _ _ _ _

theorem unimplSdtRegshift (c : Cond) (hi : BitVec 20) (lo : BitVec 4) : Statement (.unimplSdtRegshift c hi lo) := by
  simp [Statement, encode, Instr.cond, field_place_same, field_place_off, field_placeBit_off]

theorem ldr (c : Cond) (p u w : Bool) (rn rd : Reg) (off : Offset) : Statement (.ldr c p u w rn rd off) :=
  singleTransfer_cond _ _ _ _ _ _ _ _ _

theorem ldrb (c : Cond) (p u w : Bool) (rn rd : Reg) (off : Offset) : Statement (.ldrb c p u w rn rd off) :=
  singleTransfer_cond _ _ _ _ _ _ _ _ _

theorem str (c : Cond) (p u w : Bool) (rn rd : Reg) (off : Offset) : Statement (.str c p u w rn rd off) :=
  singleTransfer_cond _ _ _ _ _ _ _ _ _

theorem strb (c : Cond) (p u w : Bool) (rn rd : Reg) (off : Offset) : Statement (.strb c p u w rn rd off) :=
  singleTransfer_cond _ _ _ _ _ _ _ _ _

theorem ldm (c : Cond) (p u f w : Bool) (rn : Reg) (list : BitVec 16) : Statement (.ldm c p u f w rn list) :=
  blockTransfer_cond _ _ _ _ _ _ _ _

theorem stm (c : Cond) (p u f w : Bool) (rn : Reg) (list : BitVec 16) : Statement (.stm c p u f w rn list) :=
  blockTransfer_cond _ _ _ _ _ _ _ _

theorem b (c : Cond) (k : BitVec 24) : Statement (.b c k) := by
  simp [Statement, encode, Instr.cond, field_place_same, field_place_off]

theorem bl (c : Cond) (k : BitVec 24) : Statement (.bl c k) := by
  simp [Statement, encode, Instr.cond, field_place_same, field_place_off]

theorem swi (c : Cond) (k : BitVec 24) : Statement (.swi c k) := by
  simp [Statement, encode, Instr.cond, field_place_same, field_place_off]

theorem unimplCoprocTransfer (c : Cond) (rest : BitVec 25) : Statement (.unimplCoprocTransfer c rest) := by
  simp [Statement, encode, Instr.cond, field_place_same, field_place_off]

theorem unimplCoprocOp (c : Cond) (rest : BitVec 24) : Statement (.unimplCoprocOp c rest) := by
  simp [Statement, encode, Instr.cond, field_place_same, field_place_off]

end Sys2Proof.Laws.CondField
end

