-- ==== Sys2Proof/Laws/Updates.lean ====
section
/-! SUPPORT. Every instruction but SWI is a sequence of a few kinds of update, so what those keep every such instruction
keeps. -/

namespace Sys2Proof.Machine

/-- `P` is kept by every update that an instruction other than SWI is made of: a register write in the mode or in the User
bank, the flags, the restore of CPSR, a diagnostic, a store. -/
structure KeptByUpdates (P : State → Prop) : Prop where
  reg : ∀ t i v, P t → P (t.writeReg i v)
  user : ∀ t i v, P t → P (t.writeUser i v)
  flags : ∀ t n z c v, P t → P (t.setCpsr { t.cpsr with n := n, z := z, c := c, v := v })
  restore : ∀ t, P t → P t.restoreCpsr
  emit : ∀ t d, P t → P (t.emit d)
  word : ∀ t a v, P t → P (t.writeWord a v)
  byte : ∀ t a b, P t → P (t.writeByte a b)

theorem KeptByUpdates.setFlags {P : State → Prop} (k : KeptByUpdates P) (t : State) (o : AluOut) (c : Bool) (h : P t) :
    P (t.setCpsr (t.cpsr.setFlags o c)) := by
  cases o
  · exact k.flags t _ _ _ _ h
  · exact k.flags t _ _ _ _ h

theorem KeptByUpdates.dataProcessing {P : State → Prop} (k : KeptByUpdates P) (alu) (tst f : Bool) (rn rd op2) (s : State) (h : P s) :
    P (Machine.dataProcessing alu tst f rn rd op2 s) := by
  unfold Machine.dataProcessing
  have h1 : P (if f || tst then s.setCpsr (s.cpsr.setFlags (alu (s.readReg rn) (s.operand2 op2).1 s.cpsr.c)
      (s.operand2 op2).2) else s) := by
    split
    · exact k.setFlags _ _ _ h
    · exact h
  simp only
  have h2 := fun v => k.reg _ rd v h1
  cases tst <;> simp only [Bool.false_eq_true, if_false, if_true]
  · split
    · exact k.restore _ (h2 _)
    · exact h2 _
  · split
    · exact k.restore _ h1
    · exact h1

theorem KeptByUpdates.multiply {P : State → Prop} (k : KeptByUpdates P) (acc) (f : Bool) (rd rs rm) (s : State) (h : P s) :
    P (Machine.multiply acc f rd rs rm s) := by
  unfold Machine.multiply
  apply k.reg
  split
  · exact k.flags s _ _ _ _ h
  · exact h

theorem KeptByUpdates.singleTransfer {P : State → Prop} (k : KeptByUpdates P) (tr : Word → State → State) (p u w rn off) (s : State)
    (ht : ∀ a, P (tr a s)) : P (Machine.singleTransfer tr p u w rn off s) := by
  unfold Machine.singleTransfer
  rw [writeBack_eq]
  split
  · exact k.reg _ _ _ (ht _)
  · exact ht _

theorem KeptByUpdates.loadBlock {P : State → Prop} (k : KeptByUpdates P) (ub : Bool) (l : List Reg) (a : Word) (s : State)
    (h : P s) : P (Machine.loadBlock ub l a s) := by
  induction l generalizing a s with
  | nil => exact h
  | cons i r ih =>
    apply ih
    split
    · exact k.user _ _ _ (k.emit _ _ h)
    · exact k.reg _ _ _ (k.emit _ _ h)

theorem KeptByUpdates.storeBlock {P : State → Prop} (k : KeptByUpdates P) (ub : Bool) (l : List Reg) (a : Word) (s : State)
    (h : P s) : P (Machine.storeBlock ub l a s) := by
  induction l generalizing a s with
  | nil => exact h
  | cons i r ih => exact ih _ _ (k.word _ _ _ h)

theorem KeptByUpdates.blockWriteBack {P : State → Prop} (k : KeptByUpdates P) (w rn v) (s : State) (h : P s) :
    P (s.blockWriteBack w rn v) := by
  unfold State.blockWriteBack
  split
  · exact k.reg _ _ _ h
  · exact h

/-- A write of the program counter is a write of register 15 (R24). -/
theorem setPc_writeReg (s : State) (v : Word) : s.setPc v = s.writeReg .r15 v := by
  unfold State.setPc State.writeReg
  rw [phys_r15]

/-- Everything an instruction other than SWI does is a sequence of these updates. -/
theorem KeptByUpdates.effect {P : State → Prop} (k : KeptByUpdates P) (i : Instr) (hi : ∀ c n, i ≠ .swi c n) (s : State)
    (h : P s) : P (Machine.effect i s) := by
  cases i
  case swi => exact absurd rfl (hi _ _)
  case mul => exact k.multiply _ _ _ _ _ _ h
  case mla => exact k.multiply _ _ _ _ _ _ h
  case ldr => exact k.singleTransfer _ _ _ _ _ _ _ fun a => k.reg _ _ _ (k.emit _ _ h)
  case ldrb => exact k.singleTransfer _ _ _ _ _ _ _ fun a => k.reg _ _ _ (k.emit _ _ h)
  case str => exact k.singleTransfer _ _ _ _ _ _ _ fun a => k.word _ _ _ h
  case strb => exact k.singleTransfer _ _ _ _ _ _ _ fun a => k.byte _ _ _ h
  case ldm c p u f w rn list =>
    change P (blockLoad p u f w rn list s)
    unfold blockLoad
    simp only
    split
    · exact k.restore _ (k.blockWriteBack _ _ _ _ (k.loadBlock _ _ _ _ h))
    · exact k.blockWriteBack _ _ _ _ (k.loadBlock _ _ _ _ h)
  case stm => exact k.blockWriteBack _ _ _ _ (k.storeBlock _ _ _ _ h)
  case b =>
    change P (s.setPc _)
    rw [setPc_writeReg]
    exact k.reg _ _ _ h
  case bl =>
    change P ((s.writeReg .r14 _).setPc _)
    rw [setPc_writeReg]
    exact k.reg _ _ _ (k.reg _ _ _ h)
  case unimplSdtRegshift => exact k.emit _ _ h
  case unimplCoprocTransfer => exact k.emit _ _ h
  case unimplCoprocOp => exact k.emit _ _ h
  all_goals exact k.dataProcessing _ _ _ _ _ _ _ h

/-- The invariant is kept where memory and devices are and R15 stays masked. -/
theorem inv_of_pc {s t : State} (h : s.Inv) (b : s.SameBus t) (hp : t.pc &&& Config.pcMask = t.pc) : t.Inv := by
  obtain ⟨b1, b2, b3, b4, b5, b6⟩ := b
  exact ⟨hp, b1 ▸ h.ramWf, b1 ▸ b6 ▸ h.ramBelow, b2 ▸ h.romWf, b2 ▸ h.romBelow, b4 ▸ h.vidc, b6 ▸ h.params⟩

/-- An exception entry keeps the invariant. -/
theorem raise_inv {s : State} (h : s.Inv) (m vec ret f) : (s.raise m vec ret f).Inv :=
  inv_of_pc h (raise_sameBus _ _ _ _ _) (by rw [raise_pc, and_pcMask_idem])

/-- An instruction is SWI or it is not. -/
theorem swi_or (i : Instr) : (∃ c n, i = .swi c n) ∨ ∀ c n, i ≠ .swi c n := by
  cases i <;> simp

/-- The start of a step reads nothing differently. -/
theorem started_sameBus (s : State) : s.SameBus s.started := ⟨rfl, rfl, rfl, rfl, rfl, rfl⟩

end Sys2Proof.Machine
end

