-- ==== Sys2Proof/Laws/UserView.lean ====
section
/-! SUPPORT. What two User-mode states that differ only in the banks and saved status of other modes have in common after
an instruction. -/

namespace Sys2Proof.Machine

/-- The registers that User mode does not select (R21). -/
def bankedElsewhere : List PhysReg :=
  [.r8fiq, .r9fiq, .r10fiq, .r11fiq, .r12fiq, .r13fiq, .r14fiq, .r13irq, .r14irq, .r13svc, .r14svc]

/-- User mode selects none of them. -/
theorem phys_usr_visible (i : Reg) : phys .usr i ∉ bankedElsewhere := by cases i <;> decide

/-- Both states are in User mode and agree in everything User mode can read (R21). -/
structure UserAgrees (t t' : State) : Prop where
  mode : t.cpsr.mode = .usr
  cpsr : t'.cpsr = t.cpsr
  bus : t.SameBus t'
  diags : t'.diags = t.diags
  regs : ∀ q, q ∉ bankedElsewhere → t'.regs.get q = t.regs.get q

theorem UserAgrees.pc {t t'} (h : UserAgrees t t') : t'.pc = t.pc := h.regs .r15 (by decide)
theorem UserAgrees.fetchPc {t t'} (h : UserAgrees t t') : t'.fetchPc = t.fetchPc := by unfold State.fetchPc; rw [h.pc]
theorem UserAgrees.readUser {t t'} (h : UserAgrees t t') (i) : t'.readUser i = t.readUser i := by
  unfold State.readUser State.readIn State.operandPc
  rw [h.fetchPc, h.regs _ (phys_usr_visible i)]
theorem UserAgrees.readReg {t t'} (h : UserAgrees t t') (i) : t'.readReg i = t.readReg i := by
  have := h.readUser i
  unfold State.readUser at this
  unfold State.readReg
  rw [h.cpsr, h.mode, this]
theorem UserAgrees.operand2 {t t'} (h : UserAgrees t t') (o) : t'.operand2 o = t.operand2 o := by
  cases o <;> simp only [State.operand2, h.readReg, h.cpsr]
theorem UserAgrees.toff {t t'} (h : UserAgrees t t') (o) : t'.transferOffset o = t.transferOffset o := by
  cases o <;> simp only [State.transferOffset, h.readReg, h.cpsr]
theorem UserAgrees.eff {t t'} (h : UserAgrees t t') (u rn o) : t'.effective u rn o = t.effective u rn o := by
  simp only [State.effective, h.readReg, h.toff]
theorem UserAgrees.addr {t t'} (h : UserAgrees t t') (p u rn o) : t'.transferAddr p u rn o = t.transferAddr p u rn o := by
  simp only [State.transferAddr, h.readReg, h.eff]

theorem UserAgrees.setPhys {t t'} (h : UserAgrees t t') (p v) : UserAgrees (t.setPhys p v) (t'.setPhys p v) where
  mode := h.mode
  cpsr := h.cpsr
  bus := h.bus
  diags := h.diags
  regs q hq := by
    rw [setPhys_regs, setPhys_regs, RegFile.get_set, RegFile.get_set, h.regs q hq]
theorem UserAgrees.writeReg {t t'} (h : UserAgrees t t') (i v) : UserAgrees (t.writeReg i v) (t'.writeReg i v) := by
  unfold State.writeReg; rw [h.cpsr]; exact h.setPhys _ _
theorem UserAgrees.writeUser {t t'} (h : UserAgrees t t') (i v) : UserAgrees (t.writeUser i v) (t'.writeUser i v) := h.setPhys _ _
theorem UserAgrees.setCpsr {t t'} (h : UserAgrees t t') (p : Psr) (hp : p.mode = .usr) : UserAgrees (t.setCpsr p) (t'.setCpsr p) :=
  ⟨hp, rfl, h.bus, h.diags, h.regs⟩
theorem UserAgrees.emit {t t'} (h : UserAgrees t t') (d) : UserAgrees (t.emit d) (t'.emit d) :=
  ⟨h.mode, h.cpsr, h.bus, by rw [emit_diags, emit_diags, h.diags], h.regs⟩
theorem UserAgrees.restore {t t'} (h : UserAgrees t t') : UserAgrees t.restoreCpsr t'.restoreCpsr := by
  rw [restoreCpsr_eq, restoreCpsr_eq, h.cpsr, h.mode]
  exact ⟨h.mode, by rfl, h.bus, h.diags, h.regs⟩
theorem UserAgrees.word {t t'} (h : UserAgrees t t') (a v) : UserAgrees (t.writeWord a v) (t'.writeWord a v) where
  mode := h.mode
  cpsr := h.cpsr
  bus := by
    obtain ⟨b1, b2, b3, b4, b5, b6⟩ := h.bus
    have hr := h.bus.region
    refine ⟨?_, b2, ?_, ?_, ?_, b6⟩
    · rw [writeWord_ram_eq, writeWord_ram_eq, hr, b1]
    · rw [writeWord_ioc_eq, writeWord_ioc_eq, hr, b3]
    · rw [writeWord_vidc_eq, writeWord_vidc_eq, hr, b4]
    · rw [writeWord_boot, writeWord_boot, b5, b6]
  diags := by
    rw [writeWord_diags_eq, writeWord_diags_eq, h.bus.region, h.diags, h.bus.2.2.1]
  regs := h.regs

theorem UserAgrees.byte {t t'} (h : UserAgrees t t') (a b) : UserAgrees (t.writeByte a b) (t'.writeByte a b) where
  mode := h.mode
  cpsr := h.cpsr
  bus := by
    obtain ⟨b1, b2, b3, b4, b5, b6⟩ := h.bus
    have hr := h.bus.region
    refine ⟨?_, b2, ?_, ?_, b5, b6⟩
    · rw [writeByte_ram_eq, writeByte_ram_eq, hr, b1]
    · rw [writeByte_ioc_eq, writeByte_ioc_eq, hr, b3]
    · rw [writeByte_vidc_eq, writeByte_vidc_eq, hr, b4]
  diags := by
    rw [writeByte_diags_eq, writeByte_diags_eq, h.bus.region, h.diags, h.bus.2.2.1]
  regs := h.regs

theorem UserAgrees.dp {t t'} (h : UserAgrees t t') (alu tst f rn rd op2) :
    UserAgrees (dataProcessing alu tst f rn rd op2 t) (dataProcessing alu tst f rn rd op2 t') := by
  unfold dataProcessing
  simp only [h.operand2, h.readReg, h.cpsr]
  generalize alu _ _ _ = out
  generalize (t.operand2 op2).2 = c
  have h1 : UserAgrees (if f || tst then t.setCpsr (t.cpsr.setFlags out c) else t)
     (if f || tst then t'.setCpsr (t.cpsr.setFlags out c) else t') := by
    split
    · exact h.setCpsr _ ((Psr.setFlags_mode _ _ _).trans h.mode)
    · exact h
  cases tst <;> simp only [Bool.false_eq_true, if_false, if_true]
  · split
    · exact (h1.writeReg _ _).restore
    · exact h1.writeReg _ _
  · split
    · exact h1.restore
    · exact h1

theorem UserAgrees.mul {t t'} (h : UserAgrees t t') (acc f rd rs rm) :
    UserAgrees (multiply acc f rd rs rm t) (multiply acc f rd rs rm t') := by
  unfold multiply
  simp only [h.readReg, h.cpsr]
  apply UserAgrees.writeReg
  split
  · exact h.setCpsr _ h.mode
  · exact h

theorem UserAgrees.single {t t'} (h : UserAgrees t t') (tr : Word → State → State) (p u w rn off)
    (ht : ∀ a, UserAgrees (tr a t) (tr a t')) : UserAgrees (singleTransfer tr p u w rn off t) (singleTransfer tr p u w rn off t') := by
  unfold singleTransfer
  simp only [h.addr, h.eff, writeBack_eq]
  split
  · exact (ht _).writeReg _ _
  · exact ht _

theorem UserAgrees.loads {t t'} (h : UserAgrees t t') (ub l a) : UserAgrees (loadBlock ub l a t) (loadBlock ub l a t') := by
  induction l generalizing a t t' with
  | nil => exact h
  | cons i r ih =>
    unfold loadBlock
    simp only [h.bus.readWord, h.bus.readWordDiags]
    apply ih
    split
    · exact (h.emit _).writeUser _ _
    · exact (h.emit _).writeReg _ _

theorem UserAgrees.stores {t t'} (h : UserAgrees t t') (ub l a) : UserAgrees (storeBlock ub l a t) (storeBlock ub l a t') := by
  induction l generalizing a t t' with
  | nil => exact h
  | cons i r ih =>
    unfold storeBlock
    simp only [h.readReg, h.readUser]
    apply ih
    exact h.word _ _

theorem UserAgrees.wb {t t'} (h : UserAgrees t t') (w rn v) : UserAgrees (t.blockWriteBack w rn v) (t'.blockWriteBack w rn v) := by
  unfold State.blockWriteBack
  split
  · exact h.writeReg _ _
  · exact h

/-- An instruction other than SWI treats the two states alike. -/
theorem UserAgrees.effect {t t'} (h : UserAgrees t t') (i : Instr) (hi : ∀ c n, i ≠ .swi c n) : UserAgrees (effect i t) (effect i t') := by
  cases i
  case swi => exact absurd rfl (hi _ _)
  case mul => exact h.mul _ _ _ _ _
  case mla => 
    unfold Machine.effect
    simp only [h.readReg]
    exact h.mul _ _ _ _ _
  case ldr => exact h.single _ _ _ _ _ _ fun a => by
                unfold loadWord; rw [h.bus.readWord, h.bus.readWordDiags]; exact (h.emit _).writeReg _ _
  case ldrb => exact h.single _ _ _ _ _ _ fun a => by
                unfold loadByte; rw [h.bus.readByte, h.bus.readByteDiags]; exact (h.emit _).writeReg _ _
  case str => exact h.single _ _ _ _ _ _ fun a => by
                unfold storeRegWord; rw [h.readReg]; exact h.word _ _
  case strb => exact h.single _ _ _ _ _ _ fun a => by
                unfold storeRegByte; rw [h.readReg]; exact h.byte _ _
  case ldm c p u f w rn list =>
    change UserAgrees (blockLoad p u f w rn list t) (blockLoad p u f w rn list t')
    unfold blockLoad
    simp only [h.readReg]
    split
    · exact ((h.loads _ _ _).wb _ _ _).restore
    · exact ((h.loads _ _ _).wb _ _ _)
  case stm c p u f w rn list =>
    change UserAgrees (blockStore p u f w rn list t) (blockStore p u f w rn list t')
    unfold blockStore
    simp only [h.readReg]
    exact ((h.stores _ _ _).wb _ _ _)
  case b =>
    change UserAgrees (t.setPhys _ _) (t'.setPhys _ _)
    simp only [State.branchTarget, h.fetchPc]
    exact h.setPhys _ _
  case bl =>
    change UserAgrees ((t.writeReg _ _).setPhys _ _) ((t'.writeReg _ _).setPhys _ _)
    simp only [State.branchTarget, State.nextPc, h.fetchPc]
    exact (h.writeReg _ _).setPhys _ _
  case unimplSdtRegshift => 
    simp only [Machine.effect, unimplemented, h.fetchPc]; exact h.emit _
  case unimplCoprocTransfer =>
    simp only [Machine.effect, unimplemented, h.fetchPc]; exact h.emit _
  case unimplCoprocOp => 
    simp only [Machine.effect, unimplemented, h.fetchPc]; exact h.emit _
  all_goals exact h.dp _ _ _ _ _ _

end Sys2Proof.Machine
end

