-- ==== Sys2Proof/Tests/Slice0.lean ====
section
/-! SUPPORT. Tests of the model: which terms are refused as ill-formed, words written out from the spec's encodings, single
steps with results taken from spec/95_test_vectors.md, and for each obligation with hypotheses a state and operands that
meet them. -/

namespace Sys2Proof.Tests

open Sys2Proof.Machine

/-! ### Ill-formed terms -/

/-- AND with a register-specified LSL and bit 7 set would be a multiply word (R105 row 1). -/
theorem test_wellFormed_refuses_and :
    (Instr.and .al false .r1 .r0 (.shiftReg .r3 true .lsl .r2)).wellFormed = false := by decide

/-- EOR likewise. -/
theorem test_wellFormed_refuses_eor :
    (Instr.eor .al false .r1 .r0 (.shiftReg .r3 true .lsl .r2)).wellFormed = false := by decide

/-- The other opcodes have no such term: SUB with the same operand is a word of its own. -/
theorem test_wellFormed_accepts_sub :
    (Instr.sub .al false .r1 .r0 (.shiftReg .r3 true .lsl .r2)).wellFormed = true := by decide

/-! ### Words written out field by field, from R106 to R112 -/

/-- R107: cond, 000000, A, S, Rd, Rn, Rs, 1001, Rm. -/
theorem test_decode_mul : decodeWord (0xE#4 ++ 0b000000#6 ++ 0#1 ++ 1#1 ++ 0x0#4 ++ 0x3#4 ++ 0x2#4 ++ 0b1001#4 ++ 0x1#4) =
    .mul .al true .r0 .r3 .r2 .r1 := by decide

theorem test_decode_mla : decodeWord (0x1#4 ++ 0b000000#6 ++ 1#1 ++ 0#1 ++ 0xF#4 ++ 0x3#4 ++ 0x2#4 ++ 0b1001#4 ++ 0xE#4) =
    .mla .ne false .r15 .r3 .r2 .r14 := by decide

/-- R106: cond, 00, I, opcode, S, Rn, Rd, Operand2. -/
theorem test_decode_and : decodeWord (0xE#4 ++ 0b00#2 ++ 0#1 ++ 0x0#4 ++ 1#1 ++ 0x1#4 ++ 0x0#4 ++ 0#5 ++ 0b00#2 ++ 0#1 ++ 0x2#4) =
    .and .al true .r1 .r0 (.shiftImm 0 .lsl .r2) := by decide

theorem test_decode_eor : decodeWord (0xE#4 ++ 0b00#2 ++ 0#1 ++ 0x1#4 ++ 1#1 ++ 0x1#4 ++ 0x0#4 ++ 31#5 ++ 0b01#2 ++ 0#1 ++ 0x2#4) =
    .eor .al true .r1 .r0 (.shiftImm 31 .lsr .r2) := by decide

theorem test_decode_sub : decodeWord (0xE#4 ++ 0b00#2 ++ 0#1 ++ 0x2#4 ++ 1#1 ++ 0x1#4 ++ 0x0#4 ++ 0x3#4 ++ 0#1 ++ 0b10#2 ++ 1#1 ++ 0x2#4) =
    .sub .al true .r1 .r0 (.shiftReg .r3 false .asr .r2) := by decide

theorem test_decode_rsb : decodeWord (0xE#4 ++ 0b00#2 ++ 0#1 ++ 0x3#4 ++ 1#1 ++ 0x1#4 ++ 0x0#4 ++ 0x3#4 ++ 1#1 ++ 0b11#2 ++ 1#1 ++ 0x2#4) =
    .rsb .al true .r1 .r0 (.shiftReg .r3 true .ror .r2) := by decide

theorem test_decode_add : decodeWord (0xE#4 ++ 0b00#2 ++ 1#1 ++ 0x4#4 ++ 0#1 ++ 0x1#4 ++ 0xC#4 ++ 0xF#4 ++ 0x80#8) =
    .add .al false .r1 .r12 (.imm 15 0x80) := by decide

theorem test_decode_adc : decodeWord (0xE#4 ++ 0b00#2 ++ 0#1 ++ 0x5#4 ++ 1#1 ++ 0x1#4 ++ 0x0#4 ++ 31#5 ++ 0b01#2 ++ 0#1 ++ 0x2#4) =
    .adc .al true .r1 .r0 (.shiftImm 31 .lsr .r2) := by decide

theorem test_decode_sbc : decodeWord (0xE#4 ++ 0b00#2 ++ 0#1 ++ 0x6#4 ++ 1#1 ++ 0x1#4 ++ 0x0#4 ++ 0x3#4 ++ 0#1 ++ 0b10#2 ++ 1#1 ++ 0x2#4) =
    .sbc .al true .r1 .r0 (.shiftReg .r3 false .asr .r2) := by decide

theorem test_decode_rsc : decodeWord (0xE#4 ++ 0b00#2 ++ 0#1 ++ 0x7#4 ++ 1#1 ++ 0x1#4 ++ 0x0#4 ++ 0x3#4 ++ 1#1 ++ 0b11#2 ++ 1#1 ++ 0x2#4) =
    .rsc .al true .r1 .r0 (.shiftReg .r3 true .ror .r2) := by decide

theorem test_decode_tst : decodeWord (0xE#4 ++ 0b00#2 ++ 0#1 ++ 0x8#4 ++ 1#1 ++ 0x1#4 ++ 0x0#4 ++ 0#5 ++ 0b00#2 ++ 0#1 ++ 0x2#4) =
    .tst .al true .r1 .r0 (.shiftImm 0 .lsl .r2) := by decide

theorem test_decode_teq : decodeWord (0xE#4 ++ 0b00#2 ++ 1#1 ++ 0x9#4 ++ 1#1 ++ 0x1#4 ++ 0xC#4 ++ 0xF#4 ++ 0x80#8) =
    .teq .al true .r1 .r12 (.imm 15 0x80) := by decide

theorem test_decode_cmp : decodeWord (0xE#4 ++ 0b00#2 ++ 0#1 ++ 0xA#4 ++ 1#1 ++ 0x1#4 ++ 0x0#4 ++ 0x3#4 ++ 0#1 ++ 0b10#2 ++ 1#1 ++ 0x2#4) =
    .cmp .al true .r1 .r0 (.shiftReg .r3 false .asr .r2) := by decide

theorem test_decode_cmn : decodeWord (0xE#4 ++ 0b00#2 ++ 0#1 ++ 0xB#4 ++ 1#1 ++ 0x1#4 ++ 0x0#4 ++ 0x3#4 ++ 1#1 ++ 0b11#2 ++ 1#1 ++ 0x2#4) =
    .cmn .al true .r1 .r0 (.shiftReg .r3 true .ror .r2) := by decide

theorem test_decode_orr : decodeWord (0xE#4 ++ 0b00#2 ++ 0#1 ++ 0xC#4 ++ 1#1 ++ 0x1#4 ++ 0x0#4 ++ 0#5 ++ 0b00#2 ++ 0#1 ++ 0x2#4) =
    .orr .al true .r1 .r0 (.shiftImm 0 .lsl .r2) := by decide

theorem test_decode_mov : decodeWord (0xE#4 ++ 0b00#2 ++ 0#1 ++ 0xD#4 ++ 1#1 ++ 0x1#4 ++ 0x0#4 ++ 31#5 ++ 0b01#2 ++ 0#1 ++ 0x2#4) =
    .mov .al true .r1 .r0 (.shiftImm 31 .lsr .r2) := by decide

theorem test_decode_bic : decodeWord (0xE#4 ++ 0b00#2 ++ 1#1 ++ 0xE#4 ++ 0#1 ++ 0x1#4 ++ 0xC#4 ++ 0xF#4 ++ 0x80#8) =
    .bic .al false .r1 .r12 (.imm 15 0x80) := by decide

theorem test_decode_mvn : decodeWord (0xE#4 ++ 0b00#2 ++ 0#1 ++ 0xF#4 ++ 1#1 ++ 0x1#4 ++ 0x0#4 ++ 0x3#4 ++ 1#1 ++ 0b11#2 ++ 1#1 ++ 0x2#4) =
    .mvn .al true .r1 .r0 (.shiftReg .r3 true .ror .r2) := by decide

/-- R105 row 3a: bits 27:26 = 01, bit 25 = 1, bit 4 = 1. -/
theorem test_decode_unimplSdtRegshift : decodeWord (0xE#4 ++ 0b01#2 ++ 1#1 ++ 0b11001#5 ++ 0x1#4 ++ 0x0#4 ++ 0x3#4 ++ 0#1 ++ 0b00#2 ++ 1#1 ++ 0x2#4) =
    .unimplSdtRegshift .al 0xC8818#20 0x2#4 := by decide

/-- R108: cond, 01, I, P, U, B, W, L, Rn, Rd, offset; bit 25 set means a register offset. -/
theorem test_decode_ldr : decodeWord (0xE#4 ++ 0b01#2 ++ 0#1 ++ 1#1 ++ 0#1 ++ 0#1 ++ 1#1 ++ 1#1 ++ 0x1#4 ++ 0x0#4 ++ 0xFFF#12) =
    .ldr .al true false true .r1 .r0 (.imm 0xFFF) := by decide

theorem test_decode_ldrb : decodeWord (0xE#4 ++ 0b01#2 ++ 1#1 ++ 0#1 ++ 1#1 ++ 1#1 ++ 0#1 ++ 1#1 ++ 0x1#4 ++ 0x0#4 ++ 2#5 ++ 0b11#2 ++ 0#1 ++ 0x2#4) =
    .ldrb .al false true false .r1 .r0 (.reg 2 .ror .r2) := by decide

theorem test_decode_str : decodeWord (0xE#4 ++ 0b01#2 ++ 0#1 ++ 1#1 ++ 1#1 ++ 0#1 ++ 0#1 ++ 0#1 ++ 0xD#4 ++ 0xE#4 ++ 0x004#12) =
    .str .al true true false .r13 .r14 (.imm 4) := by decide

theorem test_decode_strb : decodeWord (0xE#4 ++ 0b01#2 ++ 0#1 ++ 0#1 ++ 0#1 ++ 1#1 ++ 1#1 ++ 0#1 ++ 0x1#4 ++ 0x0#4 ++ 0x001#12) =
    .strb .al false false true .r1 .r0 (.imm 1) := by decide

/-- R109: cond, 100, P, U, S, W, L, Rn, list. -/
theorem test_decode_ldm : decodeWord (0xE#4 ++ 0b100#3 ++ 0#1 ++ 1#1 ++ 1#1 ++ 0#1 ++ 1#1 ++ 0xD#4 ++ 0x8001#16) =
    .ldm .al false true true false .r13 0x8001 := by decide

theorem test_decode_stm : decodeWord (0xE#4 ++ 0b100#3 ++ 1#1 ++ 0#1 ++ 0#1 ++ 1#1 ++ 0#1 ++ 0xD#4 ++ 0x0043#16) =
    .stm .al true false false true .r13 0x0043 := by decide

/-- R110: cond, 101, L, offset. -/
theorem test_decode_b : decodeWord (0x0#4 ++ 0b101#3 ++ 0#1 ++ 0xFFFFFC#24) =
    .b .eq 0xFFFFFC := by decide

theorem test_decode_bl : decodeWord (0xE#4 ++ 0b101#3 ++ 1#1 ++ 0x00003E#24) =
    .bl .al 0x00003E := by decide

/-- R111: cond, 1111, comment. -/
theorem test_decode_swi : decodeWord (0xE#4 ++ 0b1111#4 ++ 0x000011#24) =
    .swi .al 0x000011 := by decide

/-- R112: bits 27:25 = 110, then bits 27:24 = 1110. -/
theorem test_decode_unimplCoprocTransfer : decodeWord (0xE#4 ++ 0b110#3 ++ 1#1 ++ 0x900100#24) =
    .unimplCoprocTransfer .al 0x1900100 := by decide

theorem test_decode_unimplCoprocOp : decodeWord (0xE#4 ++ 0b1110#4 ++ 0x010F10#24) =
    .unimplCoprocOp .al 0x010F10 := by decide

/-- Fewer than four bytes are refused by name. -/
theorem test_decode_truncated : decode [0x00#8, 0x00#8, 0xA0#8] = .error .truncated := by decide

/-- The lowest byte comes first (R69): 1E 00 00 EA is `B` with offset 0x00001E (vector S13). -/
theorem test_decode_bytes : decode [0x1E#8, 0x00#8, 0x00#8, 0xEA#8] = .ok (.b .al 0x00001E, []) := by decide

/-! ### Single steps: the defaults of spec/95_test_vectors.md -/

/-- RAM at 0, the vectors' example boot latch, SVC with I and F set. -/
def base : State := { State.reset with
  isBootMode := false
  params := { ramSize := 0x00400000, romBase := 0x03800000, bootLatch := 0x036E0000 } }

/-- A status word from NZCV, I, F and a mode. -/
def psr (nzcv : BitVec 4) (i f : Bool) (m : Mode) : Psr :=
  { n := nzcv.getLsbD 3, z := nzcv.getLsbD 2, c := nzcv.getLsbD 1, v := nzcv.getLsbD 0, i := i, f := f, mode := m }

/-- The base state with a status, registers and words of RAM, and R15 at `pc`. -/
def atPc (pc : Word) (p : Psr) (words : List (Nat × Word)) (regs : List (Reg × Word)) : State :=
  let s := regs.foldl (fun s r => s.writeReg r.1 r.2) (base.setCpsr p)
  ({ s with ram := words.foldl (fun m c => m.writeWord c.1 c.2) s.ram } : State).setPc pc

/-- The base state in SVC mode with flags and registers, and a word to run at 0x8000. -/
def running (w : Word) (nzcv : BitVec 4) (regs : List (Reg × Word)) : State :=
  atPc 0x8000#32 (psr nzcv true true .svc) [(0x8000, w)] regs

/-- What one step leaves in a register and in NZCV. -/
def after (s : State) (r : Reg) : Option (Word × BitVec 4) :=
  match step s with
  | .next t => some (if r = .r15 then t.pc else t.readReg r,
      BitVec.ofBool t.cpsr.n ++ BitVec.ofBool t.cpsr.z ++ BitVec.ofBool t.cpsr.c ++ BitVec.ofBool t.cpsr.v)
  | .fault _ => none
  | .refused _ => none

/-- What one step leaves in a register and in a word of RAM. -/
def afterMem (s : State) (r : Reg) (a : Nat) : Option (Word × Word) :=
  match step s with
  | .next t => some (t.readReg r, t.ram.readWord a)
  | .fault _ => none
  | .refused _ => none

/-- What one step leaves in R15, CPSR and a physical register. -/
def afterEntry (s : State) (p : PhysReg) : Option (Word × Psr × Word) :=
  match step s with
  | .next t => some (t.pc, t.cpsr, t.regs.get p)
  | .fault _ => none
  | .refused _ => none

/-! Part V.2 to V.5. -/

theorem test_and_keeps_carry : after (running 0xE0110002#32 0b0000 [(.r0, 0xDEADBEEF#32), (.r1, 0x0000FFFF#32), (.r2, 0x00FF00FF#32)]) .r0 =
    some (0x000000FF#32, 0b0000) := by decide

theorem test_eor_negative : after (running 0xE0310002#32 0b0010 [(.r0, 0xDEADBEEF#32), (.r1, 0xFFFFFFFF#32), (.r2, 0x00000001#32)]) .r0 =
    some (0xFFFFFFFE#32, 0b1010) := by decide

theorem test_sub_borrow : after (running 0xE0510002#32 0b0000 [(.r0, 0xDEADBEEF#32), (.r1, 0x00000005#32), (.r2, 0x00000007#32)]) .r0 =
    some (0xFFFFFFFE#32, 0b1000) := by decide

theorem test_sub_equal : after (running 0xE0510002#32 0b0011 [(.r0, 0xDEADBEEF#32), (.r1, 0x80000000#32), (.r2, 0x80000000#32)]) .r0 =
    some (0x00000000#32, 0b0110) := by decide

theorem test_rsb_reversed : after (running 0xE0710002#32 0b0000 [(.r0, 0xDEADBEEF#32), (.r1, 0x7FFFFFFF#32), (.r2, 0x00000001#32)]) .r0 =
    some (0x80000002#32, 0b1000) := by decide

theorem test_add_overflow : after (running 0xE0910002#32 0b0000 [(.r0, 0xDEADBEEF#32), (.r1, 0x7FFFFFFF#32), (.r2, 0x00000001#32)]) .r0 =
    some (0x80000000#32, 0b1001) := by decide

theorem test_adc_carry_in : after (running 0xE0B10002#32 0b0010 [(.r0, 0xDEADBEEF#32), (.r1, 0xFFFFFFFF#32), (.r2, 0x00000001#32)]) .r0 =
    some (0x00000001#32, 0b0010) := by decide

theorem test_sbc_no_carry : after (running 0xE0D10002#32 0b0000 [(.r0, 0xDEADBEEF#32), (.r1, 0x7FFFFFFF#32), (.r2, 0x00000001#32)]) .r0 =
    some (0x7FFFFFFD#32, 0b0010) := by decide

theorem test_rsc_no_carry : after (running 0xE0F10002#32 0b0011 [(.r0, 0xDEADBEEF#32), (.r1, 0x80000000#32), (.r2, 0x80000000#32)]) .r0 =
    some (0x00000000#32, 0b0110) := by decide

theorem test_rsc_borrow : after (running 0xE0F10002#32 0b0000 [(.r0, 0xDEADBEEF#32), (.r1, 0x7FFFFFFF#32), (.r2, 0x00000001#32)]) .r0 =
    some (0x80000001#32, 0b1000) := by decide

theorem test_orr : after (running 0xE1910002#32 0b0000 [(.r0, 0xDEADBEEF#32), (.r1, 0x0000FFFF#32), (.r2, 0x00FF00FF#32)]) .r0 =
    some (0x00FFFFFF#32, 0b0000) := by decide

theorem test_bic_zero : after (running 0xE1D10002#32 0b0000 [(.r0, 0xDEADBEEF#32), (.r1, 0x00000005#32), (.r2, 0x00000007#32)]) .r0 =
    some (0x00000000#32, 0b0100) := by decide

theorem test_tst_writes_no_register : after (running 0xE1110002#32 0b0010 [(.r0, 0xDEADBEEF#32), (.r1, 0xFFFFFFFF#32), (.r2, 0x00000001#32)]) .r0 =
    some (0xDEADBEEF#32, 0b0010) := by decide

theorem test_teq_writes_no_register : after (running 0xE1310002#32 0b0010 [(.r0, 0xDEADBEEF#32), (.r1, 0xFFFFFFFF#32), (.r2, 0x00000001#32)]) .r0 =
    some (0xDEADBEEF#32, 0b1010) := by decide

theorem test_cmp_writes_no_register : after (running 0xE1510002#32 0b0000 [(.r0, 0xDEADBEEF#32), (.r1, 0x7FFFFFFF#32), (.r2, 0x00000001#32)]) .r0 =
    some (0xDEADBEEF#32, 0b0010) := by decide

theorem test_cmn_writes_no_register : after (running 0xE1710002#32 0b0011 [(.r0, 0xDEADBEEF#32), (.r1, 0x80000000#32), (.r2, 0x80000000#32)]) .r0 =
    some (0xDEADBEEF#32, 0b0111) := by decide

theorem test_mov_lsr_by_32 : after (running 0xE1B00022#32 0b0000 [(.r2, 0x80000001#32)]) .r0 =
    some (0x00000000#32, 0b0110) := by decide

theorem test_mvn : after (running 0xE1F10002#32 0b0000 [(.r2, 0x00FF00FF#32)]) .r0 =
    some (0xFF00FF00#32, 0b1000) := by decide

theorem test_mul_keeps_carry : after (running 0xE0100291#32 0b0011 [(.r1, 0xFFFFFFFF#32), (.r2, 0x2#32)]) .r0 =
    some (0xFFFFFFFE#32, 0b1011) := by decide

theorem test_mul_low_word : after (running 0xE0100291#32 0b0000 [(.r1, 0x12345678#32), (.r2, 0x9ABCDEF0#32)]) .r0 =
    some (0x242D2080#32, 0b0000) := by decide

theorem test_mla : after (running 0xE0203291#32 0b0000 [(.r1, 0x3#32), (.r2, 0x5#32), (.r3, 0xA#32)]) .r0 =
    some (0x19#32, 0b0000) := by decide

theorem test_mla_wraps : after (running 0xE0303291#32 0b0011 [(.r1, 0xFFFFFFFF#32), (.r2, 0x1#32), (.r3, 0x1#32)]) .r0 =
    some (0x0#32, 0b0111) := by decide

/-- `MOV PC, R14` drops the bits outside PC_MASK (V.5). -/
theorem test_mov_pc_masked : after (running 0xE1A0F00E#32 0b1000 [(.r14, 0xFC001237#32)]) .r15 =
    some (0x00001234#32, 0b1000) := by decide

/-- R15 reads as fetch_pc + 8 in both positions (V.5). -/
theorem test_add_pc_pc : after (running 0xE08F000F#32 0b0000 []) .r0 = some (0x10010#32, 0b0000) := by decide

/-- `MVN PC, #0` (V.5). -/
theorem test_mvn_pc : after (running 0xE3E0F000#32 0b0000 []) .r15 = some (0x03FFFFFC#32, 0b0000) := by decide

/-! Part V.6: [1FFC] = 55667788, [2000] = 11223344, [2004] = AABBCCDD. -/

/-- A single data transfer of the vectors. -/
def transfer (w : Word) (regs : List (Reg × Word)) : State :=
  atPc 0x8000#32 (psr 0 true true .svc)
    [(0x8000, w), (0x1FFC, 0x55667788#32), (0x2000, 0x11223344#32), (0x2004, 0xAABBCCDD#32)] regs

theorem test_ldr_misaligned : after (transfer 0xE5910001#32 [(.r1, 0x2000#32)]) .r0 = some (0x44112233#32, 0b0000) := by
  decide

/-- Rd = Rn with write-back: the write-back is last. -/
theorem test_ldr_base_is_destination : after (transfer 0xE4900004#32 [(.r0, 0x2000#32)]) .r0 =
    some (0x2004#32, 0b0000) := by decide

theorem test_ldrb : after (transfer 0xE5D10003#32 [(.r1, 0x2004#32)]) .r0 = some (0xAA#32, 0b0000) := by decide

theorem test_ldrb_post : after (transfer 0xE4D10001#32 [(.r1, 0x2001#32)]) .r1 = some (0x2002#32, 0b0000) := by decide

theorem test_str_misaligned : afterMem (transfer 0xE5810002#32 [(.r0, 0xDEADBEEF#32), (.r1, 0x2000#32)]) .r1 0x2000 =
    some (0x2000#32, 0xDEADBEEF#32) := by decide

/-- Rd = Rn: the stored value is the base before the write-back. -/
theorem test_str_base : afterMem (transfer 0xE5211004#32 [(.r1, 0x2000#32)]) .r1 0x1FFC =
    some (0x1FFC#32, 0x2000#32) := by decide

theorem test_strb : afterMem (transfer 0xE5C10001#32 [(.r0, 0xDEADBEEF#32), (.r1, 0x2000#32)]) .r1 0x2000 =
    some (0x2000#32, 0x1122EF44#32) := by decide

theorem test_strb_post_down : afterMem (transfer 0xE4410001#32 [(.r0, 0x1FF#32), (.r1, 0x2003#32)]) .r1 0x2000 =
    some (0x2002#32, 0xFF223344#32) := by decide

/-! Part V.7. -/

theorem test_stm_decrement_after :
    afterMem (running 0xE82D0043#32 0 [(.r0, 0xA0#32), (.r1, 0xA1#32), (.r6, 0xA6#32), (.r13, 0x2010#32)]) .r13 0x2008 =
      some (0x2004#32, 0xA0#32) := by decide

/-- The base in the list is stored as it was. -/
theorem test_stm_base_in_list : afterMem (running 0xE92D2001#32 0 [(.r0, 5#32), (.r13, 0x2010#32)]) .r13 0x200C =
    some (0x2008#32, 0x2010#32) := by decide

/-- The base in the list with write-back ends as the new base. -/
theorem test_ldm_base_in_list :
    after (atPc 0x8000#32 (psr 0 true true .svc) [(0x8000, 0xE8B10003#32), (0x2000, 0x10#32), (0x2004, 0x20#32)]
      [(.r1, 0x2000#32)]) .r1 = some (0x2008#32, 0b0000) := by decide

/-- `LDMIA sp!, {r0,pc}^` in IRQ mode restores CPSR. -/
theorem test_ldm_restores :
    afterEntry ({ atPc 0x8000#32 (psr 0 true true .irq) [(0x8000, 0xE8FD8001#32), (0x2000, 0x55#32), (0x2004, 0x4000#32)]
        [(.r13, 0x2000#32)] with spsrIrq := psr 0b1010 false false .usr } : State) .r13irq =
      some (0x4000#32, psr 0b1010 false false .usr, 0x2008#32) := by decide

/-! Part V.8 and V.11. -/

theorem test_b_wraps : after (atPc 0#32 (psr 0 true true .svc) [(0, 0xEAFFFFFD#32)] []) .r15 =
    some (0x03FFFFFC#32, 0b0000) := by decide

theorem test_b_condition_fails : after (running 0x0A000002#32 0 []) .r15 = some (0x8004#32, 0b0000) := by decide

theorem test_bl_link : afterEntry (atPc 0#32 (psr 0 true true .svc) [(0, 0xEBFFFFFD#32)] []) .r14svc =
    some (0x03FFFFFC#32, psr 0 true true .svc, 4#32) := by decide

theorem test_swi : afterEntry (atPc 0x1000#32 (psr 0b0110 false false .usr) [(0x1000, 0xEF000011#32)] []) .r14svc =
    some (8#32, psr 0b0110 true false .svc, 0x1004#32) := by decide

/-- What a step reports. -/
def reported (s : State) : Option (List Diag) :=
  match step s with
  | .next t => some t.diags
  | .fault _ => none
  | .refused _ => none

theorem test_unimpl_sdt_regshift : reported (atPc 0x1000#32 (psr 0 true true .svc) [(0x1000, 0xE7910312#32)] []) =
    some [.unimplemented 0x1000#32 0xE7910312#32] := by decide

theorem test_unimpl_coproc_transfer : reported (atPc 0x1000#32 (psr 0 true true .svc) [(0x1000, 0xEC900100#32)] []) =
    some [.unimplemented 0x1000#32 0xEC900100#32] := by decide

theorem test_unimpl_coproc_op : reported (atPc 0x1000#32 (psr 0 true true .svc) [(0x1000, 0xEE010F10#32)] []) =
    some [.unimplemented 0x1000#32 0xEE010F10#32] := by decide

/-- The condition is tested first (V.8, last row). -/
theorem test_unimpl_condition_fails : reported (atPc 0x1000#32 (psr 0 true true .svc) [(0x1000, 0x0E000000#32)] []) =
    some [] := by decide

/-- A state with IRQ pending, at the top of the address space (V.11 row 12). -/
def irqState : State :=
  { atPc 0x03FFFFFC#32 (psr 0b0110 false false .usr) [] [] with
    ioc := { Ioc.reset with irqA := { request := 0x20, mask := 0x20 } } }

theorem test_irq_link_not_masked : afterEntry irqState .r14irq =
    some (0x18#32, psr 0b0110 true false .irq, 0x04000000#32) := by decide

/-- FIQ and IRQ pending (V.11 row 6). -/
def fiqState : State :=
  { atPc 0x1000#32 (psr 0b0110 false false .usr) [] [] with
    ioc := { Ioc.reset with irqA := { request := 0x20, mask := 0x20 }, fiq := { request := 1, mask := 1 } } }

theorem test_fiq_first : afterEntry fiqState .r14fiq =
    some (0x1C#32, psr 0b0110 true true .fiq, 0x1004#32) := by decide

/-- The fetch of unmapped memory stops (V.11 row 16). -/
theorem test_fetch_unmapped :
    (match step (atPc 0x00400000#32 (psr 0b0110 false false .usr) [] []) with
      | .fault (.invalidPC a) => some a
      | .next _ => none
      | .refused _ => none) = some 0x00400000#32 := by decide

/-- Vectors S13: the first step after `power_on` runs the word at ROM offset 0. -/
theorem test_boot : after (powerOn base.params (Memory.writeWord [] 0 0xEA00001E#32)) .r15 =
    some (0x80#32, 0b0000) := by decide

/-- Vector S17: both timers of a fresh IOC, timer 0 with latch 03E8. -/
theorem test_timer : (Ioc.tick { Ioc.reset with t0 := { latch := 0x03E8, counter := 0, latchedRead := 0 } } 20000).irqA.request =
    0x60 := by decide
/-! ### Witnesses: a state and operands that meet the hypotheses of each obligation, with the clauses' boundary values -/

/-- The boundary of the AND row: bit 7 set with a shift that is not LSL, and LSL with bit 7 clear. -/
theorem witness_DecodeOfEncode :
    (Instr.and .al true .r1 .r0 (.shiftReg .r3 true .lsr .r2)).wellFormed = true ∧
    (Instr.and .al true .r1 .r0 (.shiftReg .r3 false .lsl .r2)).wellFormed = true ∧
    (Instr.ldm .nv true true true true .r15 0xFFFF).wellFormed = true := by decide

/-- A step answers a next state. -/
def answers (s : State) : Bool :=
  match step s with
  | .next _ => true
  | .fault _ => false
  | .refused _ => false

/-- A state that steps `ADD R0, R0, #1`. -/
def adding : State := running 0xE2800001#32 0b0110 []

theorem witness_StepRunsDecodedInstruction :
    (adding.ioc.fiqLine && !adding.cpsr.f) = false ∧ (adding.ioc.irqLine && !adding.cpsr.i) = false ∧
    adding.readWord (adding.pc &&& 0x03FFFFFC#32) ≠ 0xFFFFFFFF#32 ∧
    decode (bytesOfWord (adding.readWord (adding.pc &&& 0x03FFFFFC#32))) = .ok (.add .al false .r0 .r0 (.imm 0 1), []) := by
  decide

/-- The invariant holds of a base state with some RAM. -/
theorem witness_inv : adding.Inv :=
  ⟨by decide, by decide, by decide, by decide, by decide, by decide, by decide⟩

theorem witness_StepRunsBytesAtPc :
    adding.Inv ∧ (adding.ioc.fiqLine && !adding.cpsr.f) = false ∧ (adding.ioc.irqLine && !adding.cpsr.i) = false ∧
    adding.region adding.pc.toNat ≠ .ioc ∧ adding.region adding.pc.toNat ≠ .vidc ∧
    (Instr.add .al false .r0 .r0 (.imm 0 1)) ≠ .swi .nv 0xFFFFFF#24 ∧
    decode [adding.readByte adding.pc, adding.readByte (adding.pc + 1#32), adding.readByte (adding.pc + 2#32),
      adding.readByte (adding.pc + 3#32)] = .ok (.add .al false .r0 .r0 (.imm 0 1), []) :=
  ⟨witness_inv, by decide, by decide, by decide, by decide, by decide, by decide⟩

/-- The sentinel in RAM stops a step too (V.11 row 18). -/
theorem witness_StepStopsOnlyAtSentinel :
    let s := atPc 0x1000#32 (psr 0b0110 false false .usr) [(0x1000, 0xFFFFFFFF#32)] []
    (s.ioc.fiqLine && !s.cpsr.f) = false ∧ (s.ioc.irqLine && !s.cpsr.i) = false ∧
    s.readWord (s.pc &&& 0x03FFFFFC#32) = 0xFFFFFFFF#32 ∧ Fault.invalidPC 0x1000#32 = .invalidPC s.pc := by decide

theorem witness_FailedConditionOnlyAdvances :
    let s := running 0x0A000002#32 0 []
    (s.ioc.fiqLine && !s.cpsr.f) = false ∧ (s.ioc.irqLine && !s.cpsr.i) = false ∧
    s.readWord (s.pc &&& 0x03FFFFFC#32) = 0x0A000002#32 ∧ 0x0A000002#32 ≠ 0xFFFFFFFF#32 ∧
    condPassed (Cond.ofBits ((0x0A000002#32).extractLsb' 28 4)) s.cpsr = false := by decide

/-- Both ends of the 26-bit space. -/
theorem witness_ProgramCounterReadsAhead :
    (let s := base.setPc 0x03FFFFFC#32; s.pc &&& 0x03FFFFFC#32 = s.pc ∧ s.pc = 0x03FFFFFC#32) ∧
    (let s := base.setPc 0#32; s.pc &&& 0x03FFFFFC#32 = s.pc) := by decide

/-- R7, R12 and R14 at the edges of the banks, seen from the other modes. -/
theorem witness_BankedRegisters :
    Reg.r14 ≠ .r15 ∧ (base.writeReg .r7 5#32).readIn .fiq .r7 = 5#32 ∧ (base.writeReg .r12 5#32).readIn .irq .r12 = 5#32 ∧
    (base.writeReg .r12 5#32).readIn .fiq .r12 = 0#32 ∧ (base.writeReg .r13 5#32).readIn .usr .r13 = 0#32 ∧
    (base.writeReg .r14 5#32).readIn .svc .r14 = 5#32 := by decide

/-- Rotation 0 and rotation by 30 (V.2). -/
theorem witness_RotatedImmediate :
    (running 0#32 0b0010 []).operand2 (.imm 0 0xFF) = (0xFF#32, true) ∧
    (running 0#32 0b0010 []).operand2 (.imm 15 0x3F) = (0xFC#32, false) ∧
    (running 0#32 0b0000 []).operand2 (.imm 1 0x02) = (0x80000000#32, true) := by decide

/-- A state with a value to shift in R2, an amount in R3 and a carry. -/
def shifting (v amount : Word) (carry : Bool) : State :=
  running 0#32 (if carry then 0b0010 else 0) [(.r2, v), (.r3, amount)]

/-- Amounts 0, 1 and 31 of the immediate form (V.3). -/
theorem witness_ShiftByImmediate :
    (shifting 0x80000001#32 0#32 true).operand2 (.shiftImm 0 .lsl .r2) = (0x80000001#32, true) ∧
    (shifting 0x80000001#32 0#32 false).operand2 (.shiftImm 0 .lsr .r2) = (0#32, true) ∧
    (shifting 0x80000001#32 0#32 false).operand2 (.shiftImm 0 .asr .r2) = (0xFFFFFFFF#32, true) ∧
    (shifting 2#32 0#32 true).operand2 (.shiftImm 0 .ror .r2) = (0x80000001#32, false) ∧
    (shifting 0x80000001#32 0#32 false).operand2 (.shiftImm 1 .lsl .r2) = (2#32, true) ∧
    (shifting 0x80000000#32 0#32 false).operand2 (.shiftImm 31 .lsr .r2) = (1#32, false) ∧
    (shifting 0x40000000#32 0#32 true).operand2 (.shiftImm 31 .asr .r2) = (0#32, true) ∧
    (shifting 1#32 0#32 true).operand2 (.shiftImm 31 .ror .r2) = (2#32, false) := by decide

/-- Amounts 0 (also as 0x100), 31, 32, 33, 64 and 255 of the register form (V.3; 64 by R135). -/
theorem witness_ShiftByRegister :
    (shifting 0x80000001#32 0x100#32 false).operand2 (.shiftReg .r3 false .ror .r2) = (0x80000001#32, false) ∧
    (shifting 0x80000001#32 31#32 false).operand2 (.shiftReg .r3 false .lsl .r2) = (0x80000000#32, false) ∧
    (shifting 0x80000001#32 32#32 false).operand2 (.shiftReg .r3 false .lsl .r2) = (0#32, true) ∧
    (shifting 0x7FFFFFFE#32 32#32 true).operand2 (.shiftReg .r3 false .lsr .r2) = (0#32, false) ∧
    (shifting 0x80000001#32 32#32 false).operand2 (.shiftReg .r3 false .ror .r2) = (0x80000001#32, true) ∧
    (shifting 0x80000001#32 33#32 true).operand2 (.shiftReg .r3 false .lsr .r2) = (0#32, false) ∧
    (shifting 0x80000001#32 33#32 true).operand2 (.shiftReg .r3 false .asr .r2) = (0xFFFFFFFF#32, true) ∧
    (shifting 0x80000001#32 33#32 true).operand2 (.shiftReg .r3 false .ror .r2) = (0xC0000000#32, true) ∧
    (shifting 0x80000001#32 64#32 false).operand2 (.shiftReg .r3 true .ror .r2) = (0x80000001#32, true) ∧
    (shifting 0xFFFFFFFF#32 255#32 true).operand2 (.shiftReg .r3 false .lsl .r2) = (0#32, false) := by decide

/-- The last instruction of the list, with Rd = R15 and S = 1. -/
theorem witness_LogicalInstructions :
    let op2 := Operand2.imm 0 0xFF
    let a := adding.readReg .r1
    let b := (adding.operand2 op2).1
    condPassed .al adding.cpsr = true ∧
    (Instr.mvn .al true .r1 .r15 op2, ~~~b) ∈
      [(Instr.and .al true .r1 .r15 op2, a &&& b), (.eor .al true .r1 .r15 op2, a ^^^ b),
        (.orr .al true .r1 .r15 op2, a ||| b), (.mov .al true .r1 .r15 op2, b), (.bic .al true .r1 .r15 op2, a &&& ~~~b),
        (.mvn .al true .r1 .r15 op2, ~~~b)] := by decide

/-- Conditions that pass in a state by its flags. -/
theorem witness_LogicalTests : condPassed .eq adding.cpsr = true := by decide

theorem witness_AddAndCmn : condPassed .cs adding.cpsr = true := by decide

theorem witness_Subtractions : condPassed .ls adding.cpsr = true := by decide

theorem witness_Multiplies : condPassed .le adding.cpsr = true := by decide

theorem witness_BranchAndLink : condPassed .pl adding.cpsr = true := by decide

theorem witness_CarryArithmetic :
    condPassed .al base.cpsr = true ∧ base.cpsr.c = false ∧ condPassed .al (running 0#32 0b0010 []).cpsr = true ∧
    (running 0#32 0b0010 []).cpsr.c = true := by decide

/-- The two clauses of the shifted offset at their ends: amount 0, 1 and 31, and the largest immediate. R15 as Rm is
`fetch_pc + 8` (V.6). -/
theorem witness_TransferOffsets :
    let s := shifting 0x80000001#32 0#32 true
    s.transferOffset (.imm 0xFFF) = 0xFFF#32 ∧ s.transferOffset (.reg 0 .lsr .r2) = 0#32 ∧
    s.transferOffset (.reg 0 .asr .r2) = 0xFFFFFFFF#32 ∧ s.transferOffset (.reg 0 .ror .r2) = 0xC0000000#32 ∧
    s.transferOffset (.reg 1 .lsl .r2) = 2#32 ∧ s.transferOffset (.reg 31 .lsr .r2) = 1#32 ∧
    (atPc 0x1000#32 (psr 0 true true .svc) [] []).advance.transferOffset (.reg 0 .lsl .r15) = 0x1008#32 := by decide

/-- The clauses of the load and store statements: no write-back, pre-indexed with write-back, post-indexed. -/
theorem witness_LoadWordRegister :
    (let s := (transfer 0#32 [(.r1, 0x2000#32)]).advance
     condPassed .al s.cpsr = true ∧ s.readWord (s.readReg .r1 + s.transferOffset (.imm 4)) = 0xAABBCCDD#32 ∧
     s.readWordDiags (s.readReg .r1) = [] ∧ (Reg.r0 ≠ .r1)) ∧
    (let s := (transfer 0#32 [(.r1, 0x01000000#32)]).advance
     s.readWordDiags (s.readReg .r1) = [.invalidRead 0x01000000#32]) := by decide

theorem witness_LoadByteRegister :
    (let s := (transfer 0#32 [(.r1, 0x2004#32)]).advance
     condPassed .al s.cpsr = true ∧ s.readByte (s.readReg .r1 + s.transferOffset (.imm 3)) = 0xAA#8) ∧
    (let s := (transfer 0#32 [(.r1, 0x01000000#32)]).advance
     s.readByteDiags (s.readReg .r1) = [.invalidRead 0x01000000#32]) := by decide

/-- The first and the last word of RAM, the first word past it, ROM, a device, and the boot latch. -/
theorem witness_StoreWordRegister :
    base.region 0 = .ram ∧ base.region (0x003FFFFF % 2 ^ 26 / 4 * 4) = .ram ∧ base.ram.wf = true ∧
    base.region 0x00400000 = .unmapped ∧ base.region 0x03800000 = .rom ∧ base.region 0x03200000 = .ioc ∧
    0x003FFFFC ≠ base.params.bootLatch ∧ base.region base.params.bootLatch ≠ .ram := by decide

theorem witness_StoreByteRegister :
    base.region 0x003FFFFF = .ram ∧ base.ram.wf = true ∧ base.region 0x00400000 ≠ .ram := by decide

/-- A list with and without R15, with the base in it and with its User bank: the branches of the block statements. -/
theorem witness_LoadMultiple :
    condPassed .al base.cpsr = true ∧ (0x8003#16).getLsbD Reg.r15.num.toNat = true ∧
    (0x0003#16).getLsbD Reg.r1.num.toNat = true ∧ phys .svc .r1 = phys .usr .r1 ∧ phys .svc .r13 ≠ phys .usr .r13 ∧
    listRank 0x8003#16 .r0 = 0 ∧ listRank 0x8003#16 .r15 = 2 := by decide

theorem witness_StoreMultiple :
    condPassed .al base.cpsr = true ∧ listedRegs 0x8041#16 = [.r0, .r6, .r15] ∧ listedRegs 0#16 = [] := by decide

/-- A block that ends with the last word of RAM. -/
theorem witness_StoreMultipleToRam :
    let s := base.writeReg .r1 0x003FFFF8#32
    condPassed .al s.cpsr = true ∧ s.ram.wf = true ∧
    ∀ i : Reg, (0x0003#16).getLsbD i.num.toNat = true →
      let a := (s.readReg .r1 + BitVec.ofNat 32 (4 * listRank 0x0003#16 i)).toNat % 2 ^ 26 / 4 * 4
      s.region a = .ram ∧ a ≠ s.params.bootLatch := by
  refine ⟨by decide, by decide, fun i => ?_⟩
  cases i <;> decide

/-- Vector S8; both instructions complete. -/
theorem witness_StackBalance :
    let s := base.writeReg .r13 0x3000#32
    (0x0043#16).getLsbD 15 = false ∧ (0x0043#16).getLsbD 13 = false ∧ s.ram.wf = true ∧
    (s.readReg .r13).toNat % 4 = 0 ∧
    (∀ i : Reg, (0x0043#16).getLsbD i.num.toNat = true →
      let a := (s.readReg .r13 - BitVec.ofNat 32 (4 * (List.range 16).countP fun j => (0x0043#16).getLsbD j) +
        BitVec.ofNat 32 (4 * listRank 0x0043#16 i)).toNat % 2 ^ 26 / 4 * 4
      s.region a = .ram ∧ a ≠ s.params.bootLatch) := by
  refine ⟨by decide, by decide, by decide, by decide, fun i => ?_⟩
  cases i <;> decide

/-- The most negative and the most positive branch (V.8). -/
theorem witness_BranchStep :
    (let s := atPc 0x1000#32 (psr 0 true true .svc) [(0x1000, 0xEA800000#32)] []
     s.pc &&& 0x03FFFFFC#32 = s.pc ∧ (s.ioc.fiqLine && !s.cpsr.f) = false ∧ (s.ioc.irqLine && !s.cpsr.i) = false ∧
     s.readWord s.pc = 0xEA800000#32 ∧ (0xEA800000#32).extractLsb' 24 4 = 0b1010#4 ∧
     condPassed (Cond.ofBits ((0xEA800000#32).extractLsb' 28 4)) s.cpsr = true ∧
     after s .r15 = some (0x02001008#32, 0)) ∧
    after (atPc 0x1000#32 (psr 0 true true .svc) [(0x1000, 0xEA7FFFFF#32)] []) .r15 = some (0x02001004#32, 0) := by decide

/-- A condition that passes and one that fails, for SWI and for the Unimplemented rows. -/
theorem witness_SoftwareInterrupt :
    (0xEFFFFFFF#32).extractLsb' 24 4 = 0b1111#4 ∧ condPassed .eq (psr 0b0100 false false .usr) = true ∧
    condPassed .eq (psr 0b0000 false false .usr) = false ∧
    (¬∃ c comment, Instr.b .al 0 = .swi c comment) ∧ ∃ t, exec (.b .al 0) adding = .next t :=
  ⟨by decide, by decide, by decide, fun ⟨_, _, h⟩ => Instr.noConfusion h, _, rfl⟩

theorem witness_UnimplementedOnlyReports :
    (∃ c hi lo, Instr.unimplSdtRegshift .al 0 0 = .unimplSdtRegshift c hi lo) ∧
    (∃ c rest, Instr.unimplCoprocTransfer .al 0 = .unimplCoprocTransfer c rest) ∧
    (∃ c rest, Instr.unimplCoprocOp .nv 0 = .unimplCoprocOp c rest) ∧
    condPassed (Instr.unimplSdtRegshift .al 0 0).cond base.cpsr = true ∧
    condPassed (Instr.unimplCoprocOp .nv 0).cond base.cpsr = false :=
  ⟨⟨_, _, _, rfl⟩, ⟨_, _, rfl⟩, ⟨_, _, rfl⟩, by decide, by decide⟩

theorem witness_IrqEntry :
    (irqState.ioc.fiqLine && !irqState.cpsr.f) = false ∧ irqState.ioc.irqLine = true ∧ irqState.cpsr.i = false := by
  decide

theorem witness_FiqEntry : fiqState.ioc.fiqLine = true ∧ fiqState.cpsr.f = false ∧ fiqState.ioc.irqLine = true := by
  decide

/-- The interrupted state of vector S18 and the two handlers. -/
theorem witness_InterruptReturn :
    let s := atPc 0x1000#32 (psr 0b0110 false false .usr) [] []
    let irq : State := { s.setPhys .r14irq 0x1004#32 with cpsr := psr 0b0110 true false .irq, spsrIrq := s.cpsr }
    let fiq : State := { s.setPhys .r14fiq 0x1004#32 with cpsr := psr 0b0110 true true .fiq, spsrFiq := s.cpsr }
    s.Inv ∧ (irq.cpsr.mode = .irq ∧ irq.spsrIrq = s.cpsr ∧ irq.regs.get .r14irq = s.pc + 4#32) ∧
      (fiq.cpsr.mode = .fiq ∧ fiq.spsrFiq = s.cpsr ∧ fiq.regs.get .r14fiq = s.pc + 4#32) :=
  ⟨⟨by decide, by decide, by decide, by decide, by decide, by decide, by decide⟩, by decide, by decide⟩

theorem witness_SoftwareInterruptReturn :
    condPassed .al adding.cpsr = true ∧ ∃ t, exec (.swi .al 0x11) adding.advance = .next t :=
  ⟨by decide, _, rfl⟩

/-- Steps that answer a next state: an instruction, an IRQ entry, a FIQ entry, an SWI. -/
theorem witness_SpsrWrittenOnlyByEntry :
    answers adding = true ∧ answers irqState = true ∧ answers fiqState = true ∧
    answers (atPc 0x1000#32 (psr 0b0110 false false .usr) [(0x1000, 0xEF000011#32)] []) = true := by decide

/-- The same in User mode: the first clause, then the second for each of its three entries. -/
theorem witness_UserModeIsConfined :
    let user := atPc 0x1000#32 (psr 0b0110 true true .usr) [(0x1000, 0xE2800001#32)] []
    let calling := atPc 0x1000#32 (psr 0b0110 false false .usr) [(0x1000, 0xEF000011#32)] []
    (user.cpsr.mode = .usr ∧ answers user = true) ∧ (calling.cpsr.mode = .usr ∧ answers calling = true) ∧
    (irqState.cpsr.mode = .usr ∧ answers irqState = true) ∧ (fiqState.cpsr.mode = .usr ∧ answers fiqState = true) := by
  decide

/-- A User-mode state and a register file that differs from its own in another bank. -/
theorem witness_OtherBanksInvisibleToUser :
    let s := atPc 0x1000#32 (psr 0b0110 true true .usr) [(0x1000, 0xE2800001#32)] []
    let r := s.regs.set .r13svc 7#32
    s.cpsr.mode = .usr ∧ answers s = true ∧ r ≠ s.regs ∧
    ∀ q, q ∉ [PhysReg.r8fiq, .r9fiq, .r10fiq, .r11fiq, .r12fiq, .r13fiq, .r14fiq, .r13irq, .r14irq, .r13svc, .r14svc] →
      r.get q = s.regs.get q := by
  refine ⟨by decide, by decide, by decide, fun q hq => ?_⟩
  cases q <;> first | rfl | exact absurd (by decide) hq

theorem witness_MaskedSupervisorStays :
    (adding.cpsr.mode = .svc ∧ adding.cpsr.i = true ∧ adding.cpsr.f = true) ∧
    (adding.spsrSvc.mode = .svc ∧ adding.spsrSvc.i = true ∧ adding.spsrSvc.f = true) ∧ answers adding = true := by
  decide

/-- The invariant for a step, for an event other than `power_on`, and the inputs of `power_on`. -/
theorem witness_StepKeepsInvariant : adding.Inv ∧ answers adding = true := ⟨witness_inv, by decide⟩

theorem witness_EventsKeepInvariant :
    (adding.Inv ∧ (∀ q m, Event.cpuReset ≠ .powerOn q m) ∧ ∃ t, applyEvent .cpuReset adding = .next t) ∧
    (base.params.wf ∧ Memory.wf [(0x1FFFFF, 1#8)] = true ∧ Store.below Config.romSize [(0x1FFFFF, 1#8)] = true) :=
  ⟨⟨witness_inv, fun _ _ => Event.noConfusion, _, rfl⟩, by decide, by decide, by decide⟩

/-- Boot mode on and off. -/
theorem witness_RomAndBootMode :
    answers adding = true ∧ adding.isBootMode = false ∧
    answers (powerOn base.params (Memory.writeWord [] 0 0xEA00001E#32)) = true := by decide

/-- The state after `power_on` with a word at each end of the ROM. -/
def booted : State := powerOn base.params (Memory.writeWord (Memory.writeWord [] 0 0xEA00001E#32) 0x1FFFFC 0xCAFEF00D#32)

/-- Each row of the decode order at its first and last address (V.9). -/
theorem witness_DecodeOrder :
    base.params.wf ∧ booted.region 0 = .lowMirror ∧ booted.region 0x001FFFFF = .lowMirror ∧
    booted.region 0x00200000 = .ram ∧ base.region 0 = .ram ∧ base.region 0x003FFFFF = .ram ∧
    base.region 0x00400000 = .unmapped ∧ base.region 0x01FFFFFF = .unmapped ∧ base.region 0x02000000 = .altMirror ∧
    base.region 0x021FFFFF = .altMirror ∧ base.region 0x02200000 = .unmapped ∧ base.region 0x031FFFFF = .unmapped ∧
    base.region 0x03200000 = .ioc ∧ base.region 0x033FFFFF = .ioc ∧ base.region 0x03400000 = .vidc ∧
    base.region 0x035FFFFF = .vidc ∧ base.region 0x03600000 = .unmapped ∧ base.region 0x03800000 = .rom ∧
    base.region 0x039FFFFF = .rom ∧ base.region 0x03A00000 = .unmapped ∧ base.region 0x03FFFFFF = .unmapped := by decide

/-- The bytes of a word of the low mirror (V.9 rows 1 and 5); what a misaligned read past RAM reports. -/
theorem witness_WordsAreLittleEndian :
    booted.params.wf ∧ (0x001FFFFC#32).toNat % 4 = 0 ∧ booted.readWord 0x001FFFFC#32 = 0xCAFEF00D#32 ∧
    booted.readByte 0x001FFFFC#32 = 0x0D#8 ∧ booted.readWord 0x04000000#32 = 0xEA00001E#32 ∧
    booted.readWordDiags 0x001FFFFF#32 = [] ∧ booted.readWordDiags 0x00400003#32 = [.invalidRead 0x00400003#32] := by decide

/-- RAM below the alternate mirror, also while the low mirror hides its first 2 MiB (V.9 rows 6 to 8). -/
theorem witness_RamRoundTrip :
    booted.ram.wf = true ∧ booted.region ((0x00200001#32).toNat % 2 ^ 26 / 4 * 4) = .ram ∧
    (booted.writeWord 0x00200000#32 0x12345678#32).readWord 0x00200001#32 = 0x78123456#32 := by decide

/-- The hypothesis at the ends of each of the three ranges that show ROM (V.9). -/
theorem witness_RomRange :
    booted.params.wf ∧
    (∀ a ∈ [(0#32).toNat % 2 ^ 26, (0x001FFFFF#32).toNat % 2 ^ 26], booted.isBootMode = true ∧ a < 0x00200000) ∧
    (∀ a ∈ [(0x02000000#32).toNat % 2 ^ 26, (0x021FFFFF#32).toNat % 2 ^ 26], 0x02000000 ≤ a ∧ a < 0x02200000) ∧
    (∀ a ∈ [(0x03800000#32).toNat % 2 ^ 26, (0x039FFFFF#32).toNat % 2 ^ 26],
      ¬(booted.isBootMode = true ∧ a < 0x00200000) ∧ ¬(0x02000000 ≤ a ∧ a < 0x02200000) ∧ ¬a < booted.params.ramSize ∧
      ¬(0x03200000 ≤ a ∧ a < 0x03600000) ∧ booted.params.romBase ≤ a ∧ a < booted.params.romBase + 0x00200000) :=
  ⟨by decide, by decide, by decide, by decide⟩

/-- ROM through the three ranges, and stores that each of them drops. -/
theorem test_rom_shown :
    booted.readByte 0x001FFFFF#32 = 0xCA#8 ∧ booted.readWord 0x02000000#32 = 0xEA00001E#32 ∧
    booted.readByte 0x039FFFFF#32 = 0xCA#8 ∧
    (booted.writeByte 0x001FFFFF#32 7#8).diags = [.romWrite 0x001FFFFF#32 7#32] ∧
    (booted.writeWord 0x02000002#32 7#32).diags = [.romWrite 0x02000002#32 7#32] ∧
    (booted.writeWord 0x02000002#32 7#32).ram = [] := by decide

/-- The last byte of the address space, and the first byte past RAM. -/
theorem witness_UnmappedAddresses :
    let a := (0x03FFFFFF#32).toNat % 2 ^ 26
    base.params.wf ∧ ¬(base.isBootMode = true ∧ a < 0x00200000) ∧ ¬(0x02000000 ≤ a ∧ a < 0x02200000) ∧
    ¬a < base.params.ramSize ∧ ¬(0x03200000 ≤ a ∧ a < 0x03600000) ∧
    ¬(base.params.romBase ≤ a ∧ a < base.params.romBase + 0x00200000) ∧
    base.params.ramSize = 0x00400000 ∧ base.params.romBase = 0x03800000 ∧ base.region 0x00400000 = .unmapped := by decide

/-- The first and the last byte address of the IOC, and every clause at its boundary: registers 0 and 15, the command
offsets, the first offset past the registers. -/
theorem witness_IocReads :
    base.params.wf ∧
    ∀ c ∈ [(0x03200000#32, 0, 0), (0x03200014#32, 5, 0), (0x0320001B#32, 6, 3), (0x0320003F#32, 15, 3),
        (0x03200040#32, 16, 0), (0x033FFFFF#32, 0x7FFFF, 3)],
      c.2.1 < 0x80000 ∧ c.2.2 < 4 ∧ c.1.toNat % 2 ^ 26 = 0x03200000 + 4 * c.2.1 + c.2.2 := by decide

/-- Rows 14 to 16, 27 and 28 of V.10: byte reads, a rotated word read, and the invalid reads. -/
theorem test_ioc_reads :
    let s : State := { base with ioc := { Ioc.reset with irqA := { request := 0x20, mask := 0x20 } } }
    s.readByte 0x0320001C#32 = 0x20#8 ∧ s.readByte 0x03200020#32 = 0x20#8 ∧
    s.readWord 0x03200021#32 = 0x20000000#32 ∧ s.readWordDiags 0x03200021#32 = [] ∧
    s.readWordDiags 0x03200014#32 = [.invalidRead 0x03200014#32] ∧
    s.readByteDiags 0x03200040#32 = [.invalidRead 0x03200040#32] := by decide

/-- The same places for stores, with the read-only status offsets. -/
theorem witness_IocWrites :
    base.params.wf ∧
    ∀ c ∈ [(0x03200003#32, 0, 3), (0x0320001C#32, 7, 0), (0x03200028#32, 10, 0), (0x03200037#32, 13, 3),
        (0x0320003C#32, 15, 0), (0x03200040#32, 16, 0), (0x033FFFFF#32, 0x7FFFF, 3)],
      c.2.1 < 0x80000 ∧ c.2.2 < 4 ∧ c.1.toNat % 2 ^ 26 = 0x03200000 + 4 * c.2.1 + c.2.2 := by decide

/-- Rows 4, 5, 26 and 29 of V.10: byte stores to a latch, a dropped store, a word store of which the low byte counts. -/
theorem test_ioc_writes :
    ((base.writeByte 0x03200004#32 0xE8#8).writeByte 0x03200008#32 0x03#8).ioc.t0.latch = 0x03E8 ∧
    (base.writeByte 0x0320001C#32 0xFF#8).diags = [.invalidWrite 0x0320001C#32 0xFF#32] ∧
    (base.writeWord 0x03200000#32 0x000001AB#32).ioc.control = 0xAB := by decide

/-- A timer at the count, one above it and one below it (V.10 rows 11 to 13); nothing fires for 0 cycles (row 18). -/
theorem witness_TimerTick :
    let t : Timer := { latch := 0x3E8, counter := 1, latchedRead := 0 }
    t.fires 1 = true ∧ t.fires 0 = false ∧ { t with counter := 2 }.fires 1 = false ∧ { t with counter := 0 }.fires 1 = true ∧
    { t with counter := 0 }.fires 0 = false := by decide

theorem witness_TimerInterrupts :
    let s : State := { atPc 0x1000#32 (psr 0 false false .usr) [] [] with
      ioc := { Ioc.reset with t0 := { latch := 3, counter := 3, latchedRead := 0 }, irqA := { request := 0, mask := 0x20 } } }
    0 < 3 ∧ s.ioc.t0.counter.toNat ≤ 3 ∧ s.ioc.irqA.mask.getLsbD 5 = true ∧ s.cpsr.i = false ∧ s.ioc.fiqLine = false := by
  decide

/-- The first and the last colour register, the registers 260 and 277, the first offset past them and the last address of
the port. -/
theorem witness_PaletteWrites :
    base.Inv ∧
    ∀ c ∈ [(0x03400000#32, 0, 0), (0x0340040F#32, 259, 3), (0x03400410#32, 260, 0), (0x03400457#32, 277, 3),
        (0x03400458#32, 278, 0), (0x035FFFFF#32, 0x7FFFF, 3)],
      c.2.1 < 0x80000 ∧ c.2.2 < 4 ∧ c.1.toNat % 2 ^ 26 = 0x03400000 + 4 * c.2.1 + c.2.2 :=
  ⟨⟨by decide, by decide, by decide, by decide, by decide, by decide, by decide⟩, by decide⟩

/-- 13 bits of a colour (S7), 32 of the others, a byte zero-extended, nothing past register 277. -/
theorem test_vidc_registers :
    (base.writeWord 0x03400004#32 0xFFFFFFFF#32).readWord 0x03400004#32 = 0x1FFF#32 ∧
    (base.writeWord 0x03400410#32 0xFFFFFFFF#32).readWord 0x03400410#32 = 0xFFFFFFFF#32 ∧
    (base.writeByte 0x0340040F#32 0xFF#8).readWord 0x0340040C#32 = 0xFF#32 ∧
    base.readWord 0x03400458#32 = 0xFFFFFFFF#32 ∧
    (base.writeByte 0x03400458#32 1#8).diags = [.invalidWrite 0x03400458#32 1#32] := by decide

end Sys2Proof.Tests
end

/-! The statements of spec/00_scope.md: how a step can end (R9), and the invariant along every input event (R8). -/

namespace Sys2Proof.Machine

/-! ### The end of a step -/

/-- No instruction ends a step in a fault. -/
theorem exec_ne_fault (i : Instr) (s : State) (f : Fault) : exec i s ≠ .fault f := by
  rw [exec_eq]
  nofun

/-- No instruction is refused. -/
theorem exec_ne_refused (i : Instr) (s : State) (r : Refusal) : exec i s ≠ .refused r := by
  rw [exec_eq]
  nofun

/-- No step is refused. -/
theorem step_ne_refused (s : State) (r : Refusal) : step s ≠ .refused r := by
  rcases step_cases s with ⟨-, e⟩ | ⟨-, -, e⟩ | ⟨-, -, -, e⟩ | ⟨-, -, -, e⟩
  · simp [e]
  · simp [e]
  · simp [e]
  · exact e ▸ exec_ne_refused _ _ r

/-- A step faults exactly where it fetches the sentinel, and names R15 (R9, R101). -/
theorem step_fault_iff (s : State) (f : Fault) : step s = .fault f ↔
    s.fiqPending = false ∧ s.irqPending = false ∧ s.fetchWord = Config.sentinel ∧ f = .invalidPC s.pc := by
  rcases step_cases s with ⟨hf, e⟩ | ⟨-, hi, e⟩ | ⟨hf, hi, hw, e⟩ | ⟨-, -, hw, e⟩
  · simp [e, hf]
  · simp [e, hi]
  · simp [e, hf, hi, hw, eq_comm]
  · simp [e, hw, exec_ne_fault]

/-- Settles O8: the pending lines and the fetched word of `step_fault_iff` are written out in the statement. -/
theorem stepStopsOnlyAtSentinel : Obligations.StepStopsOnlyAtSentinel := fun s =>
  ⟨step_ne_refused s, step_fault_iff s⟩

/-! ### The invariant along a step -/

/-- A register write keeps the invariant: R15 takes only masked values (R24). -/
theorem setPhys_inv {s : State} (p : PhysReg) (v : Word) (h : s.Inv) : (s.setPhys p v).Inv :=
  inv_of_pc h (setPhys_sameBus s p v) (setPhys_pc_masked s p v h.pc)

/-- The invariant says nothing about CPSR. -/
theorem setCpsr_inv {s : State} (p : Psr) (h : s.Inv) : (s.setCpsr p).Inv :=
  inv_of_pc h (setCpsr_sameBus s p) h.pc

/-- The invariant says nothing about the diagnostic list. -/
theorem emit_inv {s : State} (ds : List Diag) (h : s.Inv) : (s.emit ds).Inv :=
  inv_of_pc h (emit_sameBus s ds) h.pc

theorem started_inv {s : State} (h : s.Inv) : s.started.Inv :=
  inv_of_pc h (started_sameBus s) h.pc

theorem advance_inv {s : State} (h : s.Inv) : s.advance.Inv := setPhys_inv _ _ h

/-- Every update an instruction other than SWI is made of keeps the invariant. -/
theorem inv_keptByUpdates : KeptByUpdates State.Inv where
  reg _ _ _ := setPhys_inv _ _
  user _ _ _ := setPhys_inv _ _
  flags _ _ _ _ _ := setCpsr_inv _
  restore t h := by
    rw [restoreCpsr_eq]
    exact setCpsr_inv _ h
  emit _ ds := emit_inv ds
  word _ a v := writeWord_inv a v
  byte _ a b := writeByte_inv a b

/-- Every instruction keeps the invariant: SWI as an exception entry, the others update by update. -/
theorem effect_inv {s : State} (i : Instr) (h : s.Inv) : (effect i s).Inv := by
  rcases swi_or i with ⟨c, n, rfl⟩ | hi
  · exact raise_inv h _ _ _ _
  · exact inv_keptByUpdates.effect i hi s h

/-- A step that answers a next state keeps the invariant. -/
theorem step_inv {s t : State} (h : s.Inv) (hs : step s = .next t) : t.Inv := by
  rcases step_next_cases hs with ⟨-, rfl⟩ | ⟨-, -, rfl⟩ | ⟨-, -, -, rfl⟩
  · exact raise_inv (started_inv h) _ _ _ _
  · exact raise_inv (started_inv h) _ _ _ _
  · have hadv : s.started.advance.Inv := advance_inv (started_inv h)
    split
    · exact effect_inv _ hadv
    · exact hadv

/-! ### The invariant along the other events -/

/-- The invariant says nothing about the IOC. -/
theorem setIoc_inv {s : State} (d : Ioc) (h : s.Inv) : ({ s with ioc := d } : State).Inv where
  pc := h.pc
  ramWf := h.ramWf
  ramBelow := h.ramBelow
  romWf := h.romWf
  romBelow := h.romBelow
  vidc := h.vidc
  params := h.params

/-- A tick of the timers changes the IOC alone (R281). -/
theorem iocTick_inv {s : State} (n : Nat) (h : s.Inv) : (iocTick n s).Inv := setIoc_inv _ h

/-- The vertical flyback changes the IOC alone (R285). -/
theorem vflyback_inv {s : State} (h : s.Inv) : (vflyback s).Inv := setIoc_inv _ h

/-- A request changes one bank of the IOC alone (R286). -/
theorem iocAssert_inv {s : State} (bank : BankName) (bits : BitVec 8) (h : s.Inv) : (iocAssert bank bits s).Inv := by
  cases bank
  case bankA => exact setIoc_inv _ h
  case bankB => exact setIoc_inv _ h
  case bankFiq => exact setIoc_inv _ h

/-- A CPU reset leaves R15 zero and memory and devices as they are (R321). -/
theorem cpuReset_inv {s : State} (h : s.Inv) : (cpuReset s).Inv :=
  inv_of_pc h ⟨rfl, rfl, rfl, rfl, rfl, rfl⟩ BitVec.zero_and

/-- `power_on` establishes the invariant: R15 is zero, RAM and the VIDC store are empty, and the parameters and the image
are what it is given (R320). -/
theorem powerOn_inv {q : Config.Params} {image : Memory} (hq : q.wf) (hwf : image.wf = true)
    (hsize : Store.below Config.romSize image = true) : (powerOn q image).Inv where
  pc := BitVec.zero_and
  ramWf := rfl
  ramBelow := rfl
  romWf := hwf
  romBelow := hsize
  vidc := rfl
  params := hq

/-- An event other than `power_on` keeps the invariant. -/
theorem applyEvent_inv {e : Event} {s t : State} (h : s.Inv) (he : ∀ q m, e ≠ .powerOn q m)
    (ht : applyEvent e s = .next t) : t.Inv := by
  cases e with
  | powerOn q m => exact absurd rfl (he q m)
  | cpuReset => cases ht; exact cpuReset_inv h
  | step => exact step_inv h ht
  | iocTick n => cases ht; exact iocTick_inv n h
  | vflyback => cases ht; exact vflyback_inv h
  | iocAssert bank bits => cases ht; exact iocAssert_inv bank bits h

/-- Settles O43: one lemma per event, and `power_on` by itself. -/
theorem eventsKeepInvariant : Obligations.EventsKeepInvariant :=
  ⟨fun _ _ _ => applyEvent_inv, fun _ _ => powerOn_inv⟩

end Sys2Proof.Machine

/-! The statements of spec/10_state.md: the banks and R15 (R21 to R26), the saved status registers (R29), what User mode
sees (R21, R267), the invariant at reset and along a step, and the state of `power_on` (R37). -/

namespace Sys2Proof.Machine

/-! ### One step as a choice -/

/-- The choices of `step_cases`, in the order in which a step tests them (R100). -/
theorem step_eq (s : State) :
    step s =
      if s.fiqPending then .next s.started.takeFiq
      else if s.irqPending then .next s.started.takeIrq
      else if s.fetchWord = Config.sentinel then .fault (.invalidPC s.pc)
      else exec (decodeWord s.fetchWord) s.started.advance := by
  rcases step_cases s with ⟨hf, e⟩ | ⟨hf, hi, e⟩ | ⟨hf, hi, hw, e⟩ | ⟨hf, hi, hw, e⟩
  · simp [e, hf]
  · simp [e, hf, hi]
  · simp [e, hf, hi, hw]
  · simp [e, hf, hi, hw]

/-! ### The saved status registers -/

/-- The vector at which a mode is entered by an exception that saves CPSR; User mode is entered by none (R250, R257 to
R259). -/
def Mode.entryVector : Mode → Option Word
  | .usr => none
  | .fiq => some Exception.fiq.vector
  | .irq => some Exception.irq.vector
  | .svc => some Exception.swi.vector

/-- Nothing but an exception entry writes a saved status register (R29). -/
theorem spsrsKept_keptByUpdates (s : State) : KeptByUpdates s.SpsrsKept where
  reg _ _ _ h := h
  user _ _ _ h := h
  flags _ _ _ _ _ h := h
  restore t h := by
    rw [restoreCpsr_eq]
    exact h
  emit _ _ h := h
  word _ _ _ h := h
  byte _ _ _ h := h

theorem State.SpsrsKept.spsr_eq {s t : State} (h : s.SpsrsKept t) (q : Mode) : t.spsr q = s.spsr q := by
  obtain ⟨hfiq, hirq, hsvc⟩ := h
  cases q
  case usr => rfl
  case fiq => exact congrArg some hfiq
  case irq => exact congrArg some hirq
  case svc => exact congrArg some hsvc

/-- `SPSR[q]` is in `t` what it is in `s`, or `t` is the entry into `q` and it holds the CPSR of `s` (R256). -/
def State.SpsrKeptOrSaved (s t : State) (q : Mode) : Prop :=
  t.spsr q = s.spsr q ∨ t.spsr q = some s.cpsr ∧ t.cpsr.mode = q ∧ q.entryVector = some t.pc

/-- An entry at the vector of its mode saves CPSR in that mode alone. -/
theorem raise_spsrKeptOrSaved (s : State) {m : Mode} {vec : Word} (ret : Word) (f : Bool) (q : Mode)
    (hv : m.entryVector = some (vec &&& Config.pcMask)) : s.SpsrKeptOrSaved (s.raise m vec ret f) q := by
  unfold State.SpsrKeptOrSaved
  rw [raise_spsr, raise_cpsr, raise_pc]
  split
  · next h =>
    obtain ⟨rfl, -⟩ := h
    exact .inr ⟨rfl, rfl, hv⟩
  · exact .inl rfl

/-- SWI enters SVC mode; every other instruction keeps the saved status registers. -/
theorem effect_spsrKeptOrSaved (i : Instr) (s : State) (q : Mode) : s.SpsrKeptOrSaved (effect i s) q := by
  rcases swi_or i with ⟨c, n, rfl⟩ | hi
  · exact raise_spsrKeptOrSaved s _ _ q rfl
  · exact .inl (((spsrsKept_keptByUpdates s).effect i hi s ⟨rfl, rfl, rfl⟩).spsr_eq q)

theorem started_advance_spsrsKept (s : State) : s.SpsrsKept s.started.advance := ⟨rfl, rfl, rfl⟩

/-- A step changes `SPSR[q]` only by entering `q`. -/
theorem step_spsrKeptOrSaved {s t : State} (hs : step s = .next t) (q : Mode) : s.SpsrKeptOrSaved t q := by
  rcases step_next_cases hs with ⟨-, rfl⟩ | ⟨-, -, rfl⟩ | ⟨-, -, -, rfl⟩
  · exact raise_spsrKeptOrSaved s.started _ _ q rfl
  · exact raise_spsrKeptOrSaved s.started _ _ q rfl
  · have hadv := (started_advance_spsrsKept s).spsr_eq q
    split
    · exact (effect_spsrKeptOrSaved _ s.started.advance q).imp_left (·.trans hadv)
    · exact .inl hadv

/-- The same of the contents, in a mode that has a saved status register. -/
theorem State.SpsrKeptOrSaved.contents {s t : State} {q : Mode} {p p' : Psr} {vec : Word} (h : s.SpsrKeptOrSaved t q)
    (hs : s.spsr q = some p) (ht : t.spsr q = some p') (hv : q.entryVector = some vec) :
    p' = p ∨ p' = s.cpsr ∧ t.cpsr.mode = q ∧ t.pc = vec := by
  rcases h with kept | ⟨saved, mode, vector⟩
  · exact .inl (Option.some.inj (ht.symm.trans (kept.trans hs)))
  · exact .inr ⟨Option.some.inj (ht.symm.trans saved), mode, Option.some.inj (vector.symm.trans hv)⟩

/-- Settles O38: `step_spsrKeptOrSaved` at each mode that has a saved status register. -/
theorem spsrWrittenOnlyByEntry : Obligations.SpsrWrittenOnlyByEntry := fun _ _ hs =>
  ⟨(step_spsrKeptOrSaved hs .fiq).contents rfl rfl rfl, (step_spsrKeptOrSaved hs .irq).contents rfl rfl rfl,
    (step_spsrKeptOrSaved hs .svc).contents rfl rfl rfl⟩

/-! ### What User mode sees -/

/-- The states agree outside the banks and the saved status of the modes other than User. Unlike `UserAgrees` it does not
say which mode they are in, so it also holds after an exception entry. -/
structure SameToUser (t t' : State) : Prop where
  cpsr : t'.cpsr = t.cpsr
  bus : t.SameBus t'
  diags : t'.diags = t.diags
  regs : ∀ q, q ∉ bankedElsewhere → t'.regs.get q = t.regs.get q

theorem UserAgrees.sameToUser {t t' : State} (h : UserAgrees t t') : SameToUser t t' :=
  ⟨h.cpsr, h.bus, h.diags, h.regs⟩

theorem UserAgrees.nextPc {t t' : State} (h : UserAgrees t t') : t'.nextPc = t.nextPc := by
  unfold State.nextPc
  rw [h.fetchPc]

theorem UserAgrees.fiqPending {t t' : State} (h : UserAgrees t t') : t'.fiqPending = t.fiqPending := by
  obtain ⟨-, -, hioc, -, -, -⟩ := h.bus
  unfold State.fiqPending
  rw [hioc, h.cpsr]

theorem UserAgrees.irqPending {t t' : State} (h : UserAgrees t t') : t'.irqPending = t.irqPending := by
  obtain ⟨-, -, hioc, -, -, -⟩ := h.bus
  unfold State.irqPending
  rw [hioc, h.cpsr]

theorem UserAgrees.fetchWord {t t' : State} (h : UserAgrees t t') : t'.fetchWord = t.fetchWord := by
  unfold State.fetchWord
  rw [h.pc, h.bus.readWord]

theorem UserAgrees.started {t t' : State} (h : UserAgrees t t') : UserAgrees t.started t'.started :=
  ⟨h.mode, h.cpsr, h.bus, rfl, h.regs⟩

theorem UserAgrees.advance {t t' : State} (h : UserAgrees t t') : UserAgrees t.advance t'.advance := by
  unfold State.advance
  rw [h.pc]
  exact h.setPhys _ _

/-- An entry with one return value is seen alike: what it saves is the common CPSR. -/
theorem UserAgrees.raise {t t' : State} (h : UserAgrees t t') (m : Mode) (vec ret : Word) (f : Bool) :
    SameToUser (t.raise m vec ret f) (t'.raise m vec ret f) where
  cpsr := by rw [raise_cpsr, raise_cpsr, h.cpsr]
  bus := by simpa [State.SameBus] using h.bus
  diags := by rw [raise_diags, raise_diags, h.diags]
  regs q hq := by rw [raise_get, raise_get, h.regs q hq]

theorem UserAgrees.takeFiq {t t' : State} (h : UserAgrees t t') : SameToUser t.takeFiq t'.takeFiq := by
  unfold State.takeFiq
  rw [h.pc]
  exact h.raise _ _ _ _

theorem UserAgrees.takeIrq {t t' : State} (h : UserAgrees t t') : SameToUser t.takeIrq t'.takeIrq := by
  unfold State.takeIrq
  rw [h.pc]
  exact h.raise _ _ _ _

theorem UserAgrees.takeSwi {t t' : State} (h : UserAgrees t t') : SameToUser t.takeSwi t'.takeSwi := by
  unfold State.takeSwi
  rw [h.nextPc]
  exact h.raise _ _ _ _

/-- Every instruction is seen alike, SWI included. -/
theorem UserAgrees.effect_sameToUser {t t' : State} (h : UserAgrees t t') (i : Instr) :
    SameToUser (Machine.effect i t) (Machine.effect i t') := by
  rcases swi_or i with ⟨c, n, rfl⟩ | hi
  · exact h.takeSwi
  · exact (h.effect i hi).sameToUser

/-- The two states run an instruction to next states that User mode sees alike; the condition is tested on one CPSR. -/
theorem UserAgrees.exec_sameToUser {t t' u : State} (h : UserAgrees t t') (i : Instr) (hu : exec i t = .next u) :
    ∃ u', exec i t' = .next u' ∧ SameToUser u u' := by
  rw [exec_eq] at hu
  cases hu
  refine ⟨_, exec_eq i t', ?_⟩
  rw [h.cpsr]
  split
  · exact h.effect_sameToUser i
  · exact h.sameToUser

/-- The two states take the same choice of a step, and it is seen alike. -/
theorem UserAgrees.step_sameToUser {s s' t : State} (h : UserAgrees s s') (hs : step s = .next t) :
    ∃ t', step s' = .next t' ∧ SameToUser t t' := by
  rw [step_eq] at hs
  rw [step_eq s', h.fiqPending, h.irqPending, h.fetchWord]
  split at hs
  · next hf =>
    cases hs
    exact ⟨_, if_pos hf, h.started.takeFiq⟩
  · next hf =>
    rw [if_neg hf]
    split at hs
    · next hi =>
      cases hs
      exact ⟨_, if_pos hi, h.started.takeIrq⟩
    · next hi =>
      rw [if_neg hi]
      split at hs
      · cases hs
      · next hw =>
        rw [if_neg hw]
        exact h.started.advance.exec_sameToUser _ hs

/-- Settles O40: the two states of the statement agree for User mode, so `UserAgrees.step_sameToUser` applies. -/
theorem otherBanksInvisibleToUser : Obligations.OtherBanksInvisibleToUser := by
  intro s t x y z r hmode hregs hs
  have hagree : UserAgrees s { s with regs := r, spsrFiq := x, spsrIrq := y, spsrSvc := z } :=
    ⟨hmode, rfl, ⟨rfl, rfl, rfl, rfl, rfl, rfl⟩, rfl, hregs⟩
  obtain ⟨t', hstep, hcpsr, ⟨hram, hrom, hioc, hvidc, hboot, hparams⟩, hdiags, hsame⟩ := hagree.step_sameToUser hs
  exact ⟨t', hstep, hsame, hcpsr, hram, hrom, hioc, hvidc, hboot, hparams, hdiags⟩

/-! ### The invariant -/

/-- Settles O42: `step_inv` takes the entries and the instructions one by one. -/
theorem stepKeepsInvariant : Obligations.StepKeepsInvariant := fun _ _ => step_inv

/-- The parameters of reset are in the ranges of R4 and R72, whatever the open latch address is (log 3). -/
theorem defaultParams_wf : Config.defaultParams.wf := by
  have hlatch := Config.memcBootLatchWord.isLt
  have hbound : 4 * Config.memcBootLatchWord.toNat < 0x04000000 := by omega
  exact ⟨by decide, by decide, rfl, rfl, Nat.mul_mod_right _ _, hbound⟩

/-- Settles O44: reset is `power_on` with the default parameters and the empty image. -/
theorem resetSatisfiesInvariant : Obligations.ResetSatisfiesInvariant := powerOn_inv defaultParams_wf rfl rfl

/-! ### Register 15 as an operand -/

/-- Register 15 reads as the operand value of R15 in every bank (R25). -/
theorem readIn_r15 (s : State) (m : Mode) : s.readIn m .r15 = s.operandPc := if_pos rfl

/-- Settles O11: the state of the statement is the advanced one. -/
theorem programCounterReadsAhead : Obligations.ProgramCounterReadsAhead := fun s h =>
  ⟨advance_fetchPc s h, (readIn_r15 s.advance _).trans (advance_operandPc s h),
    (readIn_r15 s.advance _).trans (advance_operandPc s h)⟩

/-! ### The banks -/

/-- The register number that selects a physical register, in the modes that have it (R22). -/
def PhysReg.number : PhysReg → Reg
  | .r0 => .r0
  | .r1 => .r1
  | .r2 => .r2
  | .r3 => .r3
  | .r4 => .r4
  | .r5 => .r5
  | .r6 => .r6
  | .r7 => .r7
  | .r8usr | .r8fiq => .r8
  | .r9usr | .r9fiq => .r9
  | .r10usr | .r10fiq => .r10
  | .r11usr | .r11fiq => .r11
  | .r12usr | .r12fiq => .r12
  | .r13usr | .r13fiq | .r13irq | .r13svc => .r13
  | .r14usr | .r14fiq | .r14irq | .r14svc => .r14
  | .r15 => .r15

theorem number_phys (m : Mode) (i : Reg) : (phys m i).number = i := by
  cases i <;> cases m <;> rfl

/-- Two modes share register `i` below 15: always below 8, up to 12 when neither is FIQ, else only with themselves
(R21). -/
theorem phys_eq_phys_iff {i : Reg} (hi : i ≠ .r15) (m n : Mode) :
    phys m i = phys n i ↔ m = n ∨ i.num.toNat < 8 ∨ i.num.toNat < 13 ∧ m ≠ .fiq ∧ n ≠ .fiq := by
  cases i
  case r15 => exact absurd rfl hi
  all_goals cases m <;> cases n <;> decide

/-- Different numbers never select one physical register, in whatever modes. -/
theorem phys_eq_iff {i j : Reg} (hi : i ≠ .r15) (m n : Mode) :
    phys m j = phys n i ↔ i = j ∧ (m = n ∨ i.num.toNat < 8 ∨ i.num.toNat < 13 ∧ m ≠ .fiq ∧ n ≠ .fiq) := by
  constructor
  · intro h
    obtain rfl : i = j := by rw [← number_phys n i, ← h, number_phys]
    exact ⟨rfl, (phys_eq_phys_iff hi m n).mp h⟩
  · rintro ⟨rfl, h⟩
    exact (phys_eq_phys_iff hi m n).mpr h

/-- A register other than 15 reads as what its physical register holds (R22). -/
theorem readIn_of_ne_r15 (s : State) (m : Mode) {j : Reg} (hj : j ≠ .r15) : s.readIn m j = s.regs.get (phys m j) :=
  if_neg hj

/-- Settles O12: a read after a write of the register file, and `phys_eq_iff` for when the two select one register. -/
theorem bankedRegisters : Obligations.BankedRegisters := by
  intro s i j m v hi hj
  have hheld : (phys s.cpsr.mode i).held v = v := PhysReg.held_of_ne (mt phys_eq_r15.mp hi) v
  rw [readIn_of_ne_r15 _ m hj, readIn_of_ne_r15 _ m hj, writeReg_regs, RegFile.get_set, hheld]
  simp only [phys_eq_iff hi]

/-! ### The state of `power_on` -/

theorem RegFile.get_zero (p : PhysReg) : RegFile.zero.get p = 0#32 := by cases p <;> rfl

/-- No line is raised by an IOC of zeros (R273, R288). -/
theorem reset_lines : Ioc.reset.irqLine = false ∧ Ioc.reset.fiqLine = false := by decide

/-- Settles O59: the fields of `powerOn` one by one; an empty VIDC store reads as zero everywhere. -/
theorem powerOn_state : Obligations.PowerOn := fun _ _ =>
  ⟨RegFile.get_zero, rfl, rfl, rfl, rfl, fun _ => rfl, rfl, rfl, rfl, rfl, rfl, rfl, reset_lines⟩

end Sys2Proof.Machine

/-! The statements of spec/20_memory.md: the decode order and the words (R61 to R71, R74), the dropped writes (R67, R68,
R75), the ports of the devices (R76), what no step changes (R72, R79), and the fetch (R73). -/

namespace Sys2Proof.Machine

/-! ### The region of an address -/

/-- An address lies in the region of its aligned word (R62). -/
theorem region_alignedAddr {s : State} (hp : s.params.wf) (addr : Word) :
    s.region (alignedAddr addr) = s.region (busAddr addr) := by
  have h := region_word (s := s) hp (aw := alignedAddr addr) (j := busAddr addr % 4) (Nat.mul_mod_left _ _)
    (Nat.mod_lt _ (by omega))
  rw [← h]
  congr 1
  unfold alignedAddr
  omega

theorem region_lowMirror {s : State} {a : Nat} (h : s.isBootMode = true ∧ a < 0x00200000) : s.region a = .lowMirror :=
  if_pos h

theorem region_altMirror {s : State} {a : Nat} (h : 0x02000000 ≤ a ∧ a < 0x02200000) : s.region a = .altMirror := by
  rcases region_cases s a with ⟨-, hlt, -⟩ | ⟨-, -, -, r⟩ | ⟨-, n, -, -⟩ | ⟨-, n, -, -, -, -⟩ | ⟨-, n, -, -, -, -⟩ |
    ⟨-, n, -, -, -, -, -⟩ | ⟨-, n, -, -, -, -⟩
  · omega
  · exact r
  all_goals exact absurd h n

/-- RAM is below RAM_SIZE, except where a mirror hides it (R65). -/
theorem region_ram_iff {s : State} {a : Nat} : s.region a = .ram ↔
    ¬(s.isBootMode = true ∧ a < 0x00200000) ∧ ¬(0x02000000 ≤ a ∧ a < 0x02200000) ∧ a < s.params.ramSize := by
  rcases region_cases s a with ⟨hb, h, r⟩ | ⟨-, h, h', r⟩ | ⟨n1, n2, h, r⟩ | ⟨-, -, n, -, -, r⟩ | ⟨-, -, n, -, -, r⟩ |
    ⟨-, -, n, -, -, -, r⟩ | ⟨-, -, n, -, -, r⟩
  · simp [r, hb, h]
  · simp [r, h, h']
  · exact iff_of_true r ⟨n1, n2, h⟩
  all_goals simp [r, n]

/-- An address is unmapped where no row of the decode order claims it (R68). -/
theorem region_unmapped_iff {s : State} {a : Nat} : s.region a = .unmapped ↔
    ¬(s.isBootMode = true ∧ a < 0x00200000) ∧ ¬(0x02000000 ≤ a ∧ a < 0x02200000) ∧ ¬a < s.params.ramSize ∧
      ¬(0x03200000 ≤ a ∧ a < 0x03600000) ∧ ¬(s.params.romBase ≤ a ∧ a < s.params.romBase + 0x00200000) := by
  rcases region_cases s a with ⟨hb, h, r⟩ | ⟨-, h, h', r⟩ | ⟨-, -, h, r⟩ | ⟨-, -, -, h, h', r⟩ | ⟨-, -, -, h, h', r⟩ |
    ⟨-, -, -, -, h, h', r⟩ | ⟨n1, n2, n3, n4, n5, r⟩
  · simp [r, hb, h]
  · simp [r, h, h']
  · simp [r, h]
  · simp only [r, reduceCtorEq, false_iff]
    omega
  · simp only [r, reduceCtorEq, false_iff]
    omega
  · simp [r, h, h']
  · exact iff_of_true r ⟨n1, n2, n3, n4, n5⟩

/-- Address `a` shows ROM, in the range whose first address is `first`: the low mirror in boot mode, the alternate mirror,
or the ROM's own range where no earlier row of the decode order claims it (R62, R63, R64, R67). -/
def State.ShowsRom (s : State) (a first : Nat) : Prop :=
  (s.isBootMode = true ∧ a < 0x00200000 ∧ first = 0) ∨
    (0x02000000 ≤ a ∧ a < 0x02200000 ∧ first = 0x02000000) ∨
    (¬(s.isBootMode = true ∧ a < 0x00200000) ∧ ¬(0x02000000 ≤ a ∧ a < 0x02200000) ∧ ¬a < s.params.ramSize ∧
      ¬(0x03200000 ≤ a ∧ a < 0x03600000) ∧ s.params.romBase ≤ a ∧ a < s.params.romBase + 0x00200000 ∧
      first = s.params.romBase)

/-- The router finds one of the three ROM regions there, and its offset in ROM_IMAGE counts from the first address of the
range. -/
theorem State.ShowsRom.region {s : State} {a first : Nat} (h : s.ShowsRom a first) :
    ∃ r : Region, (r = .lowMirror ∨ r = .altMirror ∨ r = .rom) ∧ s.region a = r ∧ s.romOffset r a = a - first := by
  rcases h with ⟨hb, hlt, rfl⟩ | ⟨hge, hlt, rfl⟩ | ⟨n1, n2, n3, n4, hge, hlt, rfl⟩
  · exact ⟨.lowMirror, .inl rfl, region_lowMirror ⟨hb, hlt⟩, Nat.mod_eq_of_lt hlt⟩
  · refine ⟨.altMirror, .inr (.inl rfl), region_altMirror ⟨hge, hlt⟩, ?_⟩
    rw [romOffset_altMirror s hge]
    exact Nat.mod_eq_of_lt (by unfold Config.altMirrorBase Config.romSize; omega)
  · refine ⟨.rom, .inr (.inr rfl), ?_, rfl⟩
    rcases region_cases s a with ⟨hb, h, -⟩ | ⟨-, h, h', -⟩ | ⟨-, -, h, -⟩ | ⟨-, -, -, h, h', -⟩ | ⟨-, -, -, h, h', -⟩ |
      ⟨-, -, -, -, -, -, r⟩ | ⟨-, -, -, -, n, -⟩
    · exact absurd ⟨hb, h⟩ n1
    · exact absurd ⟨h, h'⟩ n2
    · exact absurd h n3
    · omega
    · omega
    · exact r
    · exact absurd ⟨hge, hlt⟩ n

theorem State.ShowsRom.first_le {s : State} {a first : Nat} (h : s.ShowsRom a first) : first ≤ a := by
  rcases h with ⟨-, -, rfl⟩ | ⟨hge, -, rfl⟩ | ⟨-, -, -, -, hge, -, rfl⟩
  · exact Nat.zero_le a
  · exact hge
  · exact hge

/-- The word that contains an address shows ROM where the address does: every bound is a multiple of 4. -/
theorem State.ShowsRom.aligned {s : State} {a first : Nat} (hp : s.params.wf) (h : s.ShowsRom a first) :
    s.ShowsRom (a / 4 * 4) first := by
  obtain ⟨-, -, hram, hrom, -, -⟩ := hp
  rcases h with ⟨hb, hlt, hf⟩ | ⟨hge, hlt, hf⟩ | ⟨n1, n2, n3, n4, hge, hlt, hf⟩
  · exact .inl ⟨hb, by omega, hf⟩
  · exact .inr (.inl ⟨by omega, by omega, hf⟩)
  · refine .inr (.inr ⟨fun ⟨hb, h⟩ => n1 ⟨hb, ?_⟩, ?_, ?_, ?_, ?_, ?_, hf⟩) <;> omega

/-! ### Accesses -/

/-- A byte read of RAM (R65, R74). -/
theorem readByte_at_ram {s : State} {addr : Word} (h : s.region (busAddr addr) = .ram) :
    s.readByte addr = s.ram.read (busAddr addr) ∧ s.readByteDiags addr = [] := by
  unfold State.readByte State.readByteDiags State.busByte
  rw [h]
  exact ⟨rfl, rfl⟩

/-- A word read of RAM (R65, R70). -/
theorem readWord_of_ram {s : State} {addr : Word} (h : s.region (alignedAddr addr) = .ram) :
    s.readWord addr = ror32 (s.ram.readWord (alignedAddr addr)) (8 * (busAddr addr % 4)) := by
  unfold State.readWord State.busWord
  rw [h]
  rfl

/-- A word store takes no address from RAM: it can only end boot mode, which hides RAM (R62, R72). -/
theorem writeWord_region_ram {s : State} {a : Nat} (addr v : Word) (h : s.region a = .ram) :
    (s.writeWord addr v).region a = .ram := by
  obtain ⟨hlow, halt, hram⟩ := region_ram_iff.mp h
  refine region_ram_iff.mpr ⟨fun ⟨hb, hlt⟩ => hlow ⟨?_, hlt⟩, halt, hram⟩
  rw [writeWord_boot, Bool.and_eq_true] at hb
  exact hb.1

/-- Accesses where ROM is shown: `rom_access` with the offset counted from the first address of the range (R63, R64,
R67). -/
theorem State.ShowsRom.access {s : State} {addr : Word} {first : Nat} (hp : s.params.wf)
    (h : s.ShowsRom (busAddr addr) first) (v : Word) (b : Byte) :
    s.readByte addr = s.rom.read (busAddr addr - first) ∧ s.readByteDiags addr = [] ∧
    s.readWord addr = ror32 (s.rom.readWord (alignedAddr addr - first)) (8 * (busAddr addr % 4)) ∧
    s.readWordDiags addr = [] ∧
    s.writeByte addr b = { s with diags := s.diags ++ [.romWrite (addr &&& 0x03FFFFFF#32) (0#24 ++ b)] } ∧
    s.writeWord addr v =
      { s with
        diags := s.diags ++ [.romWrite (addr &&& 0x03FFFFFF#32) v]
        isBootMode := s.isBootMode && decide (alignedAddr addr ≠ s.params.bootLatch) } := by
  obtain ⟨r, hr, hreg, hoff⟩ := h.region
  obtain ⟨r', -, hreg', hoff'⟩ := (h.aligned hp).region
  obtain rfl : r' = r := hreg'.symm.trans ((region_alignedAddr hp addr).trans hreg)
  have hacc := rom_access hr hreg hreg' v b
  rwa [hoff, show s.romOffset r' (alignedAddr addr) = alignedAddr addr - first from hoff'] at hacc

/-- Accesses that no row of the decode order claims: all-ones, dropped writes, an invalid access each (R68). -/
theorem unmapped_access {s : State} {addr : Word} (hp : s.params.wf) (h : s.region (busAddr addr) = .unmapped) (v : Word)
    (b : Byte) :
    s.readWord addr = 0xFFFFFFFF#32 ∧ s.readWordDiags addr = [.invalidRead (addr &&& 0x03FFFFFF#32)] ∧
    s.readByte addr = 0xFF#8 ∧ s.readByteDiags addr = [.invalidRead (addr &&& 0x03FFFFFF#32)] ∧
    s.writeByte addr b = { s with diags := s.diags ++ [.invalidWrite (addr &&& 0x03FFFFFF#32) (0#24 ++ b)] } ∧
    s.writeWord addr v =
      { s with
        diags := s.diags ++ [.invalidWrite (addr &&& 0x03FFFFFF#32) v]
        isBootMode := s.isBootMode && decide (alignedAddr addr ≠ s.params.bootLatch) } := by
  have haligned := (region_alignedAddr hp addr).trans h
  unfold State.readWord State.readWordDiags State.readByte State.readByteDiags State.busWord State.busByte
    State.writeWord State.writeByte State.storeWord State.storeByte
  rw [h, haligned]
  simp only [byte_zero_extended, State.latchBoot, boot_flag]
  exact ⟨ror32_sentinel _ (Nat.mod_lt _ (by omega)), rfl, rfl, rfl, rfl, rfl⟩

/-- Outside the devices a word read reports what a byte read of the same address reports. -/
theorem readWordDiags_eq_readByteDiags {s : State} {addr : Word} (hp : s.params.wf)
    (hioc : s.region (busAddr addr) ≠ .ioc) (hvidc : s.region (busAddr addr) ≠ .vidc) :
    s.readWordDiags addr = s.readByteDiags addr := by
  unfold State.readWordDiags State.readByteDiags State.busWord State.busByte
  rw [region_alignedAddr hp]
  cases hr : s.region (busAddr addr) with
  | ioc => exact absurd hr hioc
  | vidc => exact absurd hr hvidc
  | _ => rfl

/-! ### The router -/

/-- Settles O46: one access lemma per row of the decode order. -/
theorem decodeOrder : Obligations.DecodeOrder := by
  intro s addr hp a hdev
  have ha : busAddr addr = a := busAddr_eq addr
  have fromRom {first : Nat} (h : s.ShowsRom a first) :
      (s.readByte addr, s.readByteDiags addr) = (s.rom.read (a - first), []) := by
    rw [← ha] at h ⊢
    obtain ⟨hval, hdiags, -⟩ := h.access hp 0 0
    rw [hval, hdiags]
  split_ifs with hlow halt hram hrom
  · exact fromRom (.inl ⟨hlow.1, hlow.2, rfl⟩)
  · exact fromRom (.inr (.inl ⟨halt.1, halt.2, rfl⟩))
  · obtain ⟨hval, hdiags⟩ := readByte_at_ram (s := s) (addr := addr) (ha ▸ region_ram_iff.mpr ⟨hlow, halt, hram⟩)
    rw [hval, hdiags, ha]
  · exact fromRom (.inr (.inr ⟨hlow, halt, hram, hdev, hrom.1, hrom.2, rfl⟩))
  · obtain ⟨-, -, hval, hdiags, -⟩ :=
      unmapped_access (addr := addr) hp (ha ▸ region_unmapped_iff.mpr ⟨hlow, halt, hram, hdev, hrom⟩) 0 0
    rw [hval, hdiags]

/-- Settles O47: `readWord_bytes` at the four addresses of the word, none of which is a device's. -/
theorem wordsAreLittleEndian : Obligations.WordsAreLittleEndian := by
  intro s addr hp h4 hdev w
  rw [← busAddr_eq] at hdev
  obtain ⟨hioc, hvidc⟩ := region_not_device (s := s) hdev
  have hword (j : Nat) (hj : j < 4) : s.readWord (addr + BitVec.ofNat 32 j) = w.rotateRight (8 * j) :=
    readWord_bytes hp h4 hioc hvidc j hj
  have hdiags (j : Nat) (hj : j < 4) :
      s.readWordDiags (addr + BitVec.ofNat 32 j) = s.readByteDiags (addr + BitVec.ofNat 32 j) := by
    have hregion : s.region (busAddr (addr + BitVec.ofNat 32 j)) = s.region (busAddr addr) := by
      rw [busAddr_add h4 j hj]
      exact region_word hp (by rw [busAddr_eq]; omega) hj
    exact readWordDiags_eq_readByteDiags hp (hregion ▸ hioc) (hregion ▸ hvidc)
  have hzero : addr + BitVec.ofNat 32 0 = addr := BitVec.add_zero addr
  refine ⟨?_, hword 1 (by omega), hword 2 (by omega), hword 3 (by omega), ?_⟩
  · rw [← hzero, hword 0 (by omega)]
    exact ror32_zero w
  · simp only [List.forall_mem_cons, List.not_mem_nil, false_imp_iff, implies_true, and_true]
    exact ⟨hzero ▸ hdiags 0 (by omega), hdiags 1 (by omega), hdiags 2 (by omega), hdiags 3 (by omega)⟩

/-- Settles O48: RAM stays RAM after the store, and holds the word stored. -/
theorem ramRoundTrip : Obligations.RamRoundTrip := by
  intro s addr v hwf hram
  rw [← alignedAddr_eq] at hram ⊢
  have hafter := writeWord_region_ram addr v hram
  refine ⟨hafter, ?_⟩
  rw [readWord_of_ram hafter, writeWord_ram_eq, if_pos hram, Memory.readWord_writeWord _ _ _ hwf,
    show busAddr addr % 4 = addr.toNat % 4 by rw [busAddr_eq]; omega]
  rfl

/-- Settles O49: `State.ShowsRom.access`, the word read written out as its four bytes. -/
theorem romRange : Obligations.RomRange := by
  intro s addr v b first hp a hshows
  have hrom : s.ShowsRom a first := hshows
  have hfirst : first ≤ a / 4 * 4 := (hrom.aligned hp).first_le
  have hoff (j : Nat) : a / 4 * 4 - first + j = a / 4 * 4 + j - first := by omega
  have hacc := State.ShowsRom.access (addr := addr) hp (by rw [busAddr_eq]; exact hrom) v b
  rw [alignedAddr_eq, busAddr_eq, Memory.readWord, hoff, hoff, hoff] at hacc
  exact hacc

/-- Settles O50: `unmapped_access`, and `region_unmapped_iff` at the default parameters. -/
theorem unmappedAddresses : Obligations.UnmappedAddresses := by
  constructor
  · intro s addr v b hp a hlow halt hram hdev hrom
    have hregion : s.region (busAddr addr) = .unmapped := by
      rw [busAddr_eq]
      exact region_unmapped_iff.mpr ⟨hlow, halt, hram, hdev, hrom⟩
    have hacc := unmapped_access hp hregion v b
    rwa [alignedAddr_eq] at hacc
  · intro s addr hsize hbase a
    have ha : a < 0x04000000 := Nat.mod_lt _ (by omega)
    rw [region_unmapped_iff, hsize, hbase]
    omega

/-! ### The IOC -/

/-- Settles O52: at each of the sixteen registers, and past them, the table of the statement is that of `Ioc.read`. -/
theorem iocReads : Obligations.IocReads := by
  intro s addr k low hp hk hlow haddr
  have hacc := ioc_access hp hk hlow haddr
  rcases Nat.lt_or_ge k 16 with hreg | hpast
  · interval_cases k <;> exact hacc
  · obtain ⟨n, rfl⟩ := Nat.exists_eq_add_of_le' hpast
    exact hacc

/-- Settles O53: at each of the sixteen registers, and past them, the table of the statement is that of `Ioc.write`. -/
theorem iocWrites : Obligations.IocWrites := by
  intro s addr v b k low hp hk hlow haddr
  have hacc := ioc_store hp v b hk hlow haddr
  rcases Nat.lt_or_ge k 16 with hreg | hpast
  · interval_cases k <;> exact hacc
  · obtain ⟨n, rfl⟩ := Nat.exists_eq_add_of_le' hpast
    exact hacc

/-! ### The VIDC port -/

/-- The 278 registers of the port (R292). -/
theorem vidc_of_lt (r : Store 32) {k : Nat} (h : k < 278) (v : Word) :
    vidcRead r k = some (r.read k) ∧ vidcWrite r k v = some (r.write k (v &&& vidcMask k)) :=
  ⟨if_pos h, if_pos h⟩

/-- There is no register past them. -/
theorem vidc_of_ge (r : Store 32) {k : Nat} (h : 278 ≤ k) (v : Word) : vidcRead r k = none ∧ vidcWrite r k v = none :=
  ⟨if_neg (Nat.not_lt.mpr h), if_neg (Nat.not_lt.mpr h)⟩

/-- What a register keeps of a word (R292, R293). -/
theorem and_vidcMask (v : Word) (k : Nat) : v &&& vidcMask k = if k < 260 then v &&& 0x1FFF#32 else v := by
  unfold vidcMask
  split
  · rfl
  · exact BitVec.and_allOnes

/-- Every register keeps all of a byte (R292, R293). -/
theorem byte_and_vidcMask (b : Byte) (k : Nat) : (0#24 ++ b) &&& vidcMask k = 0#24 ++ b := by
  rw [and_vidcMask, ite_eq_right_iff]
  intro _
  apply BitVec.eq_of_toNat_eq
  have hb := b.isLt
  rw [BitVec.toNat_and, ← byte_zero_extended, BitVec.toNat_setWidth]
  exact (Nat.and_two_pow_sub_one_eq_mod _ 13).trans (by omega)

/-- The port after one register took a value: that register reads as it, and every other as before. -/
theorem vidc_port_after {s : State} (h : s.Inv) {k : Nat} (hk : k < 278) (x : Word) (flag : Bool) :
    let t : State := { s with vidc := s.vidc.write k x, isBootMode := flag }
    t.readWord (BitVec.ofNat 32 (0x03400000 + 4 * k)) = x ∧
    ∀ j, j < 278 → j ≠ k →
      t.readWord (BitVec.ofNat 32 (0x03400000 + 4 * j)) = s.readWord (BitVec.ofNat 32 (0x03400000 + 4 * j)) := by
  intro t
  have hwf : Store.wf s.vidc = true := by
    have hv := h.vidc
    simp only [vidcWf, Bool.and_eq_true] at hv
    exact hv.1.1
  constructor
  · rw [vidc_register t h.params hk]
    exact Store.read_write_same _ _ _ hwf
  · intro j hj hne
    rw [vidc_register t h.params hj, vidc_register s h.params hj]
    exact Store.read_write_other _ _ hne

/-- Settles O57: `vidc_access` and `vidc_store` on either side of the last register, and `vidc_port_after` for the
registers after a store. -/
theorem paletteWrites : Obligations.PaletteWrites := by
  intro s addr v b k low hinv hk hlow haddr port boot
  have hread := vidc_access hinv.params hk hlow haddr
  obtain ⟨hword, hbyte⟩ := vidc_store hinv.params v b hk hlow haddr
  constructor
  · intro hreg
    rw [(vidc_of_lt _ hreg 0).1] at hread
    rw [(vidc_of_lt _ hreg _).2, and_vidcMask] at hword
    rw [(vidc_of_lt _ hreg _).2, byte_and_vidcMask] at hbyte
    refine ⟨?_, ?_⟩
    · simp only [List.mem_cons, List.not_mem_nil, or_false, Prod.mk.injEq]
      rintro t x flag (⟨rfl, rfl, rfl⟩ | ⟨rfl, rfl, rfl⟩)
      · rw [hword]
        exact and_assoc.mp ⟨vidc_port_after hinv hreg _ _, rfl⟩
      · rw [hbyte]
        exact and_assoc.mp ⟨vidc_port_after hinv hreg _ _, rfl⟩
    · rw [show port s k = s.vidc.read k from vidc_register s hinv.params hreg]
      exact hread
  · intro hpast
    rw [(vidc_of_ge _ hpast 0).1] at hread
    rw [(vidc_of_ge _ hpast _).2] at hword hbyte
    obtain ⟨hval, hdiags, hval', hdiags'⟩ := hread
    exact ⟨hval, hdiags, hval', hdiags', hword, hbyte⟩

/-! ### What no step changes -/

/-- ROM and the parameters are in `t` what they are in `s`, and boot mode has not begun (R72, R79). -/
def State.LaunchKept (s t : State) : Prop :=
  t.rom = s.rom ∧ t.params = s.params ∧ (s.isBootMode = false → t.isBootMode = false)

theorem State.SameBus.launchKept {s t : State} (h : s.SameBus t) : s.LaunchKept t := by
  obtain ⟨-, hrom, -, -, hboot, hparams⟩ := h
  exact ⟨hrom, hparams, hboot.trans⟩

theorem State.LaunchKept.trans {s t u : State} (h : s.LaunchKept t) (k : t.LaunchKept u) : s.LaunchKept u := by
  obtain ⟨hrom, hparams, hboot⟩ := h
  obtain ⟨krom, kparams, kboot⟩ := k
  exact ⟨krom.trans hrom, kparams.trans hparams, kboot ∘ hboot⟩

/-- A word store changes neither ROM nor a parameter, and can only end boot mode. -/
theorem writeWord_launchKept (s : State) (addr v : Word) : s.LaunchKept (s.writeWord addr v) :=
  ⟨rfl, rfl, fun hb => by rw [writeWord_boot, hb, Bool.false_and]⟩

/-- A byte store does not even end boot mode. -/
theorem writeByte_launchKept (s : State) (addr : Word) (b : Byte) : s.LaunchKept (s.writeByte addr b) :=
  ⟨rfl, rfl, id⟩

theorem launchKept_keptByUpdates (s : State) : KeptByUpdates s.LaunchKept where
  reg _ _ _ h := h
  user _ _ _ h := h
  flags _ _ _ _ _ h := h
  restore t h := h.trans (restoreCpsr_sameBus t).launchKept
  emit _ _ h := h
  word t addr v h := h.trans (writeWord_launchKept t addr v)
  byte t addr b h := h.trans (writeByte_launchKept t addr b)

/-- SWI is an exception entry, every other instruction a sequence of updates. -/
theorem effect_launchKept (i : Instr) (s : State) : s.LaunchKept (effect i s) := by
  rcases swi_or i with ⟨c, n, rfl⟩ | hi
  · exact (raise_sameBus s _ _ _ _).launchKept
  · exact (launchKept_keptByUpdates s).effect i hi s ⟨rfl, rfl, id⟩

/-- Settles O45: an interrupt entry leaves the bus alone, and an instruction keeps what `effect_launchKept` says. -/
theorem romAndBootMode : Obligations.RomAndBootMode := by
  intro s t hs
  change s.LaunchKept t
  rcases step_next_cases hs with ⟨-, rfl⟩ | ⟨-, -, rfl⟩ | ⟨-, -, -, rfl⟩
  · exact (raise_sameBus s.started _ _ _ _).launchKept
  · exact (raise_sameBus s.started _ _ _ _).launchKept
  · have hadv : s.LaunchKept s.started.advance := ⟨rfl, rfl, id⟩
    split
    · exact hadv.trans (effect_launchKept _ _)
    · exact hadv

/-! ### The fetch -/

/-- Outside the devices the fetched word is the little-endian word of the four bytes at R15 (R69, R73). -/
theorem fetchWord_bytes {s : State} (h : s.Inv) (hioc : s.region s.pc.toNat ≠ .ioc) (hvidc : s.region s.pc.toNat ≠ .vidc) :
    s.fetchWord =
      wordOfBytes (s.readByte s.pc) (s.readByte (s.pc + 1#32)) (s.readByte (s.pc + 2#32)) (s.readByte (s.pc + 3#32)) := by
  have hmask : s.pc.toNat % 2 ^ 26 / 4 * 4 = s.pc.toNat := by rw [← and_pcMask_toNat, h.pc]
  have haddr : busAddr s.pc = s.pc.toNat := by rw [busAddr_eq]; omega
  have hword := readWord_bytes (s := s) (addr := s.pc) h.params (by omega) (haddr ▸ hioc) (haddr ▸ hvidc) 0 (by omega)
  rw [show s.pc + BitVec.ofNat 32 0 = s.pc from BitVec.add_zero _] at hword
  unfold State.fetchWord
  rw [h.pc, hword]
  exact ror32_zero _

/-- Settles O7: the four bytes are those of the fetched word, and the sentinel would decode to the excluded SWI. -/
theorem stepRunsBytesAtPc : Obligations.StepRunsBytesAtPc := by
  intro s i hinv hfiq hirq hioc hvidc hi hdecode
  rw [decode_four, ← fetchWord_bytes hinv hioc hvidc] at hdecode
  obtain rfl : decodeWord s.fetchWord = i := by cases hdecode; rfl
  have hsentinel : s.fetchWord ≠ Config.sentinel := fun e => hi (by rw [e]; rfl)
  have hfiq' : s.fiqPending = false := hfiq
  have hirq' : s.irqPending = false := hirq
  rw [step_eq, if_neg (by simp [hfiq']), if_neg (by simp [hirq']), if_neg hsentinel]
  rfl

end Sys2Proof.Machine

/-! The statements of spec/30_encoding.md on words and terms: the dispatch and its multiply row (R105), and the two round
trips between words and instructions (R105 to R114). -/

namespace Sys2Proof

/-! ### The instruction of each format -/

/-- The instruction of the multiply format with bit 21 = `a` (R107). -/
def multiplyOf (c : Cond) (a s : Bool) (rd rn rs rm : Reg) : Instr :=
  if a then .mla c s rd rn rs rm else .mul c s rd rn rs rm

/-- The instruction of the data-processing format with the given opcode (R130). -/
def dataProcessingOf (c : Cond) (opc : BitVec 4) (s : Bool) (rn rd : Reg) (op2 : Operand2) : Instr :=
  match opc.toNat with
  | 0 => .and c s rn rd op2
  | 1 => .eor c s rn rd op2
  | 2 => .sub c s rn rd op2
  | 3 => .rsb c s rn rd op2
  | 4 => .add c s rn rd op2
  | 5 => .adc c s rn rd op2
  | 6 => .sbc c s rn rd op2
  | 7 => .rsc c s rn rd op2
  | 8 => .tst c s rn rd op2
  | 9 => .teq c s rn rd op2
  | 10 => .cmp c s rn rd op2
  | 11 => .cmn c s rn rd op2
  | 12 => .orr c s rn rd op2
  | 13 => .mov c s rn rd op2
  | 14 => .bic c s rn rd op2
  | _ => .mvn c s rn rd op2

/-- The instruction of the single data transfer format with the bits B and L (R108). -/
def singleTransferOf (c : Cond) (byte load p u w : Bool) (rn rd : Reg) (off : Offset) : Instr :=
  match load, byte with
  | true, false => .ldr c p u w rn rd off
  | true, true => .ldrb c p u w rn rd off
  | false, false => .str c p u w rn rd off
  | false, true => .strb c p u w rn rd off

/-- The instruction of the block data transfer format with the bit L (R109). -/
def blockTransferOf (c : Cond) (load p u s w : Bool) (rn : Reg) (list : BitVec 16) : Instr :=
  if load then .ldm c p u s w rn list else .stm c p u s w rn list

theorem decodeMultiply_eq (c : Cond) (w : Word) : decodeMultiply c w =
    multiplyOf c (bit w 21) (bit w 20) (Reg.ofNum (field w 16 4)) (Reg.ofNum (field w 12 4)) (Reg.ofNum (field w 8 4))
      (Reg.ofNum (field w 0 4)) := rfl

theorem decodeDataProcessing_eq (c : Cond) (w : Word) : decodeDataProcessing c w =
    dataProcessingOf c (field w 21 4) (bit w 20) (Reg.ofNum (field w 16 4)) (Reg.ofNum (field w 12 4))
      (decodeOperand2 w) := rfl

theorem decodeSingleTransfer_eq (c : Cond) (w : Word) : decodeSingleTransfer c w =
    singleTransferOf c (bit w 22) (bit w 20) (bit w 24) (bit w 23) (bit w 21) (Reg.ofNum (field w 16 4))
      (Reg.ofNum (field w 12 4)) (decodeOffset w) := rfl

theorem decodeBlockTransfer_eq (c : Cond) (w : Word) : decodeBlockTransfer c w =
    blockTransferOf c (bit w 20) (bit w 24) (bit w 23) (bit w 22) (bit w 21) (Reg.ofNum (field w 16 4))
      (field w 0 16) := rfl

theorem encode_multiplyOf (c : Cond) (a s : Bool) (rd rn rs rm : Reg) :
    encode (multiplyOf c a s rd rn rs rm) = encodeMultiply c a s rd rn rs rm := by cases a <;> rfl

theorem encode_singleTransferOf (c : Cond) (byte load p u w : Bool) (rn rd : Reg) (off : Offset) :
    encode (singleTransferOf c byte load p u w rn rd off) = encodeSingleTransfer c byte load p u w rn rd off := by
  cases load <;> cases byte <;> rfl

theorem encode_blockTransferOf (c : Cond) (load p u s w : Bool) (rn : Reg) (list : BitVec 16) :
    encode (blockTransferOf c load p u s w rn list) = encodeBlockTransfer c load p u s w rn list := by
  cases load <;> rfl

theorem encode_dataProcessingOf (c : Cond) (opc : BitVec 4) (s : Bool) (rn rd : Reg) (op2 : Operand2) :
    encode (dataProcessingOf c opc s rn rd op2) = encodeDataProcessing c opc s rn rd op2 := by
  obtain ⟨n, hn⟩ := opc
  interval_cases n <;> rfl

/-- Only AND and EOR can be ill-formed, by holding the multiply row's pattern (R105, R142, R143). -/
theorem wellFormed_dataProcessingOf (c : Cond) (opc : BitVec 4) (s : Bool) (rn rd : Reg) (op2 : Operand2) :
    (dataProcessingOf c opc s rn rd op2).wellFormed = true ↔
      ¬((opc = 0#4 ∨ opc = 1#4) ∧ op2.hasMultiplyPattern = true) := by
  obtain ⟨n, hn⟩ := opc
  interval_cases n <;> simp [dataProcessingOf, Instr.wellFormed]

/-! ### Words as the fields they hold -/

/-- A field put back where it was read holds the word's bits there, and no others. -/
theorem bit_place_field (w : Word) (lo len i : Nat) (h : lo + len ≤ 32) (hi : i < 32) :
    bit (place lo (field w lo len)) i = (decide (lo ≤ i ∧ i < lo + len) && bit w i) := by
  rw [place_bits lo _ i hi h, field_getLsbD]
  by_cases hr : lo ≤ i ∧ i < lo + len
  · simp [hr, show i - lo < len by omega, show lo + (i - lo) = i by omega]
  · simp [hr]

/-- A bit put back where it was read. -/
theorem bit_placeBit_bit (w : Word) (j i : Nat) (hi : i < 32) :
    bit (placeBit j (bit w j)) i = (decide (i = j) && bit w i) := by
  rw [bit_placeBit _ _ _ hi]
  by_cases h : i = j
  · simp [h]
  · simp [h]

/-- A bit that is set lies outside a zero field. -/
theorem outside_of_field_eq_zero {w : Word} {lo len i : Nat} (h : field w lo len = 0#len) (hset : bit w i = true) :
    i < lo ∨ lo + len ≤ i := by
  by_contra hin
  have hclear := (field_eq_iff w lo len 0#len).mp h (i - lo) (by omega)
  rw [show lo + (i - lo) = i by omega, hset] at hclear
  simp at hclear

/-- A field inside a field. -/
theorem extractLsb'_field (w : Word) (lo len a n : Nat) (h : a + n ≤ len) :
    (field w lo len).extractLsb' a n = field w (lo + a) n := by
  ext i hi
  simp [field, show a + i < len by omega, Nat.add_assoc]

/-! ### Every word is the encoding of what it decodes to -/

/-- A word of the multiply format is the one its fields spell (R107). -/
theorem encode_decodeMultiply {w : Word} (hclass : field w 22 6 = 0b000000#6) (hpattern : field w 4 4 = 0b1001#4) :
    encode (decodeMultiply (Cond.ofBits (field w 28 4)) w) = w := by
  rw [decodeMultiply_eq, encode_multiplyOf, encodeMultiply, ← hpattern]
  refine bit_ext fun i hi => ?_
  simp only [bit_or, Cond.bits_ofBits, Reg.num_ofNum, bit_place_field, bit_placeBit_bit, hi, Nat.reduceAdd,
    Nat.reduceLeDiff, ← Bool.and_or_distrib_right, Bool.and_eq_right_iff_imp, Bool.or_eq_true, decide_eq_true_eq,
    and_true]
  intro hset
  have := outside_of_field_eq_zero hclass hset
  omega

/-- A word of the data-processing format is the one its fields spell (R106). -/
theorem encode_decodeDataProcessing_of_class {w : Word} (hclass : field w 26 2 = 0b00#2) :
    encode (decodeDataProcessing (Cond.ofBits (field w 28 4)) w) = w := by
  rw [encode_decodeDataProcessing, encodeDataProcessing]
  refine bit_ext fun i hi => ?_
  simp only [bit_or, Cond.bits_ofBits, Reg.num_ofNum, bit_place_field, bit_placeBit_bit, decodeOperand2_bits, hi,
    Nat.reduceAdd, Nat.reduceLeDiff, ← Bool.and_or_distrib_right, Bool.and_eq_right_iff_imp, Bool.or_eq_true,
    decide_eq_true_eq, and_true]
  intro hset
  have := outside_of_field_eq_zero hclass hset
  omega

/-- A word of the single data transfer format is the one its fields spell, but for the words of row 3a (R105, R108). -/
theorem encode_decodeSingleTransfer {w : Word} (hclass : field w 26 2 = 0b01#2)
    (himpl : ¬(bit w 25 = true ∧ bit w 4 = true)) :
    encode (decodeSingleTransfer (Cond.ofBits (field w 28 4)) w) = w := by
  rw [decodeSingleTransfer_eq, encode_singleTransferOf, encodeSingleTransfer, ← hclass]
  refine bit_ext fun i hi => ?_
  simp only [bit_or, Cond.bits_ofBits, Reg.num_ofNum, bit_place_field, bit_placeBit_bit, decodeOffset_bits w i hi himpl,
    hi, Nat.reduceAdd, Nat.reduceLeDiff, ← Bool.and_or_distrib_right, Bool.and_eq_right_iff_imp, Bool.or_eq_true,
    decide_eq_true_eq, and_true]
  omega

/-- A word of the block data transfer format is the one its fields spell (R109). -/
theorem encode_decodeBlockTransfer {w : Word} (hclass : field w 25 3 = 0b100#3) :
    encode (decodeBlockTransfer (Cond.ofBits (field w 28 4)) w) = w := by
  rw [decodeBlockTransfer_eq, encode_blockTransferOf, encodeBlockTransfer, ← hclass]
  refine bit_ext fun i hi => ?_
  simp only [bit_or, Cond.bits_ofBits, Reg.num_ofNum, bit_place_field, bit_placeBit_bit, hi, Nat.reduceAdd,
    Nat.reduceLeDiff, ← Bool.and_or_distrib_right, Bool.and_eq_right_iff_imp, Bool.or_eq_true, decide_eq_true_eq,
    and_true]
  omega

/-- A word with one field between its condition and its rest is the one these three spell (R110, R112, R113). -/
theorem or_three_fields (w : Word) (lo n : Nat) (h : lo + n = 28) :
    place 28 (field w 28 4) ||| place lo (field w lo n) ||| place 0 (field w 0 lo) = w := by
  refine bit_ext fun i hi => ?_
  rw [bit_or, bit_or, bit_place_field _ _ _ _ (by omega) hi, bit_place_field _ _ _ _ (by omega) hi,
    bit_place_field _ _ _ _ (by omega) hi, ← Bool.and_or_distrib_right, ← Bool.and_or_distrib_right,
    Bool.and_eq_right_iff_imp]
  simp only [Bool.or_eq_true, decide_eq_true_eq]
  omega

/-- A word of row 5 is the one its fields spell (R110). -/
theorem encode_decodeBranch {w : Word} (hclass : field w 25 3 = 0b101#3) :
    encode (decodeBranch (Cond.ofBits (field w 28 4)) w) = w := by
  have hbits := (field3_iff w 25 0b101#3).mp hclass
  unfold decodeBranch
  split
  case isTrue hlink =>
    have hop : field w 24 4 = 0b1011#4 := (field4_iff w 24 _).mpr ⟨hlink, hbits⟩
    rw [encode, Cond.bits_ofBits, ← hop]
    exact or_three_fields w 24 4 rfl
  case isFalse hlink =>
    have hop : field w 24 4 = 0b1010#4 := (field4_iff w 24 _).mpr ⟨Bool.eq_false_iff.mpr hlink, hbits⟩
    rw [encode, Cond.bits_ofBits, ← hop]
    exact or_three_fields w 24 4 rfl

/-- A word of row 3a is the one its fields spell (R243). -/
theorem encode_unimplSdtRegshift {w : Word} (hclass : field w 26 2 = 0b01#2) (h25 : bit w 25 = true)
    (h4 : bit w 4 = true) :
    encode (.unimplSdtRegshift (Cond.ofBits (field w 28 4)) (field w 5 20) (field w 0 4)) = w := by
  have hop : field w 25 3 = 0b011#3 := (field3_iff w 25 _).mpr ⟨h25, (field2_iff w 26 0b01#2).mp hclass⟩
  rw [encode, ← hop, ← h4]
  refine bit_ext fun i hi => ?_
  simp only [bit_or, Cond.bits_ofBits, bit_place_field, bit_placeBit_bit, hi, Nat.reduceAdd, Nat.reduceLeDiff,
    ← Bool.and_or_distrib_right, Bool.and_eq_right_iff_imp, Bool.or_eq_true, decide_eq_true_eq, and_true]
  omega

/-- Every word is in the class of some row, by its bits 27:24 (R105, R114). -/
theorem dispatch_covers (w : Word) : field w 26 2 = 0b00#2 ∨ field w 26 2 = 0b01#2 ∨ field w 25 3 = 0b100#3 ∨
    field w 25 3 = 0b101#3 ∨ field w 24 4 = 0b1111#4 ∨ field w 25 3 = 0b110#3 ∨ field w 24 4 = 0b1110#4 := by
  rw [← extractLsb'_field w 24 4 2 2 (by decide), ← extractLsb'_field w 24 4 1 3 (by decide)]
  generalize field w 24 4 = op
  revert op
  decide

/-- Encoding undoes decoding, row by row of the dispatch (R105). -/
theorem encode_decodeWord (w : Word) : encode (decodeWord w) = w := by
  unfold decodeWord
  split_ifs with hmul hdp himpl hsdt hblock hbranch hswi htransfer
  · exact encode_decodeMultiply hmul.1 hmul.2
  · exact encode_decodeDataProcessing_of_class hdp
  · obtain ⟨hclass, h25, h4⟩ := himpl
    exact encode_unimplSdtRegshift hclass h25 h4
  · exact encode_decodeSingleTransfer hsdt fun h => himpl ⟨hsdt, h⟩
  · exact encode_decodeBlockTransfer hblock
  · exact encode_decodeBranch hbranch
  · rw [encode, Cond.bits_ofBits, ← hswi]
    exact or_three_fields w 24 4 rfl
  · rw [encode, Cond.bits_ofBits, ← htransfer]
    exact or_three_fields w 25 3 rfl
  · have hop : field w 24 4 = 0b1110#4 := by simpa [*] using dispatch_covers w
    rw [encode, Cond.bits_ofBits, ← hop]
    exact or_three_fields w 24 4 rfl

/-! ### The multiply row -/

/-- Operand2 holds the multiply row's pattern exactly in a word with bit 25 clear and bits 7:4 = 1001 (R105, R106). -/
theorem hasMultiplyPattern_decodeOperand2 (w : Word) :
    (decodeOperand2 w).hasMultiplyPattern = true ↔ bit w 25 = false ∧ field w 4 4 = 0b1001#4 := by
  rw [field4_iff]
  have htype : (ShiftType.ofBits (field w 5 2) == .lsl) = (!bit w 5 && !bit w 6) := by
    rw [← field_getElem w 5 2 0 (by decide), ← field_getElem w 5 2 1 (by decide)]
    generalize field w 5 2 = t
    revert t
    decide
  unfold decodeOperand2
  split_ifs with h25 h4
  · simp [Operand2.hasMultiplyPattern, h25]
  · grind [Operand2.hasMultiplyPattern]
  · simp [Operand2.hasMultiplyPattern, h4]

/-- The multiply row takes the words whose data-processing reading would be an ill-formed AND or EOR (R105). -/
theorem multiplyRow_iff (w : Word) : (field w 22 6 = 0b000000#6 ∧ field w 4 4 = 0b1001#4) ↔
    field w 26 2 = 0b00#2 ∧ (field w 21 4 = 0#4 ∨ field w 21 4 = 1#4) ∧
      (decodeOperand2 w).hasMultiplyPattern = true := by
  rw [hasMultiplyPattern_decodeOperand2, isMultiply_iff]
  simp only [field2_iff, field4_iff, BitVec.reduceGetLsb, Nat.reduceAdd]
  grind

/-- What the dispatch reads is well-formed: the data-processing row comes after the multiply row (R105, R114). -/
theorem wellFormed_decodeWord (w : Word) : (decodeWord w).wellFormed = true := by
  unfold decodeWord
  split_ifs with hmul hdp himpl hsdt hblock hbranch hswi htransfer
  · rw [decodeMultiply_eq]
    cases bit w 21 <;> rfl
  · rw [decodeDataProcessing_eq, wellFormed_dataProcessingOf]
    exact fun h => hmul ((multiplyRow_iff w).mpr ⟨hdp, h⟩)
  · rfl
  · rw [decodeSingleTransfer_eq]
    cases bit w 20 <;> cases bit w 22 <;> rfl
  · rw [decodeBlockTransfer_eq]
    cases bit w 20 <;> rfl
  · rw [decodeBranch]
    split <;> rfl
  · rfl
  · rfl
  · rfl

/-! ### The rows of the transfers -/

/-- Row 3b takes the words with bits 27:26 = 01 that row 3a leaves (R105). -/
theorem decodeWord_of_singleTransfer {w : Word} (hclass : field w 26 2 = 0b01#2)
    (himpl : ¬(bit w 25 = true ∧ bit w 4 = true)) :
    decodeWord w = decodeSingleTransfer (Cond.ofBits (field w 28 4)) w := by
  obtain ⟨h26, h27⟩ := (field2_iff w 26 0b01#2).mp hclass
  rw [decodeWord_bits]
  simp [h26, h27, himpl]

/-- Row 4 takes the words with bits 27:25 = 100 (R105). -/
theorem decodeWord_of_blockTransfer {w : Word} (hclass : field w 25 3 = 0b100#3) :
    decodeWord w = decodeBlockTransfer (Cond.ofBits (field w 28 4)) w := by
  obtain ⟨h25, h26, h27⟩ := (field3_iff w 25 0b100#3).mp hclass
  rw [decodeWord_bits]
  simp [h25, h26, h27]

/-! ### The fields of an encoded word -/

/-- A bit reads as zero outside the place of a field. -/
theorem bit_place_off {n : Nat} (lo : Nat) (b : BitVec n) (i : Nat) (h : i < lo ∨ lo + n ≤ i) :
    bit (place lo b) i = false := by
  rw [bit_place]
  by_cases hlo : i < lo
  · simp [hlo]
  · rw [BitVec.getLsbD_of_ge b (i - lo) (by omega)]
    simp

/-- Operand2 has bits only in 11:0 and 25 (R106). -/
theorem field_operand2_off (o : Operand2) (lo len : Nat) (h : 12 ≤ lo ∧ lo + len ≤ 25 ∨ 26 ≤ lo) :
    field o.bits lo len = 0 := by
  cases o <;> simp (disch := omega) [Operand2.bits, field_place_off, field_placeBit_off]

theorem bit_operand2_off (o : Operand2) (i : Nat) (h : 12 ≤ i ∧ i < 25 ∨ 26 ≤ i) : bit o.bits i = false := by
  have hfield := (field_eq_iff o.bits i 1 0).mp (field_operand2_off o i 1 (by omega)) 0 (by decide)
  simpa using hfield

/-- The offset has bits only in 11:0 and 25 (R108). -/
theorem field_offset_off (o : Offset) (lo len : Nat) (h : 12 ≤ lo ∧ lo + len ≤ 25 ∨ 26 ≤ lo) :
    field o.bits lo len = 0 := by
  cases o <;> simp (disch := omega) [Offset.bits, field_place_off, field_placeBit_off]

theorem bit_offset_off (o : Offset) (i : Nat) (h : 12 ≤ i ∧ i < 25 ∨ 26 ≤ i) : bit o.bits i = false := by
  have hfield := (field_eq_iff o.bits i 1 0).mp (field_offset_off o i 1 (by omega)) 0 (by decide)
  simpa using hfield

/-- The operand of a data-processing word is read back (R106). -/
theorem decodeOperand2_encode (c : Cond) (opc : BitVec 4) (s : Bool) (rn rd : Reg) (op2 : Operand2) :
    decodeOperand2 (encodeDataProcessing c opc s rn rd op2) = op2 := by
  cases op2 <;>
    simp [decodeOperand2, encodeDataProcessing, Operand2.bits, field_place_same, field_place_off, field_placeBit_off,
      bit_placeBit, bit_place_off]

/-- The offset of a single data transfer word is read back (R108). -/
theorem decodeOffset_encode (c : Cond) (byte load p u w : Bool) (rn rd : Reg) (off : Offset) :
    decodeOffset (encodeSingleTransfer c byte load p u w rn rd off) = off := by
  cases off <;>
    simp [decodeOffset, encodeSingleTransfer, Offset.bits, field_place_same, field_place_off, field_placeBit_off,
      bit_placeBit, bit_place_off]

/-! ### Decoding an encoded word, format by format -/

/-- A word of the multiply format is a word of row 1 (R105, R107). -/
theorem multiplyRow_encode (c : Cond) (a s : Bool) (rd rn rs rm : Reg) :
    field (encodeMultiply c a s rd rn rs rm) 22 6 = 0b000000#6 ∧
      field (encodeMultiply c a s rd rn rs rm) 4 4 = 0b1001#4 := by
  simp [encodeMultiply, field_place_same, field_place_off, field_placeBit_off]

theorem decodeWord_encodeMultiply (c : Cond) (a s : Bool) (rd rn rs rm : Reg) :
    decodeWord (encodeMultiply c a s rd rn rs rm) = multiplyOf c a s rd rn rs rm := by
  rw [decodeWord, if_pos (multiplyRow_encode c a s rd rn rs rm), decodeMultiply_eq, Laws.CondField.multiply_cond]
  simp [encodeMultiply, field_place_same, field_place_off, field_placeBit_off, bit_placeBit, bit_place_off]

theorem dataProcessingClass_encode (c : Cond) (opc : BitVec 4) (s : Bool) (rn rd : Reg) (op2 : Operand2) :
    field (encodeDataProcessing c opc s rn rd op2) 26 2 = 0b00#2 := by
  simp [encodeDataProcessing, field_place_off, field_placeBit_off, field_operand2_off]

theorem opcode_encode (c : Cond) (opc : BitVec 4) (s : Bool) (rn rd : Reg) (op2 : Operand2) :
    field (encodeDataProcessing c opc s rn rd op2) 21 4 = opc := by
  simp [encodeDataProcessing, field_place_same, field_place_off, field_placeBit_off, field_operand2_off]

/-- The data-processing row reads back every term but the ill-formed ones (R105, R106). -/
theorem decodeWord_encodeDataProcessing (c : Cond) (opc : BitVec 4) (s : Bool) (rn rd : Reg) (op2 : Operand2)
    (h : (dataProcessingOf c opc s rn rd op2).wellFormed = true) :
    decodeWord (encodeDataProcessing c opc s rn rd op2) = dataProcessingOf c opc s rn rd op2 := by
  have hclass := dataProcessingClass_encode c opc s rn rd op2
  have hopc := opcode_encode c opc s rn rd op2
  have hmul : ¬(field (encodeDataProcessing c opc s rn rd op2) 22 6 = 0b000000#6 ∧
      field (encodeDataProcessing c opc s rn rd op2) 4 4 = 0b1001#4) := by
    rw [multiplyRow_iff, hopc, decodeOperand2_encode]
    exact fun hrow => (wellFormed_dataProcessingOf c opc s rn rd op2).mp h hrow.2
  rw [decodeWord, if_neg hmul, if_pos hclass, decodeDataProcessing_eq, Laws.CondField.dataProcessing_cond, hopc,
    decodeOperand2_encode]
  simp [encodeDataProcessing, field_place_same, field_place_off, field_placeBit_off, field_operand2_off, bit_placeBit,
    bit_place_off, bit_operand2_off]

theorem decodeWord_encodeSingleTransfer (c : Cond) (byte load p u w : Bool) (rn rd : Reg) (off : Offset) :
    decodeWord (encodeSingleTransfer c byte load p u w rn rd off) = singleTransferOf c byte load p u w rn rd off := by
  have hclass : field (encodeSingleTransfer c byte load p u w rn rd off) 26 2 = 0b01#2 := by
    simp [encodeSingleTransfer, field_place_same, field_place_off, field_placeBit_off, field_offset_off]
  have himpl : ¬(bit (encodeSingleTransfer c byte load p u w rn rd off) 25 = true ∧
      bit (encodeSingleTransfer c byte load p u w rn rd off) 4 = true) := by
    cases off <;> simp [encodeSingleTransfer, Offset.bits, bit_placeBit, bit_place_off]
  rw [decodeWord_of_singleTransfer hclass himpl, decodeSingleTransfer_eq, Laws.CondField.singleTransfer_cond,
    decodeOffset_encode]
  simp [encodeSingleTransfer, field_place_same, field_place_off, field_placeBit_off, field_offset_off, bit_placeBit,
    bit_place_off, bit_offset_off]

theorem decodeWord_encodeBlockTransfer (c : Cond) (load p u s w : Bool) (rn : Reg) (list : BitVec 16) :
    decodeWord (encodeBlockTransfer c load p u s w rn list) = blockTransferOf c load p u s w rn list := by
  have hclass : field (encodeBlockTransfer c load p u s w rn list) 25 3 = 0b100#3 := by
    simp [encodeBlockTransfer, field_place_same, field_place_off, field_placeBit_off]
  rw [decodeWord_of_blockTransfer hclass, decodeBlockTransfer_eq, Laws.CondField.blockTransfer_cond]
  simp [encodeBlockTransfer, field_place_same, field_place_off, field_placeBit_off, bit_placeBit, bit_place_off]

/-! ### Decoding an encoded word, one instruction per row -/

theorem decodeWord_encode_unimplSdtRegshift (c : Cond) (hi : BitVec 20) (lo : BitVec 4) :
    decodeWord (encode (.unimplSdtRegshift c hi lo)) = .unimplSdtRegshift c hi lo := by
  rw [decodeWord_bits, Laws.CondField.unimplSdtRegshift]
  simp [encode, Instr.cond, place_bits, bit_placeBit, field_place_same, field_place_off, field_placeBit_off]

theorem decodeWord_encode_b (c : Cond) (off24 : BitVec 24) : decodeWord (encode (.b c off24)) = .b c off24 := by
  rw [decodeWord_bits, Laws.CondField.b]
  simp [encode, Instr.cond, decodeBranch, place_bits, field_place_same, field_place_off]

theorem decodeWord_encode_bl (c : Cond) (off24 : BitVec 24) : decodeWord (encode (.bl c off24)) = .bl c off24 := by
  rw [decodeWord_bits, Laws.CondField.bl]
  simp [encode, Instr.cond, decodeBranch, place_bits, field_place_same, field_place_off]

theorem decodeWord_encode_swi (c : Cond) (comment : BitVec 24) :
    decodeWord (encode (.swi c comment)) = .swi c comment := by
  rw [decodeWord_bits, Laws.CondField.swi]
  simp [encode, Instr.cond, place_bits, field_place_same, field_place_off]

theorem decodeWord_encode_unimplCoprocTransfer (c : Cond) (rest : BitVec 25) :
    decodeWord (encode (.unimplCoprocTransfer c rest)) = .unimplCoprocTransfer c rest := by
  rw [decodeWord_bits, Laws.CondField.unimplCoprocTransfer]
  simp [encode, Instr.cond, place_bits, field_place_same, field_place_off]

theorem decodeWord_encode_unimplCoprocOp (c : Cond) (rest : BitVec 24) :
    decodeWord (encode (.unimplCoprocOp c rest)) = .unimplCoprocOp c rest := by
  rw [decodeWord_bits, Laws.CondField.unimplCoprocOp]
  simp [encode, Instr.cond, place_bits, field_place_same, field_place_off]

/-- Decoding undoes encoding on well-formed terms, format by format (R106 to R112). -/
theorem decodeWord_encode (i : Instr) (h : i.wellFormed = true) : decodeWord (encode i) = i := by
  cases i with
  | mul c s rd rn rs rm => exact decodeWord_encodeMultiply c false s rd rn rs rm
  | mla c s rd rn rs rm => exact decodeWord_encodeMultiply c true s rd rn rs rm
  | and c s rn rd op2 => exact decodeWord_encodeDataProcessing c 0 s rn rd op2 h
  | eor c s rn rd op2 => exact decodeWord_encodeDataProcessing c 1 s rn rd op2 h
  | sub c s rn rd op2 => exact decodeWord_encodeDataProcessing c 2 s rn rd op2 h
  | rsb c s rn rd op2 => exact decodeWord_encodeDataProcessing c 3 s rn rd op2 h
  | add c s rn rd op2 => exact decodeWord_encodeDataProcessing c 4 s rn rd op2 h
  | adc c s rn rd op2 => exact decodeWord_encodeDataProcessing c 5 s rn rd op2 h
  | sbc c s rn rd op2 => exact decodeWord_encodeDataProcessing c 6 s rn rd op2 h
  | rsc c s rn rd op2 => exact decodeWord_encodeDataProcessing c 7 s rn rd op2 h
  | tst c s rn rd op2 => exact decodeWord_encodeDataProcessing c 8 s rn rd op2 h
  | teq c s rn rd op2 => exact decodeWord_encodeDataProcessing c 9 s rn rd op2 h
  | cmp c s rn rd op2 => exact decodeWord_encodeDataProcessing c 10 s rn rd op2 h
  | cmn c s rn rd op2 => exact decodeWord_encodeDataProcessing c 11 s rn rd op2 h
  | orr c s rn rd op2 => exact decodeWord_encodeDataProcessing c 12 s rn rd op2 h
  | mov c s rn rd op2 => exact decodeWord_encodeDataProcessing c 13 s rn rd op2 h
  | bic c s rn rd op2 => exact decodeWord_encodeDataProcessing c 14 s rn rd op2 h
  | mvn c s rn rd op2 => exact decodeWord_encodeDataProcessing c 15 s rn rd op2 h
  | unimplSdtRegshift c hi lo => exact decodeWord_encode_unimplSdtRegshift c hi lo
  | ldr c p u w rn rd off => exact decodeWord_encodeSingleTransfer c false true p u w rn rd off
  | ldrb c p u w rn rd off => exact decodeWord_encodeSingleTransfer c true true p u w rn rd off
  | str c p u w rn rd off => exact decodeWord_encodeSingleTransfer c false false p u w rn rd off
  | strb c p u w rn rd off => exact decodeWord_encodeSingleTransfer c true false p u w rn rd off
  | ldm c p u s w rn list => exact decodeWord_encodeBlockTransfer c true p u s w rn list
  | stm c p u s w rn list => exact decodeWord_encodeBlockTransfer c false p u s w rn list
  | b c off24 => exact decodeWord_encode_b c off24
  | bl c off24 => exact decodeWord_encode_bl c off24
  | swi c comment => exact decodeWord_encode_swi c comment
  | unimplCoprocTransfer c rest => exact decodeWord_encode_unimplCoprocTransfer c rest
  | unimplCoprocOp c rest => exact decodeWord_encode_unimplCoprocOp c rest

/-- Settles O1: the bytes of a word decode to its instruction, and `decodeWord_encode` is the round trip of words. -/
theorem decodeOfEncode : Obligations.DecodeOfEncode := fun i h => by
  rw [decode_bytesOfWord, decodeWord_encode i h]

/-- Settles O2: both parts go along the rows of the dispatch. -/
theorem encodeOfDecode : Obligations.EncodeOfDecode := fun w => ⟨wellFormed_decodeWord w, encode_decodeWord w⟩

/-! ### The words of the first two rows -/

/-- The words of MUL and MLA: a word is the encoding of what it decodes to, and row 1 reads bit 21 (R105, R107). -/
theorem decodeWord_eq_multiplyOf_iff (w : Word) (a : Bool) :
    (∃ c s rd rn rs rm, decodeWord w = multiplyOf c a s rd rn rs rm) ↔
      field w 22 6 = 0#6 ∧ field w 4 4 = 0b1001#4 ∧ bit w 21 = a := by
  constructor
  · rintro ⟨c, s, rd, rn, rs, rm, hw⟩
    have hword : w = encodeMultiply c a s rd rn rs rm := by rw [← encode_multiplyOf, ← hw, encode_decodeWord]
    obtain ⟨hclass, hpattern⟩ := multiplyRow_encode c a s rd rn rs rm
    rw [hword]
    exact ⟨hclass, hpattern, by simp [encodeMultiply, bit_placeBit, bit_place_off]⟩
  · rintro ⟨hclass, hpattern, rfl⟩
    rw [decodeWord, if_pos ⟨hclass, hpattern⟩, decodeMultiply_eq]
    exact ⟨_, _, _, _, _, _, rfl⟩

/-- The words of each data-processing opcode: all with bits 27:26 = 00 and that opcode, but for the multiply words of
opcodes 0 and 1 (R105, R130). -/
theorem decodeWord_eq_dataProcessingOf_iff (w : Word) (opc : BitVec 4) :
    (∃ c s rn rd op2, decodeWord w = dataProcessingOf c opc s rn rd op2) ↔
      field w 26 2 = 0#2 ∧ field w 21 4 = opc ∧
        ¬((opc = 0#4 ∨ opc = 1#4) ∧ bit w 25 = false ∧ field w 4 4 = 0b1001#4) := by
  rw [← hasMultiplyPattern_decodeOperand2]
  constructor
  · rintro ⟨c, s, rn, rd, op2, hw⟩
    have hword : w = encodeDataProcessing c opc s rn rd op2 := by
      rw [← encode_dataProcessingOf, ← hw, encode_decodeWord]
    have hwf := hw ▸ wellFormed_decodeWord w
    rw [hword, decodeOperand2_encode]
    exact ⟨dataProcessingClass_encode .., opcode_encode .., (wellFormed_dataProcessingOf ..).mp hwf⟩
  · rintro ⟨hclass, rfl, hmul⟩
    rw [decodeWord, if_neg fun h => hmul ((multiplyRow_iff w).mp h).2, if_pos hclass, decodeDataProcessing_eq]
    exact ⟨_, _, _, _, _, rfl⟩

/-- Settles O4: the words of bit 21 clear and set, and those of opcodes 0 and 1. -/
theorem multiplyTestedFirst : Obligations.MultiplyTestedFirst := by
  intro w
  have hand := decodeWord_eq_dataProcessingOf_iff w 0#4
  have heor := decodeWord_eq_dataProcessingOf_iff w 1#4
  simp only [true_or, or_true, true_and] at hand heor
  exact ⟨decodeWord_eq_multiplyOf_iff w false, decodeWord_eq_multiplyOf_iff w true, hand, heor⟩

end Sys2Proof

/-! The statements of spec/30_encoding.md on the step: the fetched instruction and its condition (R100 to R104). -/

namespace Sys2Proof.Machine

/-! ### The step without an interrupt -/

/-- With no interrupt taken and no sentinel fetched, a step runs the fetched word after the advance (R100 to R102). -/
theorem step_of_fetched {s : State} (hfiq : s.fiqPending = false) (hirq : s.irqPending = false)
    (hw : s.fetchWord ≠ Config.sentinel) : step s = exec (decodeWord s.fetchWord) s.started.advance := by
  rw [step_eq, if_neg (by simp [hfiq]), if_neg (by simp [hirq]), if_neg hw]

/-- The start of a step and the advance write R15 and the diagnostic list alone (R102). -/
theorem started_advance_kept (s : State) :
    s.RegsKeptBut s.started.advance [.r15] ∧ s.SpsrsKept s.started.advance ∧ s.SameBus s.started.advance :=
  ⟨fun _ hp => RegFile.get_set_other _ _ (by simpa using hp), started_advance_spsrsKept s,
    (started_sameBus s).trans (setPhys_sameBus _ _ _)⟩

/-- Settles O6: the bytes of the fetched word decode to its instruction. -/
theorem stepRunsDecodedInstruction : Obligations.StepRunsDecodedInstruction := by
  intro s i hfiq hirq hw hdecode
  rw [decode_bytesOfWord] at hdecode
  obtain rfl : decodeWord s.fetchWord = i := by cases hdecode; rfl
  exact step_of_fetched hfiq hirq hw

/-- Settles O9: the condition of the decoded word is its field 31:28, and an instruction that fails it leaves the advanced
state as it is. -/
theorem failedConditionOnlyAdvances : Obligations.FailedConditionOnlyAdvances := by
  rintro s _ hfiq hirq rfl hw hcond
  have hfail : condPassed (decodeWord s.fetchWord).cond s.started.advance.cpsr = false := by
    rw [decode_cond]
    exact hcond
  obtain ⟨hregs, hspsrs, hbus⟩ := started_advance_kept s
  refine ⟨s.started.advance, ?_, rfl, hregs, rfl, hspsrs, hbus.memoryKept, hbus.devicesKept, rfl⟩
  rw [step_of_fetched hfiq hirq hw, exec_fail hfail]

/-! ### The conditions -/

/-- Settles O10: a condition on one flag reads it or its negation, one on several combines such tests. -/
theorem conditionTable : Obligations.ConditionTable := by
  intro p
  have hnot : ∀ {b : Bool}, (!b) = true ↔ b = false := by simp
  refine ⟨Iff.rfl, hnot, Iff.rfl, hnot, Iff.rfl, hnot, Iff.rfl, hnot, ?hi, ?ls, beq_iff_eq, bne_iff_ne, ?gt, ?le,
    rfl, rfl⟩
  case hi => simp [condPassed]
  case ls => simp [condPassed]
  case gt => simp [condPassed]
  case le => simp [condPassed]

end Sys2Proof.Machine

/-! The statements of spec/40_data_processing.md: Operand2 (R131 to R136) and the data-processing instructions (R137 to
R157). -/

namespace Sys2Proof.Machine

/-! ### The shifter forms of Operand2 -/

theorem operand2_imm (s : State) (rot4 : BitVec 4) (imm8 : BitVec 8) :
    s.operand2 (.imm rot4 imm8) = rotatedImmediate rot4 imm8 s.cpsr.c := rfl

theorem operand2_shiftImm (s : State) (shamt5 : BitVec 5) (type : ShiftType) (rm : Reg) :
    s.operand2 (.shiftImm shamt5 type rm) = shiftImmediate type (s.readReg rm) shamt5.toNat s.cpsr.c := rfl

/-- The amount of a register shift is the value of Rs modulo 256, and bit 7 is not read (R133). -/
theorem operand2_shiftReg (s : State) (rs : Reg) (bit7 : Bool) (type : ShiftType) (rm : Reg) :
    s.operand2 (.shiftReg rs bit7 type rm) =
      shiftRegister type (s.readReg rm) ((s.readReg rs).toNat % 256) s.cpsr.c := by
  have hbyte : ((s.readReg rs).extractLsb' 0 8).toNat = (s.readReg rs).toNat % 256 := BitVec.extractLsb'_toNat _ _ _
  rw [← hbyte]
  rfl

/-- An amount field other than 0 is an ordinary shift (R132, R134). -/
theorem shiftImmediate_of_ne_zero (type : ShiftType) (v : Word) {n : Nat} (cin : Bool) (h : n ≠ 0) :
    shiftImmediate type v n cin = shiftBy type v n := if_neg h

theorem shiftRegister_zero (type : ShiftType) (v : Word) (cin : Bool) : shiftRegister type v 0 cin = (v, cin) := rfl

/-- Register amounts 1 to 31 are ordinary shifts (R134). -/
theorem shiftRegister_of_lt (type : ShiftType) (v : Word) {n : Nat} (cin : Bool) (h0 : 0 < n) (h : n < 32) :
    shiftRegister type v n cin = shiftBy type v n := by
  rw [shiftRegister, if_neg (by omega), if_pos (by omega)]

/-- Register amounts from 32 on are the far shifts (R135). -/
theorem shiftRegister_of_ge (type : ShiftType) (v : Word) {n : Nat} (cin : Bool) (h : 32 ≤ n) :
    shiftRegister type v n cin = shiftFar type v n := by
  rw [shiftRegister, if_neg (by omega), if_neg (by omega)]

/-- The last bit shifted out is bit 0 for LSL by 32 and bit 31 for LSR by 32 (R135). -/
theorem shiftFar_32 (v : Word) :
    shiftFar .lsl v 32 = (0#32, v.getLsbD 0) ∧ shiftFar .lsr v 32 = (0#32, v.getLsbD 31) := by
  rw [← msb_bit31]
  exact ⟨rfl, rfl⟩

/-- LSL and LSR by more than 32 leave nothing (R135). -/
theorem shiftFar_of_gt (v : Word) {n : Nat} (h : 32 < n) :
    shiftFar .lsl v n = (0#32, false) ∧ shiftFar .lsr v n = (0#32, false) := by
  simp only [shiftFar, if_neg (show n ≠ 32 by omega)]
  exact ⟨rfl, rfl⟩

/-- ASR by 32 or more leaves the sign alone (R135). -/
theorem shiftFar_asr (v : Word) (n : Nat) :
    shiftFar .asr v n = (if v.getLsbD 31 then 0xFFFFFFFF#32 else 0#32, v.getLsbD 31) := by
  rw [shiftFar, signFill_eq, msb_bit31]

/-- ROR by a multiple of 32 keeps the value (R135). -/
theorem shiftFar_ror_of_dvd (v : Word) {n : Nat} (h : n % 32 = 0) : shiftFar .ror v n = (v, v.getLsbD 31) := by
  rw [shiftFar, if_pos h, msb_bit31]

/-- ROR by any other amount rotates by the remainder modulo 32 (R135). -/
theorem shiftFar_ror_of_not_dvd (v : Word) {n : Nat} (h : n % 32 ≠ 0) :
    shiftFar .ror v n = shiftBy .ror v (n % 32) := if_neg h

/-- Settles O13: rotation by 0 is the identity, and any other rotation is two shifts. -/
theorem rotatedImmediate_value_carry : Obligations.RotatedImmediate := by
  intro s rot4 imm8
  rw [operand2_imm, rotatedImmediate]
  split
  · next h =>
    subst h
    exact congrArg (·, s.cpsr.c) (ror32_zero _)
  · next h =>
    have hpos : 0 < rot4.toNat := Nat.pos_of_ne_zero fun h0 => h (BitVec.eq_of_toNat_eq h0)
    have hlt := rot4.isLt
    rw [ror32_eq_shifts _ _ (by omega) (by omega), msb_bit31]

/-- Settles O14: amount 0 has a form per type, and every other amount is an ordinary shift. -/
theorem shiftByImmediate : Obligations.ShiftByImmediate := by
  intro s shamt5 rm
  have hlt := shamt5.isLt
  simp only [operand2_shiftImm]
  refine ⟨fun h0 => ?_, fun h => ?_⟩
  · rw [h0, ← signFill_eq, ← msb_bit31]
    exact ⟨rfl, rfl, rfl, rrx_toNat _ _, rfl⟩
  · simp only [shiftImmediate_of_ne_zero _ _ _ h]
    exact shift_toNat _ _ (by omega) hlt

/-- Settles O15: the amount is 0, that of an ordinary shift, or that of a far shift. -/
theorem shiftByRegister : Obligations.ShiftByRegister := by
  intro s rs rm bit7
  simp only [operand2_shiftReg]
  generalize (s.readReg rs).toNat % 256 = n
  refine ⟨?zero, ?near, ?at32, ?over32, ?sign, ?multiple, ?rotation⟩
  case zero =>
    rintro rfl
    simp only [shiftRegister_zero, and_self]
  case near =>
    intro h0 h
    simp only [shiftRegister_of_lt _ _ _ h0 h]
    exact shift_toNat _ n h0 h
  case at32 =>
    rintro rfl
    simp only [shiftRegister_of_ge _ _ _ le_rfl]
    obtain ⟨hlsl, hlsr⟩ := shiftFar_32 (s.readReg rm)
    exact ⟨hlsl, hlsr, shiftFar_ror_of_dvd _ rfl⟩
  case over32 =>
    intro h
    simp only [shiftRegister_of_ge _ _ _ h.le]
    exact shiftFar_of_gt _ h
  case sign =>
    intro h
    rw [shiftRegister_of_ge _ _ _ h, shiftFar_asr]
  case multiple =>
    intro h hdvd
    rw [shiftRegister_of_ge _ _ _ h.le, shiftFar_ror_of_dvd _ hdvd]
  case rotation =>
    intro h hdvd
    rw [shiftRegister_of_ge _ _ _ h.le, shiftFar_ror_of_not_dvd _ hdvd]
    obtain ⟨-, -, -, hror⟩ := shift_toNat (s.readReg rm) (n % 32) (by omega) (by omega)
    exact hror

/-! ### The flags -/

/-- The logical kind: C is the shifter carry-out and V stays (R138). -/
theorem setFlags_logical (p : Psr) (r : Word) (sc : Bool) :
    p.setFlags (.logical r) sc = { p with n := r.getLsbD 31, z := decide (r = 0), c := sc } := by
  rw [← msb_bit31, ← beq_zero]
  rfl

/-- The arithmetic kind: C and V are the adder's (R139). -/
theorem setFlags_arithmetic (p : Psr) (r : Word) (carry overflow sc : Bool) :
    p.setFlags (.arithmetic r carry overflow) sc =
      { p with n := r.getLsbD 31, z := decide (r = 0), c := carry, v := overflow } := by
  rw [← msb_bit31, ← beq_zero]
  rfl

/-! ### The arithmetic kind as exact sums and differences -/

theorem aluAdd_eq (a b : Word) (cin : Bool) : aluAdd a b cin =
    .arithmetic (a + b) (decide (2 ^ 32 ≤ a.toNat + b.toNat)) (decide ((a + b).toInt ≠ a.toInt + b.toInt)) := by
  simpa [aluAdd] using ofAdder_eq a b false

theorem aluSub_eq (a b : Word) (cin : Bool) : aluSub a b cin =
    .arithmetic (a - b) (decide (b.toNat ≤ a.toNat)) (decide ((a - b).toInt ≠ a.toInt - b.toInt)) := by
  simpa [aluSub] using ofAdder_sub a b true

/-- The flags of a subtraction: Z says that the operands are equal (R139). -/
theorem setFlags_aluSub (p : Psr) (a b : Word) (cin sc : Bool) : p.setFlags (aluSub a b cin) sc =
    { p with
      n := (a - b).getLsbD 31
      z := decide (a = b)
      c := decide (b.toNat ≤ a.toNat)
      v := decide ((a - b).toInt ≠ a.toInt - b.toInt) } := by
  have hz : a - b = 0 ↔ a = b := sub_eq_zero
  rw [aluSub_eq, setFlags_arithmetic]
  simp only [hz]

/-! ### Executing a data-processing instruction -/

section
variable {i : Instr} {c : Cond} {alu : Word → Word → Bool → AluOut} {f : Bool} {rn rd : Reg} {op2 : Operand2} {s : State}

/-- What an instruction that runs the common algorithm and writes Rd leaves when its condition passes, by the result and
the flags of its arithmetic unit (R130, R140). -/
theorem exec_writes {r : Word} {flagged : Psr} (hc : condPassed c s.cpsr = true)
    (hexec : exec i s = conditional c s (dataProcessing alu false f rn rd op2))
    (hr : (alu (s.readReg rn) (s.operand2 op2).1 s.cpsr.c).result = r)
    (hflags : s.cpsr.setFlags (alu (s.readReg rn) (s.operand2 op2).1 s.cpsr.c) (s.operand2 op2).2 = flagged) :
    ∃ t, exec i s = .next t ∧ s.OnlyRegs t [phys s.cpsr.mode rd] ∧
      t.regs.get (phys s.cpsr.mode rd) = (phys s.cpsr.mode rd).held r ∧ t.cpsr = s.cpsrAfter rd f flagged := by
  subst hr hflags
  exact ⟨_, hexec.trans (conditional_pass _ hc), dataProcessing_writes alu f rn rd op2 s⟩

/-- The same for TST, TEQ, CMP and CMN (R130, R140). -/
theorem exec_tests {flagged : Psr} (hc : condPassed c s.cpsr = true)
    (hexec : exec i s = conditional c s (dataProcessing alu true f rn rd op2))
    (hflags : s.cpsr.setFlags (alu (s.readReg rn) (s.operand2 op2).1 s.cpsr.c) (s.operand2 op2).2 = flagged) :
    ∃ t, exec i s = .next t ∧ s.OnlyRegs t [] ∧ t.cpsr = s.cpsrAfterTest rd f flagged := by
  subst hflags
  exact ⟨_, hexec.trans (conditional_pass _ hc), dataProcessing_tests alu f rn rd op2 s⟩

end

/-- Settles O16: each row of the list runs the common algorithm with a logical unit that answers the row's result. -/
theorem logicalInstructions : Obligations.LogicalInstructions := by
  intro c f rn rd op2 s hc a b pd flags i r hrow
  have hunit : ∃ alu, exec i s = conditional c s (dataProcessing alu false f rn rd op2) ∧
      alu a b s.cpsr.c = .logical r := by
    simp only [List.mem_cons, Prod.mk.injEq, List.not_mem_nil, or_false] at hrow
    obtain ⟨rfl, rfl⟩ | ⟨rfl, rfl⟩ | ⟨rfl, rfl⟩ | ⟨rfl, rfl⟩ | ⟨rfl, rfl⟩ | ⟨rfl, rfl⟩ := hrow
    exacts [⟨aluAnd, rfl, rfl⟩, ⟨aluEor, rfl, rfl⟩, ⟨aluOrr, rfl, rfl⟩, ⟨aluMov, rfl, rfl⟩, ⟨aluBic, rfl, rfl⟩,
      ⟨aluMvn, rfl, rfl⟩]
  obtain ⟨alu, hexec, halu⟩ := hunit
  exact exec_writes hc hexec (by rw [halu]; rfl) (by rw [halu, setFlags_logical])

/-- Settles O17: TST and TEQ run the common algorithm with the units of AND and EOR. -/
theorem logicalTests : Obligations.LogicalTests := fun _ _ _ _ _ _ hc =>
  ⟨exec_tests hc rfl (setFlags_logical _ _ _), exec_tests hc rfl (setFlags_logical _ _ _)⟩

/-- Settles O18: ADD and CMN run the common algorithm with one unit, whose answer is `aluAdd_eq`. -/
theorem addAndCmn : Obligations.AddAndCmn := by
  intro c f rn rd op2 s hc a b pd flags
  have hflags : s.cpsr.setFlags (aluAdd a b s.cpsr.c) (s.operand2 op2).2 = flags := by
    rw [aluAdd_eq, setFlags_arithmetic]
  exact ⟨exec_writes hc rfl (by rw [aluAdd_eq]; rfl) hflags, exec_tests hc rfl hflags⟩

/-- Settles O19: SUB and CMP run the common algorithm with one unit, and RSB with the same one reversed. -/
theorem subtractions : Obligations.Subtractions := by
  intro c f rn rd op2 s hc a b pd flags
  have hflags (x y : Word) : s.cpsr.setFlags (aluSub x y s.cpsr.c) (s.operand2 op2).2 = flags x y :=
    setFlags_aluSub _ _ _ _ _
  have hresult (x y : Word) : (aluSub x y s.cpsr.c).result = x - y := by rw [aluSub_eq]; rfl
  exact ⟨exec_writes hc rfl (hresult a b) (hflags a b), exec_tests hc rfl (hflags a b),
    exec_writes (alu := aluRsb) hc rfl (hresult b a) (hflags b a)⟩

/-- Settles O20: each row of the list runs the common algorithm with the adder, and its result, carry and overflow are
those of `ofAdder_eq` and `ofAdder_sub`. -/
theorem carryArithmetic : Obligations.CarryArithmetic := by
  intro c f rn rd op2 s hc a b carry borrow pd flags i r cout exactResult hrow
  have hunit : ∃ alu, exec i s = conditional c s (dataProcessing alu false f rn rd op2) ∧
      alu a b s.cpsr.c = .arithmetic r cout (decide (r.toInt ≠ exactResult)) := by
    simp only [List.mem_cons, Prod.mk.injEq, List.not_mem_nil, or_false] at hrow
    obtain ⟨rfl, rfl, rfl, rfl⟩ | ⟨rfl, rfl, rfl, rfl⟩ | ⟨rfl, rfl, rfl, rfl⟩ := hrow
    exacts [⟨aluAdc, rfl, ofAdder_eq a b s.cpsr.c⟩, ⟨aluSbc, rfl, ofAdder_sub a b s.cpsr.c⟩,
      ⟨aluRsc, rfl, ofAdder_sub b a s.cpsr.c⟩]
  obtain ⟨alu, hexec, halu⟩ := hunit
  exact exec_writes hc hexec (by rw [halu]; rfl) (by rw [halu, setFlags_arithmetic])

/-! ### The words the spec writes out -/

/-- A word decodes to the well-formed term it encodes (R105). -/
theorem decodeWord_of_encode {w : Word} {i : Instr} (hw : i.wellFormed = true) (he : encode i = w) :
    decodeWord w = i := he ▸ decodeWord_encode i hw

/-- Settles O5: each word is the encoding of the instruction it is said to be. -/
theorem writtenWordsDecode : Obligations.WrittenWordsDecode := by
  refine ⟨?and, ?mla, ?ldr, ?ldm, ?b, ?swi, ?unimplemented⟩ <;> exact decodeWord_of_encode rfl (by decide)

end Sys2Proof.Machine

/-! The statement of spec/41_multiply.md: MUL and MLA (R180 to R182). -/

namespace Sys2Proof.Machine

/-- N and Z by the bits of the result (R180). -/
theorem setNZ_eq (p : Psr) (r : Word) : p.setNZ r = { p with n := r.getLsbD 31, z := decide (r = 0) } := by
  rw [← msb_bit31, ← beq_zero]
  rfl

/-- What an instruction that runs the multiply unit leaves when its condition passes, by the unit's result (R180). -/
theorem exec_multiplies {i : Instr} {c : Cond} {acc r : Word} {f : Bool} {rd rs rm : Reg} {s : State}
    (hc : condPassed c s.cpsr = true) (hexec : exec i s = conditional c s (multiply acc f rd rs rm))
    (hr : s.readReg rm * s.readReg rs + acc = r) :
    ∃ t, exec i s = .next t ∧ s.OnlyRegs t [phys s.cpsr.mode rd] ∧
      t.regs.get (phys s.cpsr.mode rd) = (phys s.cpsr.mode rd).held r ∧
      t.cpsr = if f then { s.cpsr with n := r.getLsbD 31, z := decide (r = 0) } else s.cpsr := by
  subst hr
  rw [← setNZ_eq]
  exact ⟨_, hexec.trans (conditional_pass _ hc), multiply_writes acc f rd rs rm s⟩

/-- Settles O21: MUL runs the multiply unit with accumulator 0, and MLA with Rn. -/
theorem multiplies : Obligations.Multiplies := fun _ _ _ _ _ _ _ hc =>
  ⟨exec_multiplies hc rfl (BitVec.add_zero _), exec_multiplies hc rfl rfl⟩

end Sys2Proof.Machine

/-! The statements of spec/42_single_data_transfer.md: the offset (R191), the loads (R192, R193) and the stores (R194,
R195), each with the base write-back (R190). -/

namespace Sys2Proof.Machine

/-! ### The offset -/

theorem transferOffset_imm (s : State) (imm12 : BitVec 12) : s.transferOffset (.imm imm12) = imm12.setWidth 32 := rfl

/-- A shifted-register offset is Operand2 without its carry-out (R191). -/
theorem transferOffset_reg (s : State) (shamt5 : BitVec 5) (type : ShiftType) (rm : Reg) :
    s.transferOffset (.reg shamt5 type rm) = (s.operand2 (.shiftImm shamt5 type rm)).1 := rfl

/-- Settles O60: the register form has the values of the same shift in Operand2, which `shiftByImmediate` gives. -/
theorem transferOffsets : Obligations.TransferOffsets := by
  refine ⟨fun s imm12 => ?imm, fun s shamt5 rm => ?reg⟩
  case imm => rw [transferOffset_imm, BitVec.toNat_setWidth_of_le (by decide)]
  case reg =>
    obtain ⟨hzero, hshift⟩ := shiftByImmediate s shamt5 rm
    simp only [transferOffset_reg]
    refine ⟨fun h0 => ?_, fun h => ?_⟩
    · obtain ⟨hlsl, hlsr, hasr, hror, -⟩ := hzero h0
      exact ⟨congrArg Prod.fst hlsl, congrArg Prod.fst hlsr, congrArg Prod.fst hasr, hror⟩
    · obtain ⟨⟨hlsl, -⟩, ⟨hlsr, -⟩, ⟨hasr, -⟩, ⟨hror, -⟩⟩ := hshift h
      exact ⟨hlsl, hlsr, hasr, hror⟩

/-! ### The loads -/

/-- Settles O22: LDR writes the word read to Rd, and `load_writeBack` says what that and the write-back leave. -/
theorem loadWordRegister : Obligations.LoadWordRegister := by
  intro c p u w rn rd off s hc base eff addr pd pn
  obtain ⟨_, rfl, hload⟩ := load_writeBack s p w rn rd eff (s.readWord addr) (s.readWordDiags addr)
  exact ⟨_, conditional_pass _ hc, hload⟩

/-- Settles O23: as LDR, with the byte zero-extended. -/
theorem loadByteRegister : Obligations.LoadByteRegister := by
  intro c p u w rn rd off s hc base eff addr pd pn
  obtain ⟨_, rfl, hload⟩ := load_writeBack s p w rn rd eff ((s.readByte addr).setWidth 32) (s.readByteDiags addr)
  rw [← byte_zero_extended]
  exact ⟨_, conditional_pass _ hc, hload⟩

/-! ### The stores -/

/-- The base write-back changes nothing that a read of the router depends on (R190). -/
theorem writeBack_sameBus (s : State) (p w : Bool) (rn : Reg) (eff : Word) : s.SameBus (s.writeBack p w rn eff) :=
  ⟨writeBack_ram .., writeBack_rom .., writeBack_ioc .., writeBack_vidc .., writeBack_isBootMode .., writeBack_params ..⟩

/-- The registers after a base write-back: without one all are kept, with one only the base changes (R190). -/
theorem writeBack_regs (s : State) (p w : Bool) (rn : Reg) (eff : Word) :
    (p = true ∧ w = false → s.RegsKeptBut (s.writeBack p w rn eff) []) ∧
    (p = false ∨ w = true → s.RegsKeptBut (s.writeBack p w rn eff) [phys s.cpsr.mode rn] ∧
      (s.writeBack p w rn eff).regs.get (phys s.cpsr.mode rn) = (phys s.cpsr.mode rn).held eff) := by
  refine ⟨?kept, fun h => ?written⟩
  case kept =>
    rintro ⟨rfl, rfl⟩ q -
    rfl
  case written =>
    rw [writeBack_eq, if_pos h, writeReg_regs]
    exact ⟨fun q hq => RegFile.get_set_other _ _ (by simpa using hq), RegFile.get_set_same _ _ _⟩

/-- What a store leaves when its condition passes: everything but the base register is as in the state `stored`, which the
router's write answers, and that has the registers and status of the state before (R190, R194, R195). -/
theorem exec_stores {i : Instr} {c : Cond} {store : Word → State → State} {p u w : Bool} {rn : Reg} {off : Offset}
    {s stored : State} (hc : condPassed c s.cpsr = true)
    (hexec : exec i s = conditional c s (singleTransfer store p u w rn off))
    (hstored : store (s.transferAddr p u rn off) s = stored) (hregs : stored.regs = s.regs)
    (hcpsr : stored.cpsr = s.cpsr) :
    ∃ t, exec i s = .next t ∧
      (p = true ∧ w = false → s.RegsKeptBut t []) ∧
      (p = false ∨ w = true → s.RegsKeptBut t [phys s.cpsr.mode rn] ∧
        t.regs.get (phys s.cpsr.mode rn) = (phys s.cpsr.mode rn).held (s.effective u rn off)) ∧
      t.cpsr = s.cpsr ∧ stored.SpsrsKept t ∧ stored.SameBus t ∧ t.diags = stored.diags := by
  have hbase := writeBack_regs stored p w rn (s.effective u rn off)
  unfold State.RegsKeptBut at hbase ⊢
  rw [hregs, hcpsr] at hbase
  subst hstored
  exact ⟨_, hexec.trans (conditional_pass _ hc), hbase.1, hbase.2, (writeBack_cpsr ..).trans hcpsr,
    ⟨writeBack_spsrFiq .., writeBack_spsrIrq .., writeBack_spsrSvc ..⟩, writeBack_sameBus .., writeBack_diags ..⟩

/-- Byte `j` of a word written to a memory (R69, R71). -/
theorem Memory.read_writeWord_add (m : Memory) (a : Nat) (v : Word) (h : m.wf = true) {j : Nat} (hj : j < 4) :
    (m.writeWord a v).read (a + j) = v.extractLsb' (8 * j) 8 := by
  obtain ⟨h0, h1, h2, h3⟩ := Memory.read_writeWord_byte m a v h
  interval_cases j
  exacts [h0, h1, h2, h3]

/-- Settles O24: the state that the router's write answers, then the write-back. At RAM the write is that of
`writeWord_of_ram`. -/
theorem storeWordRegister : Obligations.StoreWordRegister := by
  intro c p u w rn rd off s hc base eff addr v pn aw
  have haw : aw = alignedAddr addr := (alignedAddr_eq addr).symm
  clear_value aw
  subst haw
  obtain ⟨t, hexec, hkept, hbase, hcpsr, hspsrs, hbus, hdiags⟩ := exec_stores (i := .str c p u w rn rd off)
    (stored := s.writeWord addr v) hc rfl rfl rfl rfl
  have ⟨hram, hrom, hioc, hvidc, hboot, hparams⟩ := hbus
  refine ⟨t, hexec, hkept, hbase, hcpsr, hspsrs, hrom, hparams, ?boot, hram, hioc, hvidc, hdiags,
    fun hr hwf => ?inRam, fun hr k => ?elsewhere⟩
  case boot => rw [hboot, writeWord_boot, decide_not, beq_eq_decide]
  case inRam =>
    rw [hram, hioc, hvidc, hdiags, writeWord_of_ram v hr]
    refine ⟨fun j hj => Memory.read_writeWord_add _ _ _ hwf hj, fun k hk => Memory.read_writeWord_other _ _ hk, rfl, rfl,
      rfl, fun hlatch x hx => ?_⟩
    rw [← busAddr_eq] at hx
    rw [hbus.readByte, readByte_writeWord v hr hlatch x hx]
  case elsewhere => rw [hram, writeWord_ram_eq, if_neg hr]

/-- Settles O25: as STR, with the router's byte write. -/
theorem storeByteRegister : Obligations.StoreByteRegister := by
  intro c p u w rn rd off s hc base eff addr b pn a
  have ha : a = busAddr addr := (busAddr_eq addr).symm
  clear_value a
  subst ha
  obtain ⟨t, hexec, hkept, hbase, hcpsr, hspsrs, hbus, hdiags⟩ := exec_stores (i := .strb c p u w rn rd off)
    (stored := s.writeByte addr b) hc rfl rfl rfl rfl
  have ⟨hram, hrom, hioc, hvidc, hboot, hparams⟩ := hbus
  refine ⟨t, hexec, hkept, hbase, hcpsr, hspsrs, hrom, hparams, hboot, hram, hioc, hvidc, hdiags,
    fun hr hwf => ?inRam, fun hr k => ?elsewhere⟩
  case inRam =>
    rw [hram, hioc, hvidc, hdiags, writeByte_of_ram b hr]
    refine ⟨Memory.read_write_same _ _ _ hwf, fun k hk => Memory.read_write_other _ _ hk, rfl, rfl, rfl, fun x hx => ?_⟩
    rw [← busAddr_eq] at hx
    rw [hbus.readByte, readByte_writeByte b hr x hx]
  case elsewhere => rw [hram, writeByte_ram_eq, if_neg hr]

end Sys2Proof.Machine

/-! The statements of spec/43_block_data_transfer.md: LDM (R212) and STM (R213), each with its addresses (R211), the
write-back (R210) and the S bit (R214); and what a store and a load of one list leave together. -/

namespace Sys2Proof.Machine

/-! ### The block -/

/-- The address of a register's word in the block that begins at `start` (R210). -/
def blockAddr (start : Word) (list : BitVec 16) (i : Reg) : Word := start + BitVec.ofNat 32 (4 * listRank list i)

/-- Every word of a block is aligned where the first one is (R210). -/
theorem blockAddr_aligned {start : Word} (h : start.toNat % 4 = 0) (list : BitVec 16) (i : Reg) :
    (blockAddr start list i).toNat % 4 = 0 := by
  unfold blockAddr
  rw [BitVec.toNat_add, BitVec.toNat_ofNat]
  omega

/-- The base after a block transfer (R210, R211). -/
theorem blockNewBase_eq (u : Bool) (base : Word) (list : BitVec 16) : blockNewBase u base list =
    let size : Word := BitVec.ofNat 32 (4 * (List.range 16).countP fun j => list.getLsbD j)
    if u then base + size else base - size := by
  rw [← blockBytes_eq]
  rfl

/-- The write-back of a block transfer changes nothing that a read of the router depends on (R210). -/
theorem blockWriteBack_sameBus (s : State) (w : Bool) (rn : Reg) (v : Word) : s.SameBus (s.blockWriteBack w rn v) :=
  ⟨blockWriteBack_ram .., blockWriteBack_rom .., blockWriteBack_ioc .., blockWriteBack_vidc ..,
    blockWriteBack_isBootMode .., blockWriteBack_params ..⟩

theorem State.SpsrsKept.trans {s t u : State} (h : s.SpsrsKept t) (k : t.SpsrsKept u) : s.SpsrsKept u :=
  ⟨k.1.trans h.1, k.2.1.trans h.2.1, k.2.2.trans h.2.2⟩

theorem blockWriteBack_spsrsKept (s : State) (w : Bool) (rn : Reg) (v : Word) :
    s.SpsrsKept (s.blockWriteBack w rn v) :=
  ⟨blockWriteBack_spsrFiq .., blockWriteBack_spsrIrq .., blockWriteBack_spsrSvc ..⟩

/-! ### LDM -/

/-- A listed register takes the word at its place in the block (R210). -/
theorem loadListed_get (ub : Bool) {list : BitVec 16} (start : Word) (s : State) {i : Reg}
    (hi : list.getLsbD i.num.toNat = true) :
    (loadBlock ub (listedRegs list) start s).regs.get (phys (loadedIn ub s) i) =
      (phys (loadedIn ub s) i).held (s.readWord (blockAddr start list i)) := by
  rw [(loadBlock_get ub _ start s (listedRegs_nodup list) _).1 i (mem_listedRegs.mpr hi) rfl, listedRegs_idxOf hi]
  rfl

/-- A register that is not listed is kept (R210). -/
theorem loadListed_get_other (ub : Bool) {list : BitVec 16} (start : Word) (s : State) {q : PhysReg}
    (hq : ∀ i : Reg, list.getLsbD i.num.toNat = true → phys (loadedIn ub s) i ≠ q) :
    (loadBlock ub (listedRegs list) start s).regs.get q = s.regs.get q :=
  (loadBlock_get ub _ start s (listedRegs_nodup list) q).2 fun i hi => hq i (mem_listedRegs.mp hi)

/-- The loads report what the word reads at the places of the listed registers report, in order (R210). -/
theorem loadListed_diags (ub : Bool) (list : BitVec 16) (start : Word) (s : State) :
    (loadBlock ub (listedRegs list) start s).diags =
      s.diags ++ (listedRegs list).flatMap fun i => s.readWordDiags (blockAddr start list i) := by
  rw [loadBlock_diags, flatMap_idx _ (listedRegs_nodup list)]
  congr 1
  apply List.flatMap_congr
  intro i hi
  rw [listedRegs_idxOf (mem_listedRegs.mp hi)]
  rfl

/-- The bank LDM loads: the User bank with S = 1 and R15 not listed, else the bank of the mode (R214). -/
theorem loadedIn_eq (f : Bool) (list : BitVec 16) (s : State) : loadedIn (f && !inList list .r15) s =
    if f = true ∧ inList list .r15 = false then .usr else s.cpsr.mode := by
  unfold loadedIn
  simp only [Bool.and_eq_true, Bool.not_eq_true']

/-- LDM is the loads, then the write-back, then CPSR: the SPSR of the mode with S = 1 and R15 listed, else the CPSR it
had (R210, R212, R214). -/
theorem blockLoad_eq (p u f w : Bool) (rn : Reg) (list : BitVec 16) (s : State) : blockLoad p u f w rn list s =
    ((loadBlock (f && !inList list .r15) (listedRegs list) (blockStart p u (s.readReg rn) list) s).blockWriteBack w rn
      (blockNewBase u (s.readReg rn) list)).setCpsr
      (if f = true ∧ inList list .r15 = true then (s.spsr s.cpsr.mode).getD s.cpsr else s.cpsr) := by
  obtain ⟨-, hspsrs, hcpsr⟩ :=
    loadBlock_sameBus (f && !inList list .r15) (listedRegs list) (blockStart p u (s.readReg rn) list) s
  unfold blockLoad
  simp only [Bool.and_eq_true]
  generalize loadBlock (f && !inList list .r15) (listedRegs list) (blockStart p u (s.readReg rn) list) s = loaded
    at hspsrs hcpsr ⊢
  have hspsr (v : Word) : (loaded.blockWriteBack w rn v).spsr s.cpsr.mode = s.spsr s.cpsr.mode :=
    (hspsrs.trans (blockWriteBack_spsrsKept loaded w rn v)).spsr_eq _
  split
  case isTrue => rw [restoreCpsr_eq, blockWriteBack_cpsr, hcpsr, hspsr]
  case isFalse =>
    rw [← hcpsr, ← blockWriteBack_cpsr loaded w rn]
    rfl

/-- A register after LDM: the base has the write-back, any other what the loads left (R210). -/
theorem blockLoad_get (p u f w : Bool) (rn : Reg) (list : BitVec 16) (s : State) (q : PhysReg) :
    (blockLoad p u f w rn list s).regs.get q =
      if w = true ∧ q = phys s.cpsr.mode rn then q.held (blockNewBase u (s.readReg rn) list)
      else
        (loadBlock (f && !inList list .r15) (listedRegs list) (blockStart p u (s.readReg rn) list) s).regs.get q := by
  obtain ⟨-, -, hcpsr⟩ :=
    loadBlock_sameBus (f && !inList list .r15) (listedRegs list) (blockStart p u (s.readReg rn) list) s
  rw [blockLoad_eq, setCpsr_regs, blockWriteBack_get, hcpsr]

theorem blockLoad_cpsr (p u f w : Bool) (rn : Reg) (list : BitVec 16) (s : State) :
    (blockLoad p u f w rn list s).cpsr =
      if f = true ∧ inList list .r15 = true then (s.spsr s.cpsr.mode).getD s.cpsr else s.cpsr := by
  rw [blockLoad_eq, setCpsr_cpsr]

theorem blockLoad_spsrsKept (p u f w : Bool) (rn : Reg) (list : BitVec 16) (s : State) :
    s.SpsrsKept (blockLoad p u f w rn list s) :=
  (spsrsKept_keptByUpdates s).effect (.ldm .al p u f w rn list) nofun s ⟨rfl, rfl, rfl⟩

theorem blockLoad_sameBus (p u f w : Bool) (rn : Reg) (list : BitVec 16) (s : State) :
    s.SameBus (blockLoad p u f w rn list s) := by
  rw [blockLoad_eq]
  exact (loadBlock_sameBus ..).1.trans ((blockWriteBack_sameBus ..).trans (setCpsr_sameBus ..))

/-- LDM reports what its loads report (R210). -/
theorem blockLoad_diags (p u f w : Bool) (rn : Reg) (list : BitVec 16) (s : State) :
    (blockLoad p u f w rn list s).diags = s.diags ++ (listedRegs list).flatMap fun i =>
      s.readWordDiags (blockAddr (blockStart p u (s.readReg rn) list) list i) := by
  rw [blockLoad_eq, setCpsr_diags, blockWriteBack_diags, loadListed_diags]

/-- Settles O26: a register is that of the write-back, of the loads or of the start; the rest is `blockLoad` field by
field. -/
theorem loadMultiple : Obligations.LoadMultiple := by
  intro c p u f w rn list s hc base size start pn pc bank
  have hstart : blockStart p u (s.readReg rn) list = start := blockStart_eq p u base list
  have hnew : blockNewBase u (s.readReg rn) list = if u then base + size else base - size :=
    blockNewBase_eq u base list
  have hbank : loadedIn (f && !inList list .r15) s = bank := loadedIn_eq f list s
  have hget (q : PhysReg) := blockLoad_get p u f w rn list s q
  have hdiags := blockLoad_diags p u f w rn list s
  rw [hstart] at hdiags
  simp only [hstart, hnew] at hget
  refine ⟨_, conditional_pass _ hc, fun i hi hne => ?listed, fun hw => ?base, fun q hne hq => ?other,
    blockLoad_cpsr .., blockLoad_spsrsKept .., (blockLoad_sameBus ..).memoryKept, (blockLoad_sameBus ..).devicesKept,
    hdiags⟩
  case listed =>
    rw [hget, if_neg hne, ← hbank, loadListed_get _ start s hi]
    rfl
  case base => rw [hget, if_pos ⟨hw, rfl⟩]
  case other => rw [hget, if_neg hne, loadListed_get_other _ start s (hbank ▸ hq)]

/-! ### STM -/

/-- The stores of a block: one word store for each listed register, in ascending order, with the value that the
bank's register has in `s` (R210, R213). -/
def State.storeListed (s : State) (bank : Mode) (list : BitVec 16) (start : Word) : State :=
  (listedRegs list).foldl (fun st i => st.writeWord (blockAddr start list i) (s.readIn bank i)) s

/-- STM is the stores, then the write-back (R210, R213). -/
theorem exec_stm {c : Cond} {s : State} (hc : condPassed c s.cpsr = true) (p u f w : Bool) (rn : Reg)
    (list : BitVec 16) : exec (.stm c p u f w rn list) s =
      .next ((s.storeListed (if f then .usr else s.cpsr.mode) list (blockStart p u (s.readReg rn) list)).blockWriteBack
        w rn (blockNewBase u (s.readReg rn) list)) :=
  (conditional_pass _ hc).trans (congrArg _ (blockStore_eq p u f w rn list s))

/-- The stores of a block keep the registers and the status, ROM and the parameters. -/
theorem storeListed_keeps (s : State) (bank : Mode) (list : BitVec 16) (start : Word) :
    (s.storeListed bank list start).regs = s.regs ∧ (s.storeListed bank list start).cpsr = s.cpsr ∧
      s.SpsrsKept (s.storeListed bank list start) ∧ (s.storeListed bank list start).rom = s.rom ∧
      (s.storeListed bank list start).params = s.params :=
  foldl_keeps ..

/-- Settles O27: `exec_stm`, with the stores field by field and the base after the write-back. -/
theorem storeMultiple : Obligations.StoreMultiple := by
  intro c p u f w rn list s hc base size start pn bank stored
  have hstart : blockStart p u (s.readReg rn) list = start := blockStart_eq p u base list
  have hnew : blockNewBase u (s.readReg rn) list = if u then base + size else base - size :=
    blockNewBase_eq u base list
  have hexec := exec_stm hc p u f w rn list
  rw [hstart, hnew, show s.storeListed (if f then .usr else s.cpsr.mode) list start = stored from rfl] at hexec
  obtain ⟨hregs, hcpsr, hspsrs, hrom, hparams⟩ : stored.regs = s.regs ∧ stored.cpsr = s.cpsr ∧ s.SpsrsKept stored ∧
      stored.rom = s.rom ∧ stored.params = s.params := storeListed_keeps s bank list start
  generalize (if u then base + size else base - size) = newBase at hexec ⊢
  have hget (q : PhysReg) := blockWriteBack_get stored w rn newBase q
  rw [hregs, hcpsr] at hget
  obtain ⟨hram, hrom', hioc, hvidc, hboot, hparams'⟩ := blockWriteBack_sameBus stored w rn newBase
  refine ⟨_, hexec, fun hw q _ => ?kept, fun hw => ⟨fun q hq => ?other, ?base⟩, (blockWriteBack_cpsr ..).trans hcpsr,
    hspsrs.trans (blockWriteBack_spsrsKept ..), hrom'.trans hrom, hparams'.trans hparams, hram, hioc, hvidc, hboot,
    blockWriteBack_diags ..⟩
  case kept => rw [hget, if_neg fun h => Bool.noConfusion (hw.symm.trans h.1)]
  case other => rw [hget, if_neg fun h => hq (List.mem_singleton.mpr h.2)]
  case base => rw [hget, if_pos ⟨hw, rfl⟩]

/-! ### STM to RAM -/

/-- Every word of the block is RAM, and none is the boot latch (R65, R72). -/
def State.BlockInRam (s : State) (list : BitVec 16) (start : Word) : Prop :=
  ∀ i : Reg, list.getLsbD i.num.toNat = true → s.region (alignedAddr (blockAddr start list i)) = .ram ∧
    alignedAddr (blockAddr start list i) ≠ s.params.bootLatch

/-- Stores to a block in RAM change RAM alone: the bytes of each listed register stand at its place, every byte outside
the block is kept (R69, R71, R210). -/
theorem storeListed_ram {s : State} (bank : Mode) {list : BitVec 16} {start : Word} (hwf : s.ram.wf = true)
    (h : s.BlockInRam list start) : ∃ ram : Memory, s.storeListed bank list start = { s with ram := ram } ∧
      (∀ i : Reg, list.getLsbD i.num.toNat = true → ∀ j, j < 4 →
        ram.read (alignedAddr (blockAddr start list i) + j) = (s.readIn bank i).extractLsb' (8 * j) 8) ∧
      ∀ k, (∀ i : Reg, list.getLsbD i.num.toNat = true →
        k < alignedAddr (blockAddr start list i) ∨ alignedAddr (blockAddr start list i) + 4 ≤ k) →
        ram.read k = s.ram.read k := by
  refine ⟨_, foldl_writeWord_ram _ _ _ s fun i hi => h i (mem_listedRegs.mp hi), fun i hi j hj => ?bytes,
    fun k hk => ?outside⟩
  case bytes =>
    exact foldl_ram_byte _ _ _ _ hwf (listedRegs_nodup list)
      (fun i hi j hj => places_apart (mem_listedRegs.mp hi) (mem_listedRegs.mp hj)) i (mem_listedRegs.mpr hi) j hj
  case outside => exact foldl_ram_other _ _ _ _ k fun i hi => hk i (mem_listedRegs.mp hi)

/-- Settles O28: `exec_stm` with `storeListed_ram`; a byte read outside the block sees a byte of RAM that was kept, or no
RAM at all. -/
theorem storeMultipleToRam : Obligations.StoreMultipleToRam := by
  intro c p u f w rn list s hc base size start bank place hwf hplaces
  have hstart : blockStart p u (s.readReg rn) list = start := blockStart_eq p u base list
  have hplace : place = fun i => alignedAddr (blockAddr start list i) := funext fun i => (alignedAddr_eq _).symm
  clear_value place
  subst hplace
  obtain ⟨ram, hstored, hbytes, houtside⟩ := storeListed_ram bank hwf hplaces
  have hexec := exec_stm hc p u f w rn list
  rw [hstart, show s.storeListed (if f then .usr else s.cpsr.mode) list start = _ from hstored] at hexec
  have hbus := blockWriteBack_sameBus { s with ram := ram } w rn (blockNewBase u (s.readReg rn) list)
  have hram := hbus.1
  refine ⟨_, hexec, fun i hi j hj => ?bytes, fun k hk => ?outside, fun x hx => ?read, hbus.devicesKept,
    blockWriteBack_diags ..⟩
  case bytes => rw [hram]; exact hbytes i hi j hj
  case outside => rw [hram]; exact houtside k hk
  case read =>
    rw [← busAddr_eq] at hx
    rw [hbus.readByte]
    refine readByte_of_ram (fun k => ?_) rfl
    by_cases hk : k = busAddr x
    · exact .inl (hk ▸ houtside _ hx)
    · exact .inr hk

/-! ### A store and a load of one list -/

/-- An aligned word read of RAM gives the word whose four bytes stand there (R69, R70). -/
theorem readWord_of_ram_bytes {s : State} {addr v : Word} (hr : s.region (alignedAddr addr) = .ram)
    (h4 : addr.toNat % 4 = 0)
    (h : ∀ j, j < 4 → s.ram.read (alignedAddr addr + j) = v.extractLsb' (8 * j) 8) : s.readWord addr = v := by
  have hoff : busAddr addr % 4 = 0 := by rw [busAddr_eq]; omega
  rw [readWord_of_ram hr, hoff, ror32_zero, Memory.readWord, h 3 (by decide), h 2 (by decide), h 1 (by decide),
    show s.ram.read (alignedAddr addr) = _ from h 0 (by decide)]
  exact word_of_bytes v

/-- With R15 unlisted no listed register is R15 (R109). -/
theorem ne_r15_of_listed {list : BitVec 16} (h15 : list.getLsbD 15 = false) {i : Reg}
    (hi : list.getLsbD i.num.toNat = true) : i ≠ .r15 := by
  rintro rfl
  exact Bool.noConfusion (h15.symm.trans hi)

/-- A register other than 15 holds the whole of what is written to it (R24). -/
theorem held_phys (m : Mode) {i : Reg} (hi : i ≠ .r15) (v : Word) : (phys m i).held v = v :=
  PhysReg.held_of_ne (mt phys_eq_r15.mp hi) v

/-- A write of a register other than 15 and the advance change places (R102). -/
theorem writeReg_advance (s : State) {i : Reg} (hi : i ≠ .r15) (v : Word) :
    (s.writeReg i v).advance = s.advance.writeReg i v := by
  have hp : phys s.cpsr.mode i ≠ .r15 := mt phys_eq_r15.mp hi
  change (s.setPhys (phys s.cpsr.mode i) v).advance = s.advance.setPhys (phys s.cpsr.mode i) v
  cases h : phys s.cpsr.mode i
  case r15 => exact absurd h hp
  all_goals rfl

/-- STMFD to RAM: the listed registers stand in the block, R13 has its start, nothing else differs (R211, R213). -/
theorem exec_stmfd {s : State} {list : BitVec 16} {start : Word} (hwf : s.ram.wf = true)
    (hstart : s.readReg .r13 - blockBytes list = start) (h : s.BlockInRam list start) :
    ∃ ram : Memory, exec (.stm .al true false false true .r13 list) s =
        .next (({ s with ram := ram } : State).writeReg .r13 start) ∧
      ∀ i : Reg, list.getLsbD i.num.toNat = true → ∀ j, j < 4 →
        ram.read (alignedAddr (blockAddr start list i) + j) = (s.readReg i).extractLsb' (8 * j) 8 := by
  subst hstart
  obtain ⟨ram, hstored, hbytes, -⟩ := storeListed_ram s.cpsr.mode hwf h
  refine ⟨ram, ?_, hbytes⟩
  rw [← hstored]
  exact exec_stm rfl true false false true .r13 list

/-- LDMFD leaves the registers `r` where R13 is the start of the block whose end it has in `r`, the block holds the listed
registers of `r`, and the others are those of `r` already (R211, R212). -/
theorem blockLoad_ldmfd_regs {t : State} {list : BitVec 16} {r : RegFile} (h15 : list.getLsbD 15 = false)
    (hsp : r.get (phys t.cpsr.mode .r13) = t.readReg .r13 + blockBytes list)
    (hwords : ∀ i : Reg, list.getLsbD i.num.toNat = true →
      t.readWord (blockAddr (t.readReg .r13) list i) = r.get (phys t.cpsr.mode i))
    (hrest : ∀ q, q ≠ phys t.cpsr.mode .r13 → t.regs.get q = r.get q) :
    (blockLoad false true false true .r13 list t).regs = r := by
  apply RegFile.ext_get
  intro q
  rw [blockLoad_get]
  split
  case isTrue hq =>
    obtain ⟨-, rfl⟩ := hq
    rw [held_phys _ (by decide), hsp]
    rfl
  case isFalse hq =>
    by_cases hlisted : ∃ i : Reg, list.getLsbD i.num.toNat = true ∧ phys t.cpsr.mode i = q
    · obtain ⟨i, hi, rfl⟩ := hlisted
      exact (loadListed_get false _ t hi).trans ((held_phys _ (ne_r15_of_listed h15 hi) _).trans (hwords i hi))
    · exact (loadListed_get_other false _ t fun i hi he => hlisted ⟨i, hi, he⟩).trans (hrest q fun he => hq ⟨rfl, he⟩)

/-- LDMFD, as the instruction after STMFD with the same list, leaves the registers that one instruction without an effect
would: the state is the one `exec_stmfd` answers, advanced. -/
theorem blockLoad_after_stmfd {s : State} {list : BitVec 16} {start : Word} {ram : Memory}
    (h15 : list.getLsbD 15 = false) (hstart : s.readReg .r13 - blockBytes list = start) (h4 : start.toNat % 4 = 0)
    (h : s.BlockInRam list start)
    (hbytes : ∀ i : Reg, list.getLsbD i.num.toNat = true → ∀ j, j < 4 →
      ram.read (alignedAddr (blockAddr start list i) + j) = (s.readReg i).extractLsb' (8 * j) 8) :
    (blockLoad false true false true .r13 list (({ s with ram := ram } : State).writeReg .r13 start).advance).regs =
      s.advance.regs := by
  rw [writeReg_advance _ (by decide)]
  have hkept (i : Reg) (hi : i ≠ .r15) : s.advance.regs.get (phys s.cpsr.mode i) = s.readReg i := by
    rw [State.readReg, readIn_of_ne_r15 s _ hi]
    exact RegFile.get_set_other _ _ (mt phys_eq_r15.mp hi)
  have hr13 : ((({ s with ram := ram } : State).advance).writeReg .r13 start).readReg .r13 = start :=
    (RegFile.get_set_same _ _ _).trans (held_phys _ (by decide) start)
  refine blockLoad_ldmfd_regs h15 ?sp (fun i hi => ?word) fun q hq => RegFile.get_set_other _ _ hq
  case sp => rw [hr13, ← hstart, BitVec.sub_add_cancel]; exact hkept .r13 (by decide)
  case word =>
    have hne : i ≠ .r15 := ne_r15_of_listed h15 hi
    rw [hr13]
    have hram : ((({ s with ram := ram } : State).advance).writeReg .r13 start).region
        (alignedAddr (blockAddr start list i)) = .ram := (h i hi).1
    exact (readWord_of_ram_bytes hram (blockAddr_aligned h4 list i) (hbytes i hi)).trans (hkept i hne).symm

/-- Settles O29: the registers are those of `blockLoad_after_stmfd`, and without the S bit neither instruction touches
CPSR. -/
theorem stackBalance : Obligations.StackBalance := by
  intro list s h15 _ hwf hplaces h4
  have hblock : s.BlockInRam list (s.readReg .r13 - blockBytes list) := by
    intro i hi
    rw [alignedAddr_eq, blockBytes_eq]
    exact hplaces i hi
  have hstart4 : (s.readReg .r13 - blockBytes list).toNat % 4 = 0 := by
    unfold blockBytes
    rw [BitVec.toNat_sub, BitVec.toNat_ofNat]
    omega
  obtain ⟨ram, hstore, hbytes⟩ := exec_stmfd hwf rfl hblock
  have hregs := blockLoad_after_stmfd h15 rfl hstart4 hblock hbytes
  refine ⟨_, hstore, _, conditional_pass _ rfl, fun q hq => ?regs, ?pc, ?cpsr, ?spsrs⟩
  case regs =>
    rw [hregs]
    exact RegFile.get_set_other _ _ (by simpa using hq)
  case pc => exact congrArg RegFile.r15 hregs
  case cpsr => exact (blockLoad_cpsr ..).trans (if_neg fun h => Bool.noConfusion h.1)
  case spsrs =>
    obtain ⟨hfiq, hirq, hsvc⟩ := blockLoad_spsrsKept false true false true .r13 list
      (({ s with ram := ram } : State).writeReg .r13 (s.readReg .r13 - blockBytes list)).advance
    exact ⟨hfiq, hirq, hsvc⟩

end Sys2Proof.Machine

/-! The statements of spec/44_branch.md: the target (R230), B (R231) and BL (R232). -/

namespace Sys2Proof.Machine

/-! ### The target -/

/-- The shift of the sign-extended offset by two is a product by four (R230). -/
theorem branchTarget_eq (s : State) (off24 : BitVec 24) :
    s.branchTarget off24 = s.fetchPc + 8#32 + 4#32 * off24.signExtend 32 := by
  rw [State.branchTarget, BitVec.shiftLeft_eq_mul_twoPow, BitVec.mul_comm]
  rfl

/-- R15 after a branch from an aligned address is the exact sum modulo 2^26: neither the sum modulo 2^32 nor the sign
extension shows in the bits that PC_MASK keeps (R230). -/
theorem branch_pc_toNat {a : Word} (h : a &&& Config.pcMask = a) (off24 : BitVec 24) :
    (((a + 8#32 + 4#32 * off24.signExtend 32) &&& Config.pcMask).toNat : Int) =
      (a.toNat + 8 + 4 * off24.toInt) % 2 ^ 26 := by
  have halign : a.toNat % 2 ^ 26 / 4 * 4 = a.toNat := by rw [← and_pcMask_toNat, h]
  have hext : (off24.signExtend 32).toInt = off24.toInt := BitVec.toInt_signExtend_of_le (by decide)
  have hcond := (off24.signExtend 32).toInt_eq_toNat_cond
  rw [and_pcMask_toNat, BitVec.toNat_add, BitVec.toNat_add, BitVec.toNat_mul, ← hext, hcond, BitVec.toNat_ofNat,
    BitVec.toNat_ofNat]
  split <;> omega

/-! ### What a branch leaves unchanged -/

/-- A write of a listed register keeps the others. -/
theorem State.RegsKeptBut.setPhys {s t : State} {ps : List PhysReg} (h : s.RegsKeptBut t ps) {p : PhysReg} (hp : p ∈ ps)
    (v : Word) : s.RegsKeptBut (t.setPhys p v) ps := fun q hq =>
  (RegFile.get_set_other _ _ (ne_of_mem_of_not_mem hp hq).symm).trans (h q hq)

/-- A write of a register touches no saved status, no memory, no device and no diagnostic. -/
theorem State.SameOutside.setPhys {s t : State} (h : s.SameOutside t) (p : PhysReg) (v : Word) :
    s.SameOutside (t.setPhys p v) := ⟨h.bus.trans (setPhys_sameBus _ _ _), h.spsrs, h.diags⟩

/-- The link is in R14 of the current mode after the write of R15 as well (R232). -/
theorem link_after_branch (s : State) (v target : Word) :
    ((s.writeReg .r14 v).setPc target).regs.get (phys s.cpsr.mode .r14) = v := by
  rw [setPc_regs, RegFile.get_set_other _ _ (mt phys_eq_r15.mp (by decide)), writeReg_regs, RegFile.get_set_same,
    held_phys _ (by decide)]

/-- Settles O31: B is one register write, BL two, and the target is that of `branchTarget_eq`. -/
theorem branchAndLink : Obligations.BranchAndLink := by
  intro c off24 s hc target link
  have hpc : s.branchTarget off24 &&& Config.pcMask = target :=
    congrArg (· &&& Config.pcMask) (branchTarget_eq s off24)
  have hregs (ps : List PhysReg) : s.RegsKeptBut s ps := fun _ _ => rfl
  have hrest := State.SameOutside.refl s
  refine ⟨⟨_, exec_pass hc, ?b, hpc, rfl⟩, ⟨_, exec_pass hc, ?bl, hpc, link_after_branch _ _ _, rfl⟩⟩
  case b => exact (hrest.setPhys .r15 _).onlyRegs ((hregs _).setPhys (by simp) _)
  case bl =>
    exact ((hrest.setPhys link _).setPhys .r15 _).onlyRegs (((hregs _).setPhys (by simp) _).setPhys (by simp) _)

/-! ### The step that fetches B -/

/-- Row 5 takes the words with bits 27:25 = 101 (R105). -/
theorem decodeWord_of_branch {w : Word} (hclass : field w 25 3 = 0b101#3) :
    decodeWord w = decodeBranch (Cond.ofBits (field w 28 4)) w := by
  obtain ⟨h25, h26, h27⟩ := (field3_iff w 25 0b101#3).mp hclass
  rw [decodeWord_bits]
  simp [h25, h26, h27]

/-- The words with bits 27:24 = 1010 are the encodings of B (R110, R231). -/
theorem decodeWord_b {w : Word} (h : field w 24 4 = 0b1010#4) :
    decodeWord w = .b (Cond.ofBits (field w 28 4)) (field w 0 24) := by
  obtain ⟨h24, hclass⟩ := (field4_iff w 24 0b1010#4).mp h
  rw [decodeWord_of_branch ((field3_iff w 25 0b101#3).mpr hclass), decodeBranch, if_neg (by simp [h24])]

/-- Settles O30: the fetched word is a B and not the sentinel, and the state after the advance recovers `fetch_pc` as the
old R15. -/
theorem branchStep : Obligations.BranchStep := by
  intro s w hmask hfiq hirq hread hop hc
  have hfetch : s.fetchWord = w := by
    rw [State.fetchWord, show s.pc &&& Config.pcMask = s.pc from hmask, hread]
  have hsentinel : s.fetchWord ≠ Config.sentinel := by
    rw [hfetch]
    rintro rfl
    exact absurd hop (by decide)
  have hdecode : decodeWord s.fetchWord = .b (Cond.ofBits (w.extractLsb' 28 4)) (w.extractLsb' 0 24) := by
    rw [hfetch]
    exact decodeWord_b hop
  have hstep : step s = .next (s.started.advance.setPc (s.started.advance.branchTarget (w.extractLsb' 0 24))) := by
    rw [step_of_fetched hfiq hirq hsentinel, hdecode]
    exact exec_pass hc
  obtain ⟨hregs, hspsrs, hbus⟩ := started_advance_kept s
  have hbus' := hbus.trans (setPhys_sameBus _ .r15 (s.started.advance.branchTarget (w.extractLsb' 0 24)))
  refine ⟨_, hstep, ?pc, hregs.setPhys (by simp) _, rfl, hspsrs, hbus'.memoryKept, hbus'.devicesKept, rfl⟩
  case pc =>
    have hfetchPc : s.started.advance.fetchPc = s.pc := advance_fetchPc s.started hmask
    rw [setPc_pc, branchTarget_eq, hfetchPc]
    exact branch_pc_toNat hmask _

end Sys2Proof.Machine

/-! The statements of spec/45_swi_and_unimplemented.md: the words of SWI and of the Unimplemented rows (R240, R243), the
entry of SWI and the return from it (R240, R241), the report of an Unimplemented instruction (R242), and what a step of
User mode can do (R244, R267). -/

namespace Sys2Proof.Machine

/-! ### The words of SWI and of the Unimplemented rows -/

/-- A word is its condition, the class bits below it and the rest (R111, R112). -/
theorem encode_three_fields {w : Word} {len : Nat} {op : BitVec len} (lo : Nat) (h : field w lo len = op)
    (hlo : lo + len = 28) :
    place 28 (Cond.ofBits (field w 28 4)).bits ||| place lo op ||| place 0 (field w 0 lo) = w := by
  subst h
  rw [Cond.bits_ofBits]
  exact or_three_fields w lo len hlo

/-- The words with bits 27:24 = 1111 are the encodings of SWI (R111, R240). -/
theorem decodeWord_swi {w : Word} (h : field w 24 4 = 0b1111#4) :
    decodeWord w = .swi (Cond.ofBits (field w 28 4)) (field w 0 24) :=
  decodeWord_of_encode rfl (encode_three_fields 24 h rfl)

/-- The words of row 3a: a word is the encoding of what it decodes to, and of the term that its fields spell (R105). -/
theorem decodeWord_eq_unimplSdtRegshift_iff (w : Word) :
    (∃ c hi lo, decodeWord w = .unimplSdtRegshift c hi lo) ↔
      field w 26 2 = 0b01#2 ∧ bit w 25 = true ∧ bit w 4 = true := by
  constructor
  · rintro ⟨c, hi, lo, hw⟩
    rw [← encode_decodeWord w, hw, field2_iff]
    simp [encode, place_bits, bit_placeBit]
  · rintro ⟨hclass, h25, h4⟩
    exact ⟨_, _, _, decodeWord_of_encode rfl (encode_unimplSdtRegshift hclass h25 h4)⟩

/-- The words of the coprocessor-transfer row (R105). -/
theorem decodeWord_eq_unimplCoprocTransfer_iff (w : Word) :
    (∃ c rest, decodeWord w = .unimplCoprocTransfer c rest) ↔ field w 25 3 = 0b110#3 := by
  constructor
  · rintro ⟨c, rest, hw⟩
    rw [← encode_decodeWord w, hw]
    simp [encode, field_place_same, field_place_off]
  · intro h
    exact ⟨_, _, decodeWord_of_encode rfl (encode_three_fields 25 h rfl)⟩

/-- The words of the coprocessor-operation row (R105). -/
theorem decodeWord_eq_unimplCoprocOp_iff (w : Word) :
    (∃ c rest, decodeWord w = .unimplCoprocOp c rest) ↔ field w 24 4 = 0b1110#4 := by
  constructor
  · rintro ⟨c, rest, hw⟩
    rw [← encode_decodeWord w, hw]
    simp [encode, field_place_same, field_place_off]
  · intro h
    exact ⟨_, _, decodeWord_of_encode rfl (encode_three_fields 24 h rfl)⟩

/-- Settles O3: the words of each row. -/
theorem unimplementedWords : Obligations.UnimplementedWords := fun w =>
  ⟨decodeWord_eq_unimplSdtRegshift_iff w, decodeWord_eq_unimplCoprocTransfer_iff w, decodeWord_eq_unimplCoprocOp_iff w⟩

/-! ### The Unimplemented encodings -/

/-- Settles O33: the effect of each of the three rows is one diagnostic. -/
theorem unimplementedOnlyReports : Obligations.UnimplementedOnlyReports := by
  intro i s hi
  have heffect : effect i s = unimplemented i s := by
    rcases hi with ⟨_, _, _, rfl⟩ | ⟨_, _, rfl⟩ | ⟨_, _, rfl⟩ <;> rfl
  refine ⟨fun hc => ?_, exec_fail⟩
  rw [exec_pass hc, heffect]
  rfl

/-! ### The entry of an exception -/

/-- An entry that does not mask FIQ changes the mode and I alone (R256). -/
theorem entered_keepF (p : Psr) (m : Mode) : p.entered m false = { p with mode := m, i := true } := by
  simp [Psr.entered]

/-- An entry keeps every register but R14 of its mode and R15 (R256). -/
theorem raise_regsKeptBut (s : State) (m : Mode) (vec ret : Word) (f : Bool) :
    s.RegsKeptBut (s.raise m vec ret f) [phys m .r14, .r15] := by
  intro q hq
  simp only [List.mem_cons, List.not_mem_nil, or_false, not_or] at hq
  obtain ⟨hlink, hpc⟩ := hq
  rw [raise_get, if_neg hpc, if_neg hlink]

/-- An entry leaves the return value in R14 of its mode (R256). -/
theorem raise_link (s : State) (m : Mode) (vec ret : Word) (f : Bool) :
    (s.raise m vec ret f).regs.get (phys m .r14) = ret := by
  rw [raise_get, if_neg (mt phys_eq_r15.mp (by decide)), if_pos rfl]

/-- Registers kept along two stretches are kept along both. -/
theorem State.RegsKeptBut.trans {s t u : State} {ps qs : List PhysReg} (h : s.RegsKeptBut t ps)
    (k : t.RegsKeptBut u qs) (hsub : qs ⊆ ps) : s.RegsKeptBut u ps := fun q hq =>
  (k q fun hmem => hq (hsub hmem)).trans (h q hq)

/-! ### SWI -/

/-- What every update keeps, every instruction but SWI keeps, whether its condition passes or fails (R103). -/
theorem KeptByUpdates.exec {P : State → Prop} (k : KeptByUpdates P) {i : Instr} (hi : ∀ c n, i ≠ .swi c n)
    {s t : State} (h : P s) (ht : exec i s = .next t) : P t := by
  rw [exec_eq] at ht
  cases ht
  split
  · exact k.effect i hi s h
  · exact h

/-- SWI whose condition passes is the entry into SVC mode (R240). -/
theorem exec_swi_pass {c : Cond} {comment : BitVec 24} {s : State} (h : condPassed c s.cpsr = true) :
    exec (.swi c comment) s = .next s.takeSwi := exec_pass h

/-- Settles O32: SWI is the entry into SVC mode, and every other instruction is a sequence of updates that keep the saved
status registers. -/
theorem softwareInterrupt : Obligations.SoftwareInterrupt := by
  refine ⟨fun _ => decodeWord_swi, fun c comment s => ⟨exec_fail (i := .swi c comment), fun hc => ?entry⟩,
    fun i s t hi ht => ?others⟩
  case entry =>
    have hbus := raise_sameBus s .svc Exception.swi.vector s.nextPc false
    exact ⟨s.takeSwi, exec_swi_pass hc, rfl, (raise_cpsr ..).trans (entered_keepF _ _), raise_link s .svc _ _ _,
      raise_pc .., raise_regsKeptBut s .svc _ _ _, rfl, rfl, hbus.memoryKept, hbus.devicesKept, raise_diags ..⟩
  case others =>
    exact (spsrsKept_keptByUpdates s).exec (fun c n h => hi ⟨c, n, h⟩) ⟨rfl, rfl, rfl⟩ ht

/-- The amount 0 of LSL leaves the register as it is (R132). -/
theorem operand2_unshifted (s : State) (rm : Reg) : s.operand2 (.shiftImm 0 .lsl rm) = (s.readReg rm, s.cpsr.c) := rfl

/-- `MOVS PC, R14` in a mode with a saved status: R15 takes the link, CPSR the saved status, and nothing else changes
(R140). -/
theorem exec_movs_pc_link (s : State) {p : Psr} (hp : s.spsr s.cpsr.mode = some p) :
    ∃ t, exec (.mov .al true .r0 .r15 (.shiftImm 0 .lsl .r14)) s = .next t ∧ s.OnlyRegs t [.r15] ∧
      t.pc = s.regs.get (phys s.cpsr.mode .r14) &&& Config.pcMask ∧ t.cpsr = p := by
  obtain ⟨t, ht, hkept, hpc, hcpsr⟩ := exec_writes (i := .mov .al true .r0 .r15 (.shiftImm 0 .lsl .r14)) (s := s)
    (c := .al) (alu := aluMov) rfl rfl rfl rfl
  rw [phys_r15] at hkept hpc
  refine ⟨t, ht, hkept, hpc, ?_⟩
  rw [hcpsr, State.cpsrAfter, if_pos ⟨rfl, rfl⟩, hp]
  rfl

/-- Settles O37: the return takes R15 from the link and CPSR from the saved status that the entry of SWI left. -/
theorem softwareInterruptReturn : Obligations.SoftwareInterruptReturn := by
  intro c comment s t hc ht
  rw [exec_swi_pass hc] at ht
  cases ht
  have hlink : s.takeSwi.advance.regs.get (phys s.takeSwi.advance.cpsr.mode .r14) = s.nextPc := raise_link s .svc _ _ _
  obtain ⟨u, hu, hkept, hpc, hcpsr⟩ := exec_movs_pc_link s.takeSwi.advance (p := s.cpsr) rfl
  have hadvance : s.RegsKeptBut s.takeSwi.advance [.r14svc, .r15] :=
    (raise_regsKeptBut s .svc _ _ _).setPhys (by simp) _
  refine ⟨u, hu, ?pc, hcpsr, hadvance.trans hkept.regs (by simp)⟩
  case pc =>
    rw [hpc, hlink]
    exact and_pcMask_idem _

/-! ### The confinement of User mode -/

/-- `t` is in User mode with I, F, the saved status registers and the banks of the other modes as in `s`. -/
structure State.ConfinedTo (s t : State) : Prop where
  mode : t.cpsr.mode = .usr
  i : t.cpsr.i = s.cpsr.i
  f : t.cpsr.f = s.cpsr.f
  spsrs : s.SpsrsKept t
  banks : ∀ q ∈ bankedElsewhere, t.regs.get q = s.regs.get q

/-- A write of a register that User mode selects reaches no other bank (R21). -/
theorem State.ConfinedTo.setPhys {s t : State} (h : s.ConfinedTo t) {p : PhysReg} (hp : p ∉ bankedElsewhere) (v : Word) :
    s.ConfinedTo (t.setPhys p v) where
  mode := h.mode
  i := h.i
  f := h.f
  spsrs := h.spsrs
  banks q hq := (RegFile.get_set_other _ _ (ne_of_mem_of_not_mem hq hp)).trans (h.banks q hq)

/-- User mode writes only the registers it selects and the flags, and has no saved status to restore (R140, R244). -/
theorem confinedTo_keptByUpdates (s : State) : KeptByUpdates s.ConfinedTo where
  reg t i v h := by
    unfold State.writeReg
    rw [h.mode]
    exact h.setPhys (phys_usr_visible i) v
  user t i v h := h.setPhys (phys_usr_visible i) v
  flags _ _ _ _ _ h := ⟨h.mode, h.i, h.f, h.spsrs, h.banks⟩
  restore t h := by
    have hrestore : t.restoreCpsr = t := by
      rw [restoreCpsr_eq, h.mode]
      rfl
    rwa [hrestore]
  emit _ _ h := ⟨h.mode, h.i, h.f, h.spsrs, h.banks⟩
  word _ _ _ h := ⟨h.mode, h.i, h.f, h.spsrs, h.banks⟩
  byte _ _ _ h := ⟨h.mode, h.i, h.f, h.spsrs, h.banks⟩

/-- `t` is the entry into mode `m` from `s`: R15 is the vector of `m` and `SPSR[m]` the CPSR of `s`, while the other saved
status registers and the registers but R14 of `m` and R15 are those of `s`. -/
structure State.EntryInto (s t : State) (m : Mode) : Prop where
  mode : t.cpsr.mode = m
  vector : m.entryVector = some t.pc
  saved : t.spsr m = some s.cpsr
  spsrs : ∀ q, q ≠ m → t.spsr q = s.spsr q
  regs : s.RegsKeptBut t [phys m .r14, .r15]

/-- A mode that is entered by an exception has a saved status register (R29, R250). -/
theorem Mode.ne_usr_of_entryVector {m : Mode} {vec : Word} (h : m.entryVector = some vec) : m ≠ .usr := by
  rintro rfl
  cases h

/-- An entry raised from a state that has at most advanced from `s` is an entry from `s`. -/
theorem raise_entryInto {s u : State} (hregs : s.RegsKeptBut u [.r15]) (hspsrs : s.SpsrsKept u)
    (hcpsr : u.cpsr = s.cpsr) {m : Mode} {vec : Word} (ret : Word) (f : Bool)
    (hv : m.entryVector = some (vec &&& Config.pcMask)) : s.EntryInto (u.raise m vec ret f) m where
  mode := by rw [raise_cpsr, Psr.entered]
  vector := by rw [hv, raise_pc]
  saved := by rw [raise_spsr, if_pos ⟨rfl, Mode.ne_usr_of_entryVector hv⟩, hcpsr]
  spsrs q hq := by rw [raise_spsr, if_neg fun h => hq h.1, hspsrs.spsr_eq]
  regs q hq := (raise_regsKeptBut u m vec ret f q hq).trans (hregs q fun h => hq (List.mem_cons_of_mem _ h))

/-- An instruction of User mode stays confined, or is SWI and enters SVC mode (R240, R244). -/
theorem effect_confinedTo_or_entryInto {s u : State} (hu : s.ConfinedTo u) (hregs : s.RegsKeptBut u [.r15])
    (hcpsr : u.cpsr = s.cpsr) (i : Instr) : s.ConfinedTo (effect i u) ∨ ∃ m, s.EntryInto (effect i u) m := by
  rcases swi_or i with ⟨c, n, rfl⟩ | hi
  · exact .inr ⟨.svc, raise_entryInto hregs hu.spsrs hcpsr _ _ rfl⟩
  · exact .inl ((confinedTo_keptByUpdates s).effect i hi u hu)

/-- A step of User mode stays confined or enters an exception. -/
theorem step_confinedTo_or_entryInto {s t : State} (hmode : s.cpsr.mode = .usr) (hs : step s = .next t) :
    s.ConfinedTo t ∨ ∃ m, s.EntryInto t m := by
  have hstart : s.RegsKeptBut s.started [.r15] := fun _ _ => rfl
  rcases step_next_cases hs with ⟨-, rfl⟩ | ⟨-, -, rfl⟩ | ⟨-, -, -, rfl⟩
  · exact .inr ⟨.fiq, raise_entryInto hstart ⟨rfl, rfl, rfl⟩ rfl _ _ rfl⟩
  · exact .inr ⟨.irq, raise_entryInto hstart ⟨rfl, rfl, rfl⟩ rfl _ _ rfl⟩
  · obtain ⟨hregs, -, -⟩ := started_advance_kept s
    have hstarted : s.ConfinedTo s.started := ⟨hmode, rfl, rfl, ⟨rfl, rfl, rfl⟩, fun _ _ => rfl⟩
    have hadvanced : s.ConfinedTo s.started.advance := hstarted.setPhys (phys_usr_visible .r15) _
    split
    · exact effect_confinedTo_or_entryInto hadvanced hregs rfl _
    · exact .inl hadvanced

/-- The modes that are entered by an exception, each with its vector (R250). -/
theorem Mode.mem_of_entryVector {m : Mode} {vec : Word} (h : m.entryVector = some vec) :
    (m, vec) ∈ [(Mode.svc, 0x08#32), (.irq, 0x18#32), (.fiq, 0x1C#32)] := by
  cases m <;> cases h <;> decide

/-- Settles O39: the two outcomes of `step_confinedTo_or_entryInto`. -/
theorem userModeIsConfined : Obligations.UserModeIsConfined := by
  intro s t hmode hs
  rcases step_confinedTo_or_entryInto hmode hs with h | ⟨m, h⟩
  · exact .inl ⟨h.mode, h.i, h.f, h.spsrs, h.banks⟩
  · exact .inr ⟨m, t.pc, Mode.mem_of_entryVector h.vector, h.mode, rfl, h.saved, h.spsrs, h.regs⟩

end Sys2Proof.Machine

/-! The statements of spec/60_exceptions.md: the entries of IRQ and FIQ (R252 to R258), the return of their handlers
(R263), the status of the banks and the lines (R272, R273), the timers (R281, R284) and the request events (R285, R286). -/

namespace Sys2Proof.Machine

/-! ### The entry of an interrupt -/

/-- FIQ is tested first at the start of a step (R254). -/
theorem step_of_fiqPending {s : State} (hfiq : s.fiqPending = true) : step s = .next s.started.takeFiq := by
  rw [step_eq, if_pos hfiq]

/-- IRQ is tested where FIQ is not taken (R254). -/
theorem step_of_irqPending {s : State} (hfiq : s.fiqPending = false) (hirq : s.irqPending = true) :
    step s = .next s.started.takeIrq := by
  rw [step_eq, if_neg (by simp [hfiq]), if_pos hirq]

/-- An entry at the start of a step writes R14 of its mode, R15 and the status registers alone, and reports nothing
(R256). -/
theorem started_raise_kept (s : State) (m : Mode) (vec ret : Word) (f : Bool) :
    let t := s.started.raise m vec ret f
    s.RegsKeptBut t [phys m .r14, .r15] ∧ s.MemoryKept t ∧ s.DevicesKept t ∧ t.diags = [] :=
  have hbus := (started_sameBus s).trans (raise_sameBus s.started m vec ret f)
  ⟨raise_regsKeptBut s.started m vec ret f, hbus.memoryKept, hbus.devicesKept, raise_diags ..⟩

/-- An entry that masks FIQ changes the mode, I and F (R256). -/
theorem entered_setF (p : Psr) (m : Mode) : p.entered m true = { p with mode := m, i := true, f := true } := by
  simp [Psr.entered]

/-- Settles O34: the step is the entry into IRQ, which leaves F as it is. -/
theorem irqEntry : Obligations.IrqEntry := by
  intro s hfiq hline hi
  have hirq : s.irqPending = true := by simp [State.irqPending, hline, hi]
  obtain ⟨hregs, hmemory, hdevices, hdiags⟩ := started_raise_kept s .irq Exception.irq.vector (s.pc + 4#32) false
  exact ⟨s.started.takeIrq, step_of_irqPending hfiq hirq, rfl, (raise_cpsr ..).trans (entered_keepF _ _),
    raise_link s.started .irq _ _ _, raise_pc .., hregs, rfl, rfl, hmemory, hdevices, hdiags⟩

/-- Settles O35: the step is the entry into FIQ, whatever the IRQ line. -/
theorem fiqEntry : Obligations.FiqEntry := by
  intro s hline hf
  have hfiq : s.fiqPending = true := by simp [State.fiqPending, hline, hf]
  obtain ⟨hregs, hmemory, hdevices, hdiags⟩ := started_raise_kept s .fiq Exception.fiq.vector (s.pc + 4#32) true
  exact ⟨s.started.takeFiq, step_of_fiqPending hfiq, rfl, (raise_cpsr ..).trans (entered_setF _ _),
    raise_link s.started .fiq _ _ _, raise_pc .., hregs, rfl, rfl, hmemory, hdevices, hdiags⟩

/-! ### The return of a handler -/

/-- `SUBS PC, R14, #4` in a mode with a saved status: R15 takes the link less 4, CPSR the saved status, and nothing else
changes (R140). -/
theorem exec_subs_pc_link (s : State) {p : Psr} (hp : s.spsr s.cpsr.mode = some p) :
    ∃ t, exec (.sub .al true .r14 .r15 (.imm 0 4)) s = .next t ∧ s.OnlyRegs t [.r15] ∧
      t.pc = (s.regs.get (phys s.cpsr.mode .r14) - 4#32) &&& Config.pcMask ∧ t.cpsr = p := by
  obtain ⟨t, ht, hkept, hpc, hcpsr⟩ := exec_writes (i := .sub .al true .r14 .r15 (.imm 0 4)) (s := s) (c := .al)
    (alu := aluSub) (r := s.regs.get (phys s.cpsr.mode .r14) - 4#32) rfl rfl (by rw [aluSub_eq]; rfl) rfl
  rw [phys_r15] at hkept hpc
  refine ⟨t, ht, hkept, hpc, ?_⟩
  rw [hcpsr, State.cpsrAfter, if_pos ⟨rfl, rfl⟩, hp]
  rfl

/-- Settles O36: the link less 4 is the interrupted R15, which the mask of R15 keeps. -/
theorem interruptReturn : Obligations.InterruptReturn := by
  intro s h hinv hhandler
  have hsaved : h.spsr h.cpsr.mode = some s.cpsr ∧ h.regs.get (phys h.cpsr.mode .r14) = s.pc + 4#32 := by
    rcases hhandler with ⟨hmode, hspsr, hlink⟩ | ⟨hmode, hspsr, hlink⟩ <;>
      exact hmode ▸ ⟨congrArg some hspsr, hlink⟩
  obtain ⟨hspsr, hlink⟩ := hsaved
  obtain ⟨t, ht, hkept, hpc, hcpsr⟩ := exec_subs_pc_link h hspsr
  refine ⟨t, ht, ?pc, hcpsr, hkept.regs, hkept.spsrs, hkept.memory, hkept.devices⟩
  case pc => rw [hpc, hlink, BitVec.add_sub_cancel, hinv.pc]

/-! ### The status of the banks and the lines -/

/-- `irq_line` is true exactly when the status of bank A or of bank B is not zero (R273). -/
theorem Ioc.irqLine_iff (d : Ioc) : d.irqLine = true ↔ d.irqA.status ≠ 0 ∨ d.irqB.status ≠ 0 := by
  simp [Ioc.irqLine]

/-- `fiq_line` is true exactly when the status of the FIQ bank is not zero (R273). -/
theorem Ioc.fiqLine_iff (d : Ioc) : d.fiqLine = true ↔ d.fiq.status ≠ 0 := by
  simp [Ioc.fiqLine]

/-- A request bit whose mask bit is set makes the status of its bank not zero (R272). -/
theorem Bank.status_ne_zero {b : Bank} {j : Nat} (hrequest : b.request.getLsbD j = true)
    (hmask : b.mask.getLsbD j = true) : b.status ≠ 0 := by
  intro hzero
  have hbit : b.status.getLsbD j = true := by rw [Bank.status, BitVec.getLsbD_and, hrequest, hmask]; rfl
  simp [hzero] at hbit

/-- Settles O51: the three offsets read the statuses, and the lines test them. -/
theorem statusAndLines : Obligations.StatusAndLines := fun d => ⟨rfl, rfl, rfl, d.irqLine_iff, d.fiqLine_iff⟩

/-! ### The timers -/

theorem Timer.fires_iff (t : Timer) (n : Nat) : t.fires n = true ↔ 0 < n ∧ t.counter.toNat ≤ n := by
  simp [Timer.fires]

theorem Timer.tick_of_fires {t : Timer} {n : Nat} (h : t.fires n = true) : t.tick n = { t with counter := t.latch } :=
  if_pos h

theorem Timer.tick_of_not_fires {t : Timer} {n : Nat} (h : ¬t.fires n = true) :
    t.tick n = { t with counter := BitVec.ofNat 16 (t.counter.toNat - n) } := if_neg h

/-- A tick writes the counter of a timer alone (R281). -/
theorem Timer.tick_kept (t : Timer) (n : Nat) :
    (t.tick n).latch = t.latch ∧ (t.tick n).latchedRead = t.latchedRead := by
  by_cases h : t.fires n = true
  · rw [Timer.tick_of_fires h]; exact ⟨rfl, rfl⟩
  · rw [Timer.tick_of_not_fires h]; exact ⟨rfl, rfl⟩

theorem Timer.tick_reloads {t : Timer} {n : Nat} (h : 0 < n ∧ t.counter.toNat ≤ n) : (t.tick n).counter = t.latch := by
  rw [Timer.tick_of_fires ((t.fires_iff n).mpr h)]

/-- A counter that is not reached drops by the whole number of cycles. -/
theorem Timer.tick_counts {t : Timer} {n : Nat} (h : ¬(0 < n ∧ t.counter.toNat ≤ n)) :
    (t.tick n).counter.toNat + n = t.counter.toNat := by
  rw [Timer.tick_of_not_fires (mt (t.fires_iff n).mp h), BitVec.toNat_ofNat]
  have hlt := t.counter.isLt
  omega

/-- The request bits of a bank after a source that asserts `bits` when `c` holds. -/
theorem Bank.request1_if_getLsbD (b : Bank) (c : Bool) (bits : BitVec 8) (j : Nat) :
    (if c then b.request1 bits else b).request.getLsbD j = true ↔
      b.request.getLsbD j = true ∨ (bits.getLsbD j = true ∧ c = true) := by
  cases c <;> simp [Bank.request1]

theorem Bank.request1_if_mask (b : Bank) (c : Bool) (bits : BitVec 8) :
    (if c then b.request1 bits else b).mask = b.mask := by
  cases c <;> rfl

theorem timer0Bit_getLsbD (j : Nat) : timer0Bit.getLsbD j = true ↔ j = 5 := by
  rw [show timer0Bit = BitVec.twoPow 8 5 by decide, BitVec.getLsbD_twoPow]
  simp [eq_comm]

theorem timer1Bit_getLsbD (j : Nat) : timer1Bit.getLsbD j = true ↔ j = 6 := by
  rw [show timer1Bit = BitVec.twoPow 8 6 by decide, BitVec.getLsbD_twoPow]
  simp [eq_comm]

/-- A tick sets bit 5 of IRQ-A for timer 0 and bit 6 for timer 1, and no other request bit of the bank (R281). -/
theorem Ioc.tick_irqA_request (d : Ioc) (n j : Nat) : (d.tick n).irqA.request.getLsbD j = true ↔
    d.irqA.request.getLsbD j = true ∨ (j = 5 ∧ 0 < n ∧ d.t0.counter.toNat ≤ n) ∨
      (j = 6 ∧ 0 < n ∧ d.t1.counter.toNat ≤ n) := by
  unfold Ioc.tick
  rw [Bank.request1_if_getLsbD, Bank.request1_if_getLsbD, timer0Bit_getLsbD, timer1Bit_getLsbD, Timer.fires_iff,
    Timer.fires_iff, or_assoc]

theorem Ioc.tick_irqA_mask (d : Ioc) (n : Nat) : (d.tick n).irqA.mask = d.irqA.mask := by
  unfold Ioc.tick
  rw [Bank.request1_if_mask, Bank.request1_if_mask]

/-- Settles O54: each timer by its own tick, bank A by the bits it is given, and the rest is not written. -/
theorem timerTick : Obligations.TimerTick := by
  intro s n t fires0 fires1
  obtain ⟨hlatch0, hread0⟩ := s.ioc.t0.tick_kept n
  obtain ⟨hlatch1, hread1⟩ := s.ioc.t1.tick_kept n
  exact ⟨Timer.tick_reloads, Timer.tick_reloads, Timer.tick_counts, Timer.tick_counts,
    fun j _ => s.ioc.tick_irqA_request n j, ⟨hlatch0, hread0, hlatch1, hread1⟩, s.ioc.tick_irqA_mask n, rfl, rfl, rfl,
    rfl⟩

/-- A tick that makes timer 0 cross zero raises `irq_line` where the timer's mask bit is set (R284). -/
theorem Ioc.tick_irqLine {d : Ioc} {n : Nat} (hn : 0 < n) (hcross : d.t0.counter.toNat ≤ n)
    (hmask : d.irqA.mask.getLsbD 5 = true) : (d.tick n).irqLine = true := by
  have hrequest : (d.tick n).irqA.request.getLsbD 5 = true :=
    (d.tick_irqA_request n 5).mpr (.inr (.inl ⟨rfl, hn, hcross⟩))
  rw [← d.tick_irqA_mask n] at hmask
  exact (Ioc.irqLine_iff _).mpr (.inl (Bank.status_ne_zero hrequest hmask))

/-- Settles O55: the tick raises `irq_line` and leaves `fiq_line` and the CPU as they are, so that the step is the entry
of `irqEntry`. -/
theorem timerInterrupts : Obligations.TimerInterrupts := by
  intro s n hn hcross hmask hi hfiqLine
  have hfiq : ((iocTick n s).ioc.fiqLine && !(iocTick n s).cpsr.f) = false := by
    have hline : (iocTick n s).ioc.fiqLine = false := hfiqLine
    rw [hline, Bool.false_and]
  obtain ⟨t, hstep, hsaved, hcpsr, hlink, hpc, -⟩ := irqEntry (iocTick n s) hfiq (Ioc.tick_irqLine hn hcross hmask) hi
  exact ⟨t, hstep, by rw [hcpsr], by rw [hcpsr], hsaved, hpc, hlink⟩

/-! ### The request events -/

/-- Settles O56: `vflyback` is `ioc_assert` of bit 3 of bank A, and each bank takes the bits it is given. -/
theorem requestEvents : Obligations.RequestEvents := fun _ _ => ⟨rfl, rfl, rfl, rfl⟩

end Sys2Proof.Machine

/-! The statements of spec/70_reset_and_hazards.md: the state of `cpu_reset` (R321) and the masked supervisor (R323). -/

namespace Sys2Proof.Machine

/-! ### The state of `cpu_reset` -/

/-- Settles O58: the register file is that of zeros, and the fields of memory and of the devices are not written. -/
theorem cpuReset_state : Obligations.CpuReset := fun s =>
  have hbus : s.SameBus (cpuReset s) := ⟨rfl, rfl, rfl, rfl, rfl, rfl⟩
  ⟨RegFile.get_zero, rfl, hbus.memoryKept, hbus.devicesKept⟩

/-! ### The masked supervisor -/

/-- SVC mode with both interrupts masked. -/
def Psr.MaskedSvc (p : Psr) : Prop := p.mode = .svc ∧ p.i = true ∧ p.f = true

/-- CPSR and the status that a return from SVC mode restores are both masked supervisors: neither by itself lasts, since
the return copies the second into the first and SWI the first into the second. -/
structure State.MaskedSvc (s : State) : Prop where
  cpsr : s.cpsr.MaskedSvc
  saved : s.spsrSvc.MaskedSvc

/-- A masked supervisor takes no interrupt, whatever the lines (R252, R253). -/
theorem State.MaskedSvc.not_pending {s : State} (h : s.MaskedSvc) : s.fiqPending = false ∧ s.irqPending = false := by
  obtain ⟨-, hi, hf⟩ := h.cpsr
  simp [State.fiqPending, State.irqPending, hi, hf]

/-- Only the restore writes the mode or a mask, and it takes them from `SPSR[SVC]` (R140). -/
theorem maskedSvc_keptByUpdates : KeptByUpdates State.MaskedSvc where
  reg _ _ _ h := ⟨h.cpsr, h.saved⟩
  user _ _ _ h := ⟨h.cpsr, h.saved⟩
  flags _ _ _ _ _ h := ⟨h.cpsr, h.saved⟩
  restore t h := by
    obtain ⟨hmode, -, -⟩ := h.cpsr
    rw [restoreCpsr_eq, hmode]
    exact ⟨h.saved, h.saved⟩
  emit _ _ h := ⟨h.cpsr, h.saved⟩
  word _ _ _ h := ⟨h.cpsr, h.saved⟩
  byte _ _ _ h := ⟨h.cpsr, h.saved⟩

/-- SWI saves the masked CPSR, and enters the mode it comes from with F as it is (R240, R256). -/
theorem State.MaskedSvc.takeSwi {s : State} (h : s.MaskedSvc) : s.takeSwi.MaskedSvc where
  cpsr := by
    obtain ⟨-, -, hf⟩ := h.cpsr
    rw [State.takeSwi, raise_cpsr, entered_keepF]
    exact ⟨rfl, rfl, hf⟩
  saved := h.cpsr

/-- No instruction unmasks the supervisor: not SWI, and not the updates of the others. -/
theorem State.MaskedSvc.effect {s : State} (h : s.MaskedSvc) (i : Instr) : (effect i s).MaskedSvc := by
  rcases swi_or i with ⟨c, n, rfl⟩ | hi
  · exact h.takeSwi
  · exact maskedSvc_keptByUpdates.effect i hi s h

/-- A step of a masked supervisor is an instruction, and leaves it masked. -/
theorem State.MaskedSvc.step {s t : State} (h : s.MaskedSvc) (hs : step s = .next t) : t.MaskedSvc := by
  obtain ⟨hnofiq, hnoirq⟩ := h.not_pending
  rcases step_next_cases hs with ⟨hfiq, -⟩ | ⟨-, hirq, -⟩ | ⟨-, -, -, rfl⟩
  · cases hnofiq.symm.trans hfiq
  · cases hnoirq.symm.trans hirq
  · have hadvanced : s.started.advance.MaskedSvc := ⟨h.cpsr, h.saved⟩
    split
    · exact hadvanced.effect _
    · exact hadvanced

/-- Settles O41: the two premises are `State.MaskedSvc`, which `State.MaskedSvc.step` keeps. -/
theorem maskedSupervisorStays : Obligations.MaskedSupervisorStays := by
  intro s t hcpsr hsaved hs
  have h : t.MaskedSvc := State.MaskedSvc.step ⟨hcpsr, hsaved⟩ hs
  exact ⟨h.cpsr, h.saved⟩

end Sys2Proof.Machine
